-- ==== Sys2Proof/Word.lean ====
section
/-! DEFINITION. The word types of the machine (00_scope.md R4): bytes and 16-bit words. -/

namespace Sys2Proof

/-- A byte: the unit of memory and the width of A, B, DP and CC (00_scope.md R4). -/
abbrev Byte := BitVec 8

/-- A 16-bit word: the width of D, X, Y, U, S, PC and of an address (00_scope.md R4). -/
abbrev Word := BitVec 16

end Sys2Proof
end

