-- ==== Sys2Proof/Config.lean ====
section
/-! DEFINITION. What the spec leaves open: constants with no body, so that no proof can use a value of theirs. -/

namespace Sys2Proof.Config

/-- Parameter `UndefFlagDraw` (00_scope.md R5, 92_eei_decisions.md D13): the bit a flag takes that the spec
calls undefined, drawn at the step's tick (log 6). -/
opaque undefFlagDraw : Nat → Bool

/-- What the RES sequence leaves in the registers for which the spec gives no reset value
(10_state.md R48). -/
structure ResetValues where
  A : Byte
  B : Byte
  X : Word
  Y : Word
  U : Word
  S : Word
  CC : Byte
  deriving DecidableEq, Repr, Inhabited

/-- Parameter `ResetUnspecified` (00_scope.md R5, 92_eei_decisions.md D5): the unspecified registers after a RES
sequence, drawn at the step's tick (log 5). Of `CC` only E, H, N, Z, V and C are used. -/
opaque resetUnspecified : Nat → ResetValues

/-- What an unadmitted address answers to a read at a given tick (20_memory.md R62: "answered by an oracle";
log 2). -/
opaque busAnswer : Nat → Word → Byte

/-- Whether a byte that an abandoned instruction was to write, at a given tick and address, was written
before RES acted (60_exceptions.md R402, 93_implementation_defined.md U11; log 13). -/
opaque writtenBeforeRes : Nat → Nat → Bool

/-- BA and BS in the wait state, which the spec does not state (60_exceptions.md R415; log 15). -/
opaque waitBusStatus : Bool × Bool

/-- BA and BS while RES is low, which Table 3 does not list (60_exceptions.md R428; log 15). -/
opaque resetBusStatus : Bool × Bool

end Sys2Proof.Config
end

