-- ==== Sys2Proof/Machine/Bits.lean ====
section
/-! DEFINITION. Byte order and sign extension (20_memory.md R65, 30_encoding.md R107). -/

namespace Sys2Proof.Machine

/-- The more significant byte of a word (20_memory.md R65). -/
def hiByte (w : Word) : Byte := w.extractLsb' 8 8

/-- The less significant byte of a word. -/
def loByte (w : Word) : Byte := w.extractLsb' 0 8

/-- The word `h:l` (00_scope.md R8). -/
def joinBytes (h l : Byte) : Word := h ++ l

/-- `sext_8` as a word (00_scope.md R8). -/
def sext8 (b : Byte) : Word := b.signExtend 16

/-- `sext_5` as a word (00_scope.md R8). -/
def sext5 (b : BitVec 5) : Word := b.signExtend 16

/-- `zext_16` of a byte (00_scope.md R8). -/
def zext8 (b : Byte) : Word := b.zeroExtend 16

end Sys2Proof.Machine
end

