-- ==== Sys2Proof/Machine/Flags.lean ====
section
/-! DEFINITION. The condition code register and every flag computation (10_state.md section 2, and the family files). -/

namespace Sys2Proof.Machine

/-- The flags of CC (10_state.md R30). -/
inductive Flag where
  | C | V | Z | N | I | H | F | E
  deriving DecidableEq, Repr

/-- A flag's bit of CC (10_state.md R30). -/
def Flag.bit : Flag → Nat
  | .C => 0
  | .V => 1
  | .Z => 2
  | .N => 3
  | .I => 4
  | .H => 5
  | .F => 6
  | .E => 7

/-- A flag of a CC value. -/
def flagOf (cc : Byte) (f : Flag) : Bool := cc.getLsbD f.bit

/-- A CC value with one flag written and the other seven kept. -/
def putFlag (cc : Byte) (f : Flag) (b : Bool) : Byte :=
  if b then cc ||| (1#8 <<< f.bit) else cc &&& ~~~(1#8 <<< f.bit)

/-- `SetNZ8` (00_scope.md R8). -/
def setNZ8 (cc r : Byte) : Byte := putFlag (putFlag cc .N r.msb) .Z (r == 0)

/-- `SetNZ16` (00_scope.md R8, 42_16bit_accumulator_memory.md R251). -/
def setNZ16 (cc : Byte) (r : Word) : Byte := putFlag (putFlag cc .N r.msb) .Z (r == 0)

/-- N and Z from the result, V = 0, C kept: the flags of the 8-bit moves and logical operations
(41_8bit_accumulator_memory.md R177, R204, R224, R228). -/
def moveFlags8 (cc r : Byte) : Byte := putFlag (setNZ8 cc r) .V false

/-- The same for a 16-bit value (42_16bit_accumulator_memory.md R254, R256). -/
def moveFlags16 (cc : Byte) (r : Word) : Byte := putFlag (setNZ16 cc r) .V false

/-- The result and flags of an 8-bit addition or subtraction; `h` means nothing after a subtraction. -/
structure Sum8 where
  r : Byte
  h : Bool
  n : Bool
  z : Bool
  v : Bool
  c : Bool
  deriving DecidableEq, Repr

/-- `Add8` (41_8bit_accumulator_memory.md R171). -/
def add8 (a b : Byte) (cin : Bool) : Sum8 :=
  let s := a.toNat + b.toNat + cin.toNat
  let r := BitVec.ofNat 8 s
  { r := r
    h := decide (16 ≤ a.toNat % 16 + b.toNat % 16 + cin.toNat)
    n := r.msb
    z := r == 0
    v := (a.msb == b.msb) && (r.msb != a.msb)
    c := decide (256 ≤ s) }

/-- `Sub8` (41_8bit_accumulator_memory.md R171), the drawn value of H given. -/
def sub8 (a b : Byte) (bin draw : Bool) : Sum8 :=
  let d : Int := (a.toNat : Int) - (b.toNat : Int) - (bin.toNat : Int)
  let r := BitVec.ofInt 8 d
  { r := r
    h := draw
    n := r.msb
    z := r == 0
    v := (a.msb != b.msb) && (r.msb != a.msb)
    c := decide (d < 0) }

/-- CC after an 8-bit addition or subtraction: H, N, Z, V, C written, E, F, I kept
(41_8bit_accumulator_memory.md R171). -/
def arithFlags8 (cc : Byte) (x : Sum8) : Byte :=
  putFlag (putFlag (putFlag (putFlag (putFlag cc .H x.h) .N x.n) .Z x.z) .V x.v) .C x.c

/-- The result and flags of a 16-bit addition or subtraction. -/
structure Sum16 where
  r : Word
  n : Bool
  z : Bool
  v : Bool
  c : Bool
  deriving DecidableEq, Repr

/-- `Add16` (42_16bit_accumulator_memory.md R251). -/
def add16 (a b : Word) : Sum16 :=
  let s := a.toNat + b.toNat
  let r := BitVec.ofNat 16 s
  { r := r
    n := r.msb
    z := r == 0
    v := (a.msb == b.msb) && (r.msb != a.msb)
    c := decide (65536 ≤ s) }

/-- `Sub16` (42_16bit_accumulator_memory.md R251). -/
def sub16 (a b : Word) : Sum16 :=
  let d : Int := (a.toNat : Int) - (b.toNat : Int)
  let r := BitVec.ofInt 16 d
  { r := r
    n := r.msb
    z := r == 0
    v := (a.msb != b.msb) && (r.msb != a.msb)
    c := decide (d < 0) }

/-- CC after a 16-bit addition or subtraction: N, Z, V, C written, H kept (42_16bit_accumulator_memory.md R251). -/
def arithFlags16 (cc : Byte) (x : Sum16) : Byte :=
  putFlag (putFlag (putFlag (putFlag cc .N x.n) .Z x.z) .V x.v) .C x.c

/-! The operations on one byte. Each takes the byte, CC and the bit drawn for an undefined flag, and answers the new
byte and CC; they serve memory, A and B alike. -/

/-- ASL (41_8bit_accumulator_memory.md R179): H undefined. -/
def aslByte (m cc : Byte) (draw : Bool) : Byte × Byte :=
  let r := m <<< 1
  let cc := putFlag (putFlag cc .C (m.getLsbD 7)) .V (m.getLsbD 7 != m.getLsbD 6)
  (r, putFlag (setNZ8 cc r) .H draw)

/-- ASR (R182): V kept, H undefined. -/
def asrByte (m cc : Byte) (draw : Bool) : Byte × Byte :=
  let r := (m >>> 1) ||| (m &&& 0x80)
  (r, putFlag (setNZ8 (putFlag cc .C (m.getLsbD 0)) r) .H draw)

/-- LSR (R207): N = 0, V kept. -/
def lsrByte (m cc : Byte) (_draw : Bool) : Byte × Byte :=
  let r := m >>> 1
  (r, putFlag (putFlag (putFlag cc .C (m.getLsbD 0)) .N false) .Z (r == 0))

/-- ROL (R216): the old C enters bit 0. -/
def rolByte (m cc : Byte) (_draw : Bool) : Byte × Byte :=
  let r := (m <<< 1) ||| (if flagOf cc .C then 0x01 else 0x00)
  let cc := putFlag (putFlag cc .V (m.getLsbD 7 != m.getLsbD 6)) .C (m.getLsbD 7)
  (r, setNZ8 cc r)

/-- ROR (R219): the old C enters bit 7; V kept. -/
def rorByte (m cc : Byte) (_draw : Bool) : Byte × Byte :=
  let r := (m >>> 1) ||| (if flagOf cc .C then 0x80 else 0x00)
  (r, setNZ8 (putFlag cc .C (m.getLsbD 0)) r)

/-- COM (R192): C = 1. -/
def comByte (m cc : Byte) (_draw : Bool) : Byte × Byte :=
  let r := m ^^^ 0xFF
  (r, putFlag (putFlag (setNZ8 cc r) .V false) .C true)

/-- NEG (R211): a subtraction from 0, H undefined. -/
def negByte (m cc : Byte) (draw : Bool) : Byte × Byte :=
  let x := sub8 0 m false draw
  (x.r, arithFlags8 cc x)

/-- INC (R201): C and H kept. -/
def incByte (m cc : Byte) (_draw : Bool) : Byte × Byte :=
  let r := m + 1
  (r, putFlag (setNZ8 cc r) .V (m == 0x7F))

/-- DEC (R196): C and H kept. -/
def decByte (m cc : Byte) (_draw : Bool) : Byte × Byte :=
  let r := m - 1
  (r, putFlag (setNZ8 cc r) .V (m == 0x80))

/-- CLR (R187): N Z V C = 0 1 0 0, H kept; the byte read plays no part. -/
def clrByte (_m cc : Byte) (_draw : Bool) : Byte × Byte :=
  (0, putFlag (putFlag (putFlag (putFlag cc .N false) .Z true) .V false) .C false)

/-- DAA (R195): V undefined, H kept. -/
def daaByte (a cc : Byte) (draw : Bool) : Byte × Byte :=
  let lo := a.toNat % 16
  let hi := a.toNat / 16
  let c6 := if flagOf cc .H || decide (9 < lo) then 0x06 else 0x00
  let c60 := if flagOf cc .C || decide (9 < hi) || (decide (8 < hi) && decide (9 < lo)) then 0x60 else 0x00
  let s := a.toNat + (c6 + c60)
  let r := BitVec.ofNat 8 s
  (r, putFlag (setNZ8 (putFlag cc .C (flagOf cc .C || decide (256 ≤ s))) r) .V draw)

/-- MUL (R210): the product, Z from all of it, C its bit 7; N, V, H kept. -/
def mulBytes (a b cc : Byte) : Word × Byte :=
  let p := BitVec.ofNat 16 (a.toNat * b.toNat)
  (p, putFlag (putFlag cc .Z (p == 0)) .C (p.getLsbD 7))

/-- SEX (42_16bit_accumulator_memory.md R255): the new A, N and Z from the new D, V undefined. -/
def sexByte (b cc : Byte) (draw : Bool) : Byte × Byte :=
  let a : Byte := if b.getLsbD 7 then 0xFF else 0x00
  (a, putFlag (setNZ16 cc (joinBytes a b)) .V draw)

/-! The branch conditions (44_branches.md R311). -/

/-- The sixteen conditions, named by their short branches. -/
inductive Cond where
  | ra | rn | hi | ls | hs | lo | ne | eq | vc | vs | pl | mi | ge | lt | gt | le
  deriving DecidableEq, Repr

/-- Whether a condition holds in a CC value (44_branches.md R311). -/
def Cond.holds (cc : Byte) : Cond → Bool
  | .ra => true
  | .rn => false
  | .hi => !(flagOf cc .C || flagOf cc .Z)
  | .ls => flagOf cc .C || flagOf cc .Z
  | .hs => !flagOf cc .C
  | .lo => flagOf cc .C
  | .ne => !flagOf cc .Z
  | .eq => flagOf cc .Z
  | .vc => !flagOf cc .V
  | .vs => flagOf cc .V
  | .pl => !flagOf cc .N
  | .mi => flagOf cc .N
  | .ge => !(flagOf cc .N ^^ flagOf cc .V)
  | .lt => flagOf cc .N ^^ flagOf cc .V
  | .gt => !(flagOf cc .Z || (flagOf cc .N ^^ flagOf cc .V))
  | .le => flagOf cc .Z || (flagOf cc .N ^^ flagOf cc .V)

end Sys2Proof.Machine
end

