-- ==== Sys2Proof/Machine/State.lean ====
section
/-! DEFINITION. The machine's state as plain data, the reasons it stops, and the state after reset. -/

namespace Sys2Proof.Machine

/-- Why the model has no meaning to give. No instruction of this model is refused. -/
inductive Refusal where
  /-- An instruction of the opcode table without a meaning; raised by no arm of `exec`. Safe. -/
  | notModelled (mnemonic : String)
  deriving DecidableEq, Repr

/-- The run state (10_state.md R45). -/
inductive Run where
  /-- RES is low, or has been released and the vector is not yet fetched. -/
  | reset
  | running
  /-- After SYNC, waiting for an interrupt line. -/
  | sync
  /-- After CWAI, the entire state already stacked. -/
  | wait
  /-- HALT was low at an instruction end. -/
  | halted
  /-- DMA/BREQ is low: the MPU is off the bus. -/
  | busGrant
  deriving DecidableEq, Repr

/-- What stands at an address (20_memory.md R62). -/
inductive MemKind where
  /-- A read gives the last byte written. -/
  | ram
  /-- A read gives a fixed byte, a write changes nothing. -/
  | rom
  /-- Nothing the model knows: a read is answered by an oracle, a write changes nothing here. -/
  | unadmitted
  deriving DecidableEq, Repr

/-- The addresses `lo` to `hi`, both included, are of one kind (parameter `MemMap`, 92_eei_decisions.md D3). -/
structure Region where
  lo : Nat
  hi : Nat
  kind : MemKind
  deriving DecidableEq, Repr

/-- The input pins as the environment presents them at one instruction boundary (parameter `IrqLines`,
60_exceptions.md R395, 92_eei_decisions.md D9). A field is true where the pin is low, that is active. -/
structure Pins where
  /-- RES has been low for more than one bus cycle (60_exceptions.md R401). -/
  res : Bool
  /-- HALT (R420). -/
  halt : Bool
  /-- DMA/BREQ (R422). -/
  dma : Bool
  /-- A falling edge on NMI since the last boundary (R403). -/
  nmiEdge : Bool
  /-- FIRQ, as validly held (R405). -/
  firq : Bool
  /-- IRQ, as validly held (R404). -/
  irq : Bool
  /-- In the sync state: the FIRQ or IRQ level is a pulse of less than three cycles that ends the state
  without the interrupt being taken (R413). -/
  brief : Bool
  /-- The vector a device supplies if a vector is fetched in this step (R429). -/
  iack : Option Word
  /-- What another master writes while the MPU is off the bus in this step (20_memory.md R76). -/
  busWrites : List (Word × Byte)
  /-- DMA/BREQ inside an instruction or an interrupt entry (60_exceptions.md R422): one entry for each byte access of the
  step, `none` if the MPU makes it at once, else a bus grant before it with what the other master writes (log 12). -/
  grants : List (Option (List (Word × Byte)))
  deriving DecidableEq, Repr

/-- Every pin inactive: the sample when the environment presents nothing (log 7). -/
def Pins.idle : Pins :=
  { res := false, halt := false, dma := false, nmiEdge := false, firq := false, irq := false,
    brief := false, iack := none, busWrites := [], grants := [] }

/-- Memory: the bytes that differ from what an unlisted address reads as, by rising address. -/
abbrev Memory := List Host.Cell

/-- Everything the spec gives the machine (INVENTORY.md, State), under the manual's own names. -/
structure State where
  /-- Accumulators (10_state.md R21); D is A then B (R22). -/
  A : Byte
  B : Byte
  /-- Index registers (R23). -/
  X : Word
  Y : Word
  /-- User and hardware stack pointers (R24). -/
  U : Word
  S : Word
  /-- Program counter (R25). -/
  PC : Word
  /-- Direct page (R27). -/
  DP : Byte
  /-- Condition codes E F H I N Z V C, bit 7 to bit 0 (R30). -/
  CC : Byte
  /-- The holding register of the effective address (R46). -/
  temp : Word
  /-- `nmi_armed` (R42). -/
  nmiArmed : Bool
  /-- `nmi_pending` (R43). -/
  nmiPending : Bool
  /-- Run state (R45). -/
  run : Run
  /-- The model's own: where a halt or a bus grant goes on (log 20). -/
  resume : Run
  /-- The bytes of memory (20_memory.md R60). -/
  mem : Memory
  /-- What stands where (20_memory.md R62). An address in no region is RAM (log 2). -/
  memMap : List Region
  /-- The pin samples to come (log 7). -/
  lines : List Pins
  /-- The pin sample in force. -/
  pins : Pins
  /-- The bus grants that the byte accesses still to come in this step may meet (60_exceptions.md R422; log 12). -/
  grants : List (Option (List (Word × Byte)))
  /-- The codes of the outputs BA and BS that the step has shown so far, the running code left out: interrupt or reset
  acknowledge, and bus grant inside an instruction (60_exceptions.md R428, R429; log 15). -/
  shown : List (Bool × Bool)
  /-- The model's own: steps counted, the index of the free values (log 8). -/
  tick : Nat
  deriving DecidableEq, Repr

/-- The model stops here; the hardware has no such event (60_exceptions.md R391). Each fault holds the state at the stop:
nothing of the instruction is done but its fetches, and PC is past the bytes fetched (40_addressing_modes.md R157). Both
are raised by the step that meets the bytes, and are safe: the model claims nothing of what the hardware does then. -/
inductive Fault where
  /-- `fault Undefined(opcode)`: an unused opcode (30_encoding.md R118), raised by the step that fetches it.
  Safe. -/
  | undefinedOpcode (stopped : State)
  /-- `fault Undefined(postbyte)`: an undefined indexed postbyte (30_encoding.md R103) or an invalid TFR or EXG
  postbyte (R105), raised by the step that fetches it, and by TFR and EXG on registers of unlike width. Safe. -/
  | undefinedPostbyte (stopped : State)
  deriving DecidableEq, Repr

/-- The machine after RES with the vector fetched (10_state.md R48): DP = 0, F = I = 1, NMI unarmed, PC the word at
0xFFFE, which in a memory with nothing listed is 0x0000 (log 1). The registers and flags without a reset
value are zero (DESIGN CHOICE, log 3). -/
def State.reset : State :=
  { A := 0, B := 0, X := 0, Y := 0, U := 0, S := 0, PC := 0, DP := 0, CC := 0x50, temp := 0,
    nmiArmed := false, nmiPending := false, run := .running, resume := .running,
    mem := [], memMap := [], lines := [], pins := Pins.idle, grants := [],
    shown := [], tick := 0 }

end Sys2Proof.Machine
end

