-- ==== Sys2Proof/Machine/Memory.lean ====
section
/-! DEFINITION. Memory as a list in one canonical form: its one read, its one write, and the form. -/

namespace Sys2Proof.Machine

/-- What an address reads as that memory does not list (DESIGN CHOICE, log 1: the spec gives RAM no contents). -/
def unlistedByte : Byte := 0

/-- The byte at an address. -/
def Memory.read : Memory → Nat → Byte
  | [], _ => unlistedByte
  | (k, v) :: m, a => if k = a then v else Memory.read m a

/-- The cell put before the first cell of a higher address. -/
def Memory.place (a : Nat) (v : Byte) : Memory → Memory
  | [] => [(a, v)]
  | (k, w) :: m => if a < k then (a, v) :: (k, w) :: m else (k, w) :: Memory.place a v m

/-- The cell of an address taken out. -/
def Memory.erase (a : Nat) (m : Memory) : Memory := m.filter (fun c => c.1 != a)

/-- The byte at an address written; the byte that an unlisted address reads as is not listed. -/
def Memory.write (m : Memory) (a : Nat) (v : Byte) : Memory :=
  if v = unlistedByte then Memory.erase a m else Memory.place a v (Memory.erase a m)

/-- Every cell lies above `lo`, below 2^16 and by rising address, and none holds the unlisted byte. -/
def Memory.wfAbove : Option Nat → Memory → Bool
  | _, [] => true
  | lo, (k, v) :: m =>
    (match lo with | none => true | some l => decide (l < k)) && decide (k < 65536) && (v != unlistedByte) &&
      Memory.wfAbove (some k) m

/-- The canonical form: addresses strictly rising and below 2^16 (20_memory.md R60), no cell equal to what an
unlisted address reads as. -/
def Memory.wf (m : Memory) : Bool := Memory.wfAbove none m

end Sys2Proof.Machine
end

