-- ==== Sys2Proof/Syntax.lean ====
section
/-! DEFINITION. The instructions and their operands as syntax. -/

namespace Sys2Proof

/-- The pointer registers of indexed addressing, field RR of the postbyte (30_encoding.md R102). -/
inductive Ptr where
  | x | y | u | s
  deriving DecidableEq, Repr

/-- The operand of format IDX: a defined postbyte with its offset bytes (30_encoding.md R102, R103;
40_addressing_modes.md R137 to R155). `ind` is the indirect bit; the forms that have none
(40_addressing_modes.md R152; 30_encoding.md R122 for the 5-bit offset) carry none. -/
inductive Indexed where
  /-- `n,R` with a 5-bit offset (R141). It has no indirect form (30_encoding.md R122): an indirect small offset is
  `off8` with `ind`. -/
  | off5 (r : Ptr) (n : BitVec 5)
  /-- `,R+` (R148). -/
  | inc1 (r : Ptr)
  /-- `,R++` (R148). -/
  | inc2 (r : Ptr) (ind : Bool)
  /-- `,-R` (R149). -/
  | dec1 (r : Ptr)
  /-- `,--R` (R149). -/
  | dec2 (r : Ptr) (ind : Bool)
  /-- `,R` (R139). -/
  | zero (r : Ptr) (ind : Bool)
  /-- `B,R` (R145). -/
  | offB (r : Ptr) (ind : Bool)
  /-- `A,R` (R144). -/
  | offA (r : Ptr) (ind : Bool)
  /-- `n,R` with an 8-bit offset (R142). -/
  | off8 (r : Ptr) (n : Byte) (ind : Bool)
  /-- `n,R` with a 16-bit offset (R143). -/
  | off16 (r : Ptr) (n : Word) (ind : Bool)
  /-- `D,R` (R146). -/
  | offD (r : Ptr) (ind : Bool)
  /-- `n,PCR` with an 8-bit offset (R153). -/
  | pcr8 (n : Byte) (ind : Bool)
  /-- `n,PCR` with a 16-bit offset (R154). -/
  | pcr16 (n : Word) (ind : Bool)
  /-- `[n]`, extended indirect (R135). -/
  | extInd (p : Word)
  deriving DecidableEq, Repr

/-- A memory operand: formats DIR, IDX and EXT (30_encoding.md R94). -/
inductive Mem where
  | dir (dd : Byte)
  | idx (x : Indexed)
  | ext (addr : Word)
  deriving DecidableEq, Repr

/-- An 8-bit source operand: format IMM8 or a memory operand (30_encoding.md R94). -/
inductive Src8 where
  | imm (m : Byte)
  | mem (o : Mem)
  deriving DecidableEq, Repr

/-- A 16-bit source operand: format IMM16 or a memory operand (30_encoding.md R94). -/
inductive Src16 where
  | imm (m : Word)
  | mem (o : Mem)
  deriving DecidableEq, Repr

/-- The 8-bit registers of TFR and EXG (30_encoding.md R104). -/
inductive Reg8 where
  | a | b | cc | dp
  deriving DecidableEq, Repr

/-- The 16-bit registers of TFR and EXG (30_encoding.md R104). -/
inductive Reg16 where
  | d | x | y | u | s | pc
  deriving DecidableEq, Repr

/-- A register code of TFR and EXG (30_encoding.md R104). -/
inductive Reg where
  | r8 (r : Reg8)
  | r16 (r : Reg16)
  deriving DecidableEq, Repr

/-- The register list of a push or pull, one bit a register (30_encoding.md R106). `us` is the other
stack pointer: U for PSHS and PULS, S for PSHU and PULU. -/
structure RegList where
  pc : Bool
  us : Bool
  y : Bool
  x : Bool
  dp : Bool
  b : Bool
  a : Bool
  cc : Bool
  deriving DecidableEq, Repr

/-- The instructions: one constructor per mnemonic of the opcode table, whose rows are the constructor with
each form of its operand (30_encoding.md R110 to R112). The mnemonic is the constructor's name in capitals. -/
inductive Instr where
  -- 8-bit accumulator with memory (41_8bit_accumulator_memory.md)
  | adca (o : Src8) | adcb (o : Src8) | adda (o : Src8) | addb (o : Src8)
  | anda (o : Src8) | andb (o : Src8) | bita (o : Src8) | bitb (o : Src8)
  | cmpa (o : Src8) | cmpb (o : Src8) | eora (o : Src8) | eorb (o : Src8)
  | lda (o : Src8) | ldb (o : Src8) | ora (o : Src8) | orb (o : Src8)
  | sbca (o : Src8) | sbcb (o : Src8) | suba (o : Src8) | subb (o : Src8)
  | sta (o : Mem) | stb (o : Mem)
  -- one operand: memory, A, B (41_8bit_accumulator_memory.md)
  | asl (o : Mem) | asla | aslb
  | asr (o : Mem) | asra | asrb
  | clr (o : Mem) | clra | clrb
  | com (o : Mem) | coma | comb
  | dec (o : Mem) | deca | decb
  | inc (o : Mem) | inca | incb
  | lsr (o : Mem) | lsra | lsrb
  | neg (o : Mem) | nega | negb
  | rol (o : Mem) | rola | rolb
  | ror (o : Mem) | rora | rorb
  | tst (o : Mem) | tsta | tstb
  | daa | mul
  -- 16-bit accumulator (42_16bit_accumulator_memory.md)
  | addd (o : Src16) | cmpd (o : Src16) | ldd (o : Src16) | subd (o : Src16)
  | std (o : Mem) | sex
  -- index registers and stack pointers (43_index_stack.md)
  | cmps (o : Src16) | cmpu (o : Src16) | cmpx (o : Src16) | cmpy (o : Src16)
  | lds (o : Src16) | ldu (o : Src16) | ldx (o : Src16) | ldy (o : Src16)
  | sts (o : Mem) | stu (o : Mem) | stx (o : Mem) | sty (o : Mem)
  | leas (o : Indexed) | leau (o : Indexed) | leax (o : Indexed) | leay (o : Indexed)
  | pshs (l : RegList) | pshu (l : RegList) | puls (l : RegList) | pulu (l : RegList)
  | exg (r1 : Reg) (r2 : Reg) | tfr (r1 : Reg) (r2 : Reg)
  | abx
  -- branches (44_branches.md)
  | bra (d : Byte) | brn (d : Byte) | bhi (d : Byte) | bls (d : Byte)
  | bhs (d : Byte) | blo (d : Byte) | bne (d : Byte) | beq (d : Byte)
  | bvc (d : Byte) | bvs (d : Byte) | bpl (d : Byte) | bmi (d : Byte)
  | bge (d : Byte) | blt (d : Byte) | bgt (d : Byte) | ble (d : Byte)
  | bsr (d : Byte)
  | lbra (d : Word) | lbrn (d : Word) | lbhi (d : Word) | lbls (d : Word)
  | lbhs (d : Word) | lblo (d : Word) | lbne (d : Word) | lbeq (d : Word)
  | lbvc (d : Word) | lbvs (d : Word) | lbpl (d : Word) | lbmi (d : Word)
  | lbge (d : Word) | lblt (d : Word) | lbgt (d : Word) | lble (d : Word)
  | lbsr (d : Word)
  -- miscellaneous (45_miscellaneous.md)
  | andcc (m : Byte) | orcc (m : Byte) | cwai (m : Byte)
  | nop | jmp (o : Mem) | jsr (o : Mem) | rti | rts
  | swi | swi2 | swi3 | sync
  deriving DecidableEq, Repr

end Sys2Proof
end

