-- ==== Sys2Proof/Machine/Ops.lean ====
section
/-! DEFINITION. The named operations over registers and memory, taking an interrupt, and the return from one. -/

namespace Sys2Proof.Machine

/-! Registers: one writer a register, and D as A and B (10_state.md R22). -/

/-- A register write of A. -/
def State.setA (s : State) (v : Byte) : State := { s with A := v }
/-- A register write of B. -/
def State.setB (s : State) (v : Byte) : State := { s with B := v }
/-- A register write of X. -/
def State.setX (s : State) (v : Word) : State := { s with X := v }
/-- A register write of Y. -/
def State.setY (s : State) (v : Word) : State := { s with Y := v }
/-- A register write of U. -/
def State.setU (s : State) (v : Word) : State := { s with U := v }
/-- A register write of S; NMI is armed by `State.arm`, not here (10_state.md R42). -/
def State.setS (s : State) (v : Word) : State := { s with S := v }
/-- A register write of PC, a control transfer. -/
def State.setPC (s : State) (v : Word) : State := { s with PC := v }
/-- A register write of DP. -/
def State.setDP (s : State) (v : Byte) : State := { s with DP := v }
/-- A write of all eight condition codes. -/
def State.setCC (s : State) (v : Byte) : State := { s with CC := v }
/-- A write of the holding register (10_state.md R46). -/
def State.setTemp (s : State) (v : Word) : State := { s with temp := v }
/-- A change of the run state (10_state.md R45). -/
def State.setRun (s : State) (v : Run) : State := { s with run := v }
/-- A program load of S arms NMI (10_state.md R42; the set `NmiArmSet`, log 9). -/
def State.arm (s : State) : State := { s with nmiArmed := true }

/-- D, the word A:B (10_state.md R22). -/
def State.D (s : State) : Word := joinBytes s.A s.B
/-- A register write of D: A its high byte, B its low byte (10_state.md R22). -/
def State.setD (s : State) (v : Word) : State := { s with A := hiByte v, B := loByte v }

/-- A condition code. -/
def State.flag (s : State) (f : Flag) : Bool := flagOf s.CC f
/-- One condition code written, the other seven kept. -/
def State.setFlag (s : State) (f : Flag) (b : Bool) : State := { s with CC := putFlag s.CC f b }
/-- The bit drawn in this step for a flag the spec calls undefined (`undef()`, 00_scope.md R8; log 6). -/
def State.undefFlag (s : State) : Bool := Config.undefFlagDraw s.tick

/-! Registers by the codes of TFR and EXG, which pushes and pulls use as well. -/

/-- An 8-bit register of TFR and EXG (30_encoding.md R104). -/
def State.reg8 (s : State) : Reg8 → Byte
  | .a => s.A
  | .b => s.B
  | .cc => s.CC
  | .dp => s.DP

/-- An 8-bit register written (43_index_stack.md R295). -/
def State.setReg8 (s : State) (r : Reg8) (v : Byte) : State :=
  match r with
  | .a => s.setA v
  | .b => s.setB v
  | .cc => s.setCC v
  | .dp => s.setDP v

/-- A 16-bit register; PC reads as the address of the next instruction (10_state.md R26). -/
def State.reg16 (s : State) : Reg16 → Word
  | .d => s.D
  | .x => s.X
  | .y => s.Y
  | .u => s.U
  | .s => s.S
  | .pc => s.PC

/-- A 16-bit register loaded by the program: a load of S arms NMI (10_state.md R42; log 9). -/
def State.loadReg16 (s : State) (r : Reg16) (v : Word) : State :=
  match r with
  | .d => s.setD v
  | .x => s.setX v
  | .y => s.setY v
  | .u => s.setU v
  | .s => (s.setS v).arm
  | .pc => s.setPC v

/-! Memory (20_memory.md). -/

/-- What stands at an address: the kind of the first region that holds it, else RAM (20_memory.md R62; log 2). -/
def kindIn : List Region → Nat → MemKind
  | [], _ => .ram
  | g :: gs, a => if decide (g.lo ≤ a) && decide (a ≤ g.hi) then g.kind else kindIn gs a

/-- What stands at an address of this machine. -/
def State.kindAt (s : State) (a : Word) : MemKind := kindIn s.memMap a.toNat

/-- What a read of an address gives: RAM and ROM their byte, an unadmitted address a free one (20_memory.md R62). -/
def State.readByte (s : State) (a : Word) : Byte :=
  match s.kindAt a with
  | .ram => s.mem.read a.toNat
  | .rom => s.mem.read a.toNat
  | .unadmitted => Config.busAnswer s.tick a

/-- What a write to an address leaves: only RAM changes (20_memory.md R62). -/
def State.writeByte (s : State) (a : Word) (v : Byte) : State :=
  match s.kindAt a with
  | .ram => { s with mem := s.mem.write a.toNat v }
  | .rom => s
  | .unadmitted => s

/-- The word at an address: the high byte at the lower address, modulo 2^16 (20_memory.md R65). -/
def State.readWord (s : State) (a : Word) : Word := joinBytes (s.readByte a) (s.readByte (a + 1))

/-! The bus. Another master can have it between any two byte accesses of the MPU (60_exceptions.md R422, R423). -/

/-- A code of BA and BS shown (60_exceptions.md R428). -/
def State.showCode (s : State) (code : Bool × Bool) : State := { s with shown := s.shown ++ [code] }

/-- BA and BS in a bus grant or a halt (60_exceptions.md R428). -/
def busGrantCode : Bool × Bool := (true, true)

/-- BA and BS in both cycles of a vector fetch (60_exceptions.md R428, R429). -/
def acknowledgeCode : Bool × Bool := (false, true)

/-- What another master writes, in order (20_memory.md R76). -/
def State.otherWrites (s : State) (ws : List (Word × Byte)) : State := ws.foldl (fun t w => t.writeByte w.1 w.2) s

/-- What comes before a byte access: a bus grant, if the environment has one there (60_exceptions.md R422; log 12). The
MPU goes on where it stopped, with no register changed. -/
def State.grant (s : State) : State :=
  match s.grants with
  | [] => s
  | none :: rest => { s with grants := rest }
  | some ws :: rest => ({ s with grants := rest }.showCode busGrantCode).otherWrites ws

/-- The state after what comes before `n` byte accesses that are reads. -/
def State.grantN : Nat → State → State
  | 0, s => s
  | n + 1, s => State.grantN n s.grant

/-- `MemRead(addr, 1)` (20_memory.md R63): the byte, and the state it is read in. -/
def State.busRead (s : State) (a : Word) : Byte × State := (s.grant.readByte a, s.grant)

/-- `MemWrite(addr, 1, v)` (20_memory.md R64). -/
def State.busWrite (s : State) (a : Word) (v : Byte) : State := s.grant.writeByte a v

/-- `MemRead(addr, 2)` (20_memory.md R66, R72): two accesses, the high byte first, at the lower address. -/
def State.busReadWord (s : State) (a : Word) : Word × State :=
  (joinBytes (s.grant.readByte a) (s.grant.grant.readByte (a + 1)), s.grant.grant)

/-- `MemWrite(addr, 2, v)` (20_memory.md R67, R72): two accesses, the high byte first, at the lower address. -/
def State.busWriteWord (s : State) (a : Word) (v : Word) : State :=
  (s.busWrite a (hiByte v)).busWrite (a + 1) (loByte v)

/-! Stacks (43_index_stack.md R285). -/

/-- The two stacks (10_state.md R24). -/
inductive Stack where
  | s | u
  deriving DecidableEq, Repr

/-- A stack's pointer. -/
def State.sp (s : State) : Stack → Word
  | .s => s.S
  | .u => s.U

/-- A stack's pointer written; this does not arm NMI (92_eei_decisions.md D6). -/
def State.setSp (s : State) (k : Stack) (v : Word) : State :=
  match k with
  | .s => s.setS v
  | .u => s.setU v

/-- `Push8` (43_index_stack.md R285). -/
def State.push8 (s : State) (k : Stack) (v : Byte) : State :=
  let p := s.sp k - 1
  (s.setSp k p).busWrite p v

/-- `Push16` (43_index_stack.md R285): the low byte first. -/
def State.push16 (s : State) (k : Stack) (v : Word) : State := (s.push8 k (loByte v)).push8 k (hiByte v)

/-- The byte at the top of a stack (10_state.md R24). -/
def State.top8 (s : State) (k : Stack) : Byte := s.readByte (s.sp k)

/-- A stack with its top byte taken off. -/
def State.drop8 (s : State) (k : Stack) : State := s.setSp k (s.sp k + 1)

/-- `Pull8` into a register (43_index_stack.md R285, R289, R290). -/
def State.pull8 (s : State) (k : Stack) (r : Reg8) : State :=
  let s := s.grant
  (s.setReg8 r (s.top8 k)).drop8 k

/-- `Pull16` into a register: the high byte first; a pull of S is a load of it and arms NMI (43_index_stack.md R285, R289,
R290). -/
def State.pull16 (s : State) (k : Stack) (r : Reg16) : State :=
  let hi := s.grant.top8 k
  let s := (s.grant.drop8 k).grant
  (s.loadReg16 r (joinBytes hi (s.top8 k))).drop8 k

/-! Interrupts (60_exceptions.md). -/

/-- The events entered by `Interrupt(kind)` (60_exceptions.md R400). RES is not one (R401). -/
inductive IntKind where
  | nmi | swi | irq | firq | swi2 | swi3
  deriving DecidableEq, Repr

/-- The vectors (20_memory.md R80). 0xFFF0 is never fetched (R81). -/
def IntKind.vector : IntKind → Word
  | .nmi => 0xFFFC
  | .swi => 0xFFFA
  | .irq => 0xFFF8
  | .firq => 0xFFF6
  | .swi2 => 0xFFF4
  | .swi3 => 0xFFF2

/-- The reset vector (20_memory.md R80). -/
def resVector : Word := 0xFFFE

/-- A vector fetch into PC: two accesses that show the acknowledge code; the word is the one in memory, unless a device
supplies it (60_exceptions.md R392, R429; log 11). -/
def State.vectorFetch (s : State) (v : Word) : State :=
  let hi := s.grant.readByte v
  let s := (s.grant.showCode acknowledgeCode).grant
  let w := joinBytes hi (s.readByte (v + 1))
  (s.showCode acknowledgeCode).setPC (s.pins.iack.getD w)

/-- The entire state stacked on S, in the order of 60_exceptions.md R400 (43_index_stack.md R286). -/
def State.stackEntire (s : State) : State :=
  (((((((s.push16 .s s.PC).push16 .s s.U).push16 .s s.Y).push16 .s s.X).push8 .s s.DP).push8 .s s.B).push8 .s
    s.A).push8 .s s.CC

/-- The subset state stacked on S: PC and CC (60_exceptions.md R400, R405). -/
def State.stackSubset (s : State) : State := (s.push16 .s s.PC).push8 .s s.CC

/-- E written and the state of this kind stacked (60_exceptions.md R400). -/
def State.stackFor (s : State) (k : IntKind) : State :=
  match k with
  | .firq => (s.setFlag .E false).stackSubset
  | _ => (s.setFlag .E true).stackEntire

/-- The masks an entry sets, and the NMI latch it clears (60_exceptions.md R400). -/
def State.maskFor (s : State) (k : IntKind) : State :=
  match k with
  | .nmi => { (s.setFlag .I true).setFlag .F true with nmiPending := false }
  | .firq => (s.setFlag .I true).setFlag .F true
  | .irq => s.setFlag .I true
  | .swi => (s.setFlag .I true).setFlag .F true
  | .swi2 => s
  | .swi3 => s

/-- The common entry sequence (60_exceptions.md R400): the state is stacked unless CWAI has stacked it already, the
masks are set, and PC is loaded from the vector. -/
def State.interrupt (s : State) (k : IntKind) : State :=
  let s := if s.run = .wait then s else s.stackFor k
  ((s.maskFor k).setRun .running).vectorFetch k.vector

/-- The return (45_miscellaneous.md R367, 60_exceptions.md R410): CC is pulled, its E decides whether the entire state
follows, PC is pulled last. -/
def State.returnFromInterrupt (s : State) : State :=
  let s := s.pull8 .s .cc
  let s :=
    if s.flag .E then
      (((((s.pull8 .s .a).pull8 .s .b).pull8 .s .dp).pull16 .s .x).pull16 .s .y).pull16 .s .u
    else s
  s.pull16 .s .pc

end Sys2Proof.Machine
end

