-- ==== Sys2Proof/Machine/Boundary.lean ====
section
/-! DEFINITION. What happens between instructions: pins sampled, interrupts recognised, the sync, wait, halt, bus grant and
reset states (60_exceptions.md, 70_reset_and_hazards.md), and the outputs BA and BS. -/

namespace Sys2Proof.Machine

/-- The pin sample of this step (log 7). -/
def State.nextPins (s : State) : Pins :=
  match s.lines with
  | [] => Pins.idle
  | p :: _ => p

/-- The pins of this boundary taken in, and the step counted. A falling edge on NMI is latched if NMI is armed and dropped
if it is not (10_state.md R43, 60_exceptions.md R403; log 10). -/
def State.sample (s : State) : State :=
  { s with
    pins := s.nextPins
    grants := s.nextPins.grants
    shown := []
    lines := s.lines.tail
    tick := s.tick + 1
    nmiPending := s.nmiPending || (s.nextPins.nmiEdge && s.nmiArmed) }

/-- The interrupt taken at this boundary: NMI if latched and armed, else FIRQ if low and F is clear, else IRQ if low and I is
clear (60_exceptions.md R394, R403, R404, R405). -/
def State.recognised (s : State) : Option IntKind :=
  if s.nmiPending && s.nmiArmed then some .nmi
  else if s.pins.firq && !s.flag .F then some .firq
  else if s.pins.irq && !s.flag .I then some .irq
  else none

/-- What another master writes while the MPU is off the bus in this step (20_memory.md R76; log 12). -/
def State.masterWrites (s : State) : State := s.otherWrites s.pins.busWrites

/-- The reset sequence while RES is low (70_reset_and_hazards.md R450): DP = 0, I = F = 1, NMI unarmed and its latch clear; the
other registers and flags hold free values (92_eei_decisions.md D5; log 5); memory is kept. -/
def State.resetSequence (s : State) : State :=
  let v := Config.resetUnspecified s.tick
  { s with
    A := v.A
    B := v.B
    X := v.X
    Y := v.Y
    U := v.U
    S := v.S
    DP := 0
    CC := putFlag (putFlag v.CC .I true) .F true
    nmiArmed := false
    nmiPending := false
    run := .reset }

/-- RES is released: PC is loaded from the reset vector (70_reset_and_hazards.md R450). -/
def State.leaveReset (s : State) : State := (s.vectorFetch resVector).setRun .running

/-- HALT is low at an instruction end (60_exceptions.md R420), or at the release of RES (R425): the MPU stops, to go on in
the given run state. -/
def State.enterHalt (s : State) (resume : Run) : State :=
  { s with run := .halted, resume := resume }.masterWrites

/-- DMA/BREQ is low at an instruction boundary or in the sync or wait state: the MPU is off the bus until a step samples
the pin high (60_exceptions.md R422). Inside an instruction it is `State.grant` (log 12). -/
def State.enterBusGrant (s : State) : State :=
  { s with run := .busGrant, resume := s.run }.masterWrites

/-- A step in the reset state: RES still low, or HALT low at its release (60_exceptions.md R425), or the vector fetch. -/
def State.resetStep (s : State) : State :=
  if s.pins.res then s.resetSequence
  else if s.pins.halt then s.enterHalt .reset
  else s.leaveReset

/-- A step of a halt (60_exceptions.md R420, R421): FIRQ and IRQ are not looked at, NMI is latched by `State.sample`, RES is
latched in `resume`, another master may write. When HALT is high the MPU goes on. -/
def State.haltedStep (s : State) : State :=
  let s := if s.pins.res then { s with resume := .reset } else s
  if s.pins.halt then s.masterWrites
  else if s.resume = .reset then s.resetSequence
  else s.setRun s.resume

/-- A step of a bus grant (60_exceptions.md R422). RES acts at once (R401; log 20). -/
def State.busGrantStep (s : State) : State :=
  if s.pins.res then s.resetSequence
  else if s.pins.dma then s.masterWrites
  else s.setRun s.resume

/-- A step of the sync state (60_exceptions.md R413). A brief pulse on an unmasked FIRQ or IRQ ends the state without the
interrupt (log 14). -/
def State.syncStep (s : State) : State :=
  if s.pins.res then s.resetSequence
  else if s.pins.dma then s.enterBusGrant
  else
    match s.recognised with
    | some .nmi => (s.setRun .running).interrupt .nmi
    | some k => if s.pins.brief then s.setRun .running else (s.setRun .running).interrupt k
    | none => if s.pins.firq || s.pins.irq then s.setRun .running else s

/-- A step of the wait state (60_exceptions.md R414): the entry does not stack again. -/
def State.waitStep (s : State) : State :=
  if s.pins.res then s.resetSequence
  else if s.pins.dma then s.enterBusGrant
  else
    match s.recognised with
    | some k => s.interrupt k
    | none => s

/-- Memory when RES abandons an instruction: each byte is as before it or as after it (60_exceptions.md R402; log 13). -/
def mergeWrites (written : Nat → Bool) (before after : Memory) : Memory :=
  ((before ++ after).map Prod.fst).foldl (fun m a => if written a then m.write a (after.read a) else m) before

/-- All the bus grants of the step that are still to come. -/
def State.allGrants (s : State) : State := State.grantN s.grants.length s

/-- RES acts while an instruction or an interrupt entry runs that would have answered `o` (60_exceptions.md R401, R402):
each byte is as the other master left it or as the instruction would have (log 13). Bytes that are no instruction are
abandoned as well, with nothing of theirs done: DESIGN CHOICE, the spec does not say what they do before RES acts (log 16).
Of BA and BS the step shows the codes of its bus grants only, never the acknowledge code of a vector fetch that may have
begun: DESIGN CHOICE, the spec does not say how far the abandoned sequence has come (log 15). -/
def State.abandon (s : State) (o : Host.Outcome State Fault Refusal) : State :=
  match o with
  | .next t =>
    { s.allGrants with
      mem := mergeWrites (Config.writtenBeforeRes s.tick) s.allGrants.mem t.allGrants.mem }.resetSequence
  | .fault _ => s.allGrants.resetSequence
  | .refused _ => s.allGrants.resetSequence

/-- The outputs BA and BS in a run state (60_exceptions.md R428, Table 3); the wait state and RES low have no code (log
15). -/
def State.busStatus (s : State) : Bool × Bool :=
  match s.run with
  | .running => (false, false)
  | .sync => (true, false)
  | .halted => busGrantCode
  | .busGrant => busGrantCode
  | .wait => Config.waitBusStatus
  | .reset => Config.resetBusStatus

/-- The outputs BA and BS of the last step, in order: the codes it showed on its way (a grant inside an instruction, the
acknowledge of a vector fetch), then the code of the run state it left (60_exceptions.md R428, R429; log 15). -/
def State.busCodes (s : State) : List (Bool × Bool) := s.shown ++ [s.busStatus]

end Sys2Proof.Machine
end

