-- ==== Sys2Proof/Machine/Operands.lean ====
section
/-! DEFINITION. Every operand form: registers by name, effective addresses, source operands (40_addressing_modes.md). -/

namespace Sys2Proof.Machine

/-- The accumulators as operands. -/
inductive Acc where
  | a | b
  deriving DecidableEq, Repr

/-- An accumulator's value. -/
def State.acc (s : State) : Acc → Byte
  | .a => s.A
  | .b => s.B

/-- An accumulator written. -/
def State.setAcc (s : State) (r : Acc) (v : Byte) : State :=
  match r with
  | .a => s.setA v
  | .b => s.setB v

/-- A pointer register's value (40_addressing_modes.md R138). -/
def State.ptr (s : State) : Ptr → Word
  | .x => s.X
  | .y => s.Y
  | .u => s.U
  | .s => s.S

/-- A pointer register moved by the addressing mode; this does not arm NMI (92_eei_decisions.md D6). -/
def State.setPtr (s : State) (r : Ptr) (v : Word) : State :=
  match r with
  | .x => s.setX v
  | .y => s.setY v
  | .u => s.setU v
  | .s => s.setS v

/-- The last step of `IndexedEA`: the address before any indirection is in `temp`, and an indirect form reads the
pointer there (40_addressing_modes.md R137, R151). -/
def State.finishEA (s : State) (ea : Word) (ind : Bool) : Word × State :=
  if ind then (s.setTemp ea).busReadWord ea else (ea, s.setTemp ea)

/-- `IndexedEA` (40_addressing_modes.md R137): the effective address and the state after the pointer register is
moved. PC holds the address of the next instruction (R155). -/
def State.indexedEA (s : State) : Indexed → Word × State
  | .off5 r n => s.finishEA (s.ptr r + sext5 n) false
  | .inc1 r => (s.setPtr r (s.ptr r + 1)).finishEA (s.ptr r) false
  | .inc2 r ind => (s.setPtr r (s.ptr r + 2)).finishEA (s.ptr r) ind
  | .dec1 r => (s.setPtr r (s.ptr r - 1)).finishEA (s.ptr r - 1) false
  | .dec2 r ind => (s.setPtr r (s.ptr r - 2)).finishEA (s.ptr r - 2) ind
  | .zero r ind => s.finishEA (s.ptr r) ind
  | .offB r ind => s.finishEA (s.ptr r + sext8 s.B) ind
  | .offA r ind => s.finishEA (s.ptr r + sext8 s.A) ind
  | .off8 r n ind => s.finishEA (s.ptr r + sext8 n) ind
  | .off16 r n ind => s.finishEA (s.ptr r + n) ind
  | .offD r ind => s.finishEA (s.ptr r + s.D) ind
  | .pcr8 n ind => s.finishEA (s.PC + sext8 n) ind
  | .pcr16 n ind => s.finishEA (s.PC + n) ind
  | .extInd p => s.finishEA p true

/-- The effective address of a memory operand and the state after its address is computed: direct
(40_addressing_modes.md R133), indexed (R137), extended (R134). -/
def State.resolve (s : State) : Mem → Word × State
  | .dir dd => s.finishEA (joinBytes s.DP dd) false
  | .idx x => s.indexedEA x
  | .ext a => s.finishEA a false

/-- The operand `M` and the state after it is read (00_scope.md R8, 41_8bit_accumulator_memory.md R170). -/
def State.operand8 (s : State) : Src8 → Byte × State
  | .imm m => (m, s)
  | .mem o => (s.resolve o).2.busRead (s.resolve o).1

/-- The operand `M16` and the state after it is read (42_16bit_accumulator_memory.md R250). -/
def State.operand16 (s : State) : Src16 → Word × State
  | .imm m => (m, s)
  | .mem o => (s.resolve o).2.busReadWord (s.resolve o).1

end Sys2Proof.Machine
end

