-- ==== Sys2Proof/Machine/Acc8.lean ====
section
/-! DEFINITION. The 8-bit accumulator and memory instructions (41_8bit_accumulator_memory.md). -/

namespace Sys2Proof.Machine

/-! Shared operations. -/

/-- ADD and ADC on an accumulator: the operand is read, then the sum and H, N, Z, V, C written (R171, R173, R175). -/
def State.addAcc (s : State) (r : Acc) (o : Src8) (withCarry : Bool) : State :=
  let m := (s.operand8 o).1
  let s := (s.operand8 o).2
  let x := add8 (s.acc r) m (withCarry && s.flag .C)
  (s.setAcc r x.r).setCC (arithFlags8 s.CC x)

/-- The difference of an accumulator and an operand, with the borrow where it takes part (R171). -/
def State.diffAcc (s : State) (r : Acc) (m : Byte) (withBorrow : Bool) : Sum8 :=
  sub8 (s.acc r) m (withBorrow && s.flag .C) s.undefFlag

/-- SUB and SBC on an accumulator (R171, R222, R226). -/
def State.subAcc (s : State) (r : Acc) (o : Src8) (withBorrow : Bool) : State :=
  let m := (s.operand8 o).1
  let s := (s.operand8 o).2
  let x := s.diffAcc r m withBorrow
  (s.setAcc r x.r).setCC (arithFlags8 s.CC x)

/-- CMP: the flags of a subtraction, the accumulator kept (R190). -/
def State.cmpAcc (s : State) (r : Acc) (o : Src8) : State :=
  let m := (s.operand8 o).1
  let s := (s.operand8 o).2
  s.setCC (arithFlags8 s.CC (s.diffAcc r m false))

/-- An accumulator written with a value made of itself and the operand, N and Z from it, V = 0: AND, OR, EOR, LD
(R177, R199, R204, R214). -/
def State.moveAcc (s : State) (r : Acc) (o : Src8) (f : Byte → Byte → Byte) : State :=
  let m := (s.operand8 o).1
  let s := (s.operand8 o).2
  let v := f (s.acc r) m
  (s.setAcc r v).setCC (moveFlags8 s.CC v)

/-- BIT: the flags of AND, the accumulator kept (R185). -/
def State.bitAcc (s : State) (r : Acc) (o : Src8) : State :=
  let m := (s.operand8 o).1
  let s := (s.operand8 o).2
  s.setCC (moveFlags8 s.CC (s.acc r &&& m))

/-- ST: the accumulator as it is after the address is computed goes to memory (R224, 40_addressing_modes.md R162). -/
def State.storeAcc (s : State) (r : Acc) (o : Mem) : State :=
  let ea := (s.resolve o).1
  let s := (s.resolve o).2
  (s.busWrite ea (s.acc r)).setCC (moveFlags8 s.CC (s.acc r))

/-- The read-modify-write template on memory (R172): one read, one write, of one address, divisible between the two
(20_memory.md R72, R78). -/
def State.rmwMem (s : State) (f : Byte → Byte → Bool → Byte × Byte) (o : Mem) : State :=
  let ea := (s.resolve o).1
  let s := (s.resolve o).2.grant
  let y := f (s.readByte ea) s.CC s.undefFlag
  (s.busWrite ea y.1).setCC y.2

/-- The same operation on an accumulator (R180). -/
def State.rmwAcc (s : State) (f : Byte → Byte → Bool → Byte × Byte) (r : Acc) : State :=
  let y := f (s.acc r) s.CC s.undefFlag
  (s.setAcc r y.1).setCC y.2

/-! One meaning an instruction. -/

/-- ADCA: add memory and carry to A (R173). -/
def execAdca (o : Src8) (s : State) : Host.Outcome State Fault Refusal := .next (s.addAcc .a o true)

/-- ADCB: add memory and carry to B (R174). -/
def execAdcb (o : Src8) (s : State) : Host.Outcome State Fault Refusal := .next (s.addAcc .b o true)

/-- ADDA: add memory to A (R175). -/
def execAdda (o : Src8) (s : State) : Host.Outcome State Fault Refusal := .next (s.addAcc .a o false)

/-- ADDB: add memory to B (R176). -/
def execAddb (o : Src8) (s : State) : Host.Outcome State Fault Refusal := .next (s.addAcc .b o false)

/-- ANDA: logical AND memory with A (R177). -/
def execAnda (o : Src8) (s : State) : Host.Outcome State Fault Refusal := .next (s.moveAcc .a o (fun v m => v &&& m))

/-- ANDB: logical AND memory with B (R178). -/
def execAndb (o : Src8) (s : State) : Host.Outcome State Fault Refusal := .next (s.moveAcc .b o (fun v m => v &&& m))

/-- BITA: bit test A with memory (R185). -/
def execBita (o : Src8) (s : State) : Host.Outcome State Fault Refusal := .next (s.bitAcc .a o)

/-- BITB: bit test B with memory (R186). -/
def execBitb (o : Src8) (s : State) : Host.Outcome State Fault Refusal := .next (s.bitAcc .b o)

/-- CMPA: compare memory from A (R190). -/
def execCmpa (o : Src8) (s : State) : Host.Outcome State Fault Refusal := .next (s.cmpAcc .a o)

/-- CMPB: compare memory from B (R191). -/
def execCmpb (o : Src8) (s : State) : Host.Outcome State Fault Refusal := .next (s.cmpAcc .b o)

/-- EORA: exclusive OR memory with A (R199). -/
def execEora (o : Src8) (s : State) : Host.Outcome State Fault Refusal := .next (s.moveAcc .a o (fun v m => v ^^^ m))

/-- EORB: exclusive OR memory with B (R200). -/
def execEorb (o : Src8) (s : State) : Host.Outcome State Fault Refusal := .next (s.moveAcc .b o (fun v m => v ^^^ m))

/-- LDA: load A from memory (R204). -/
def execLda (o : Src8) (s : State) : Host.Outcome State Fault Refusal := .next (s.moveAcc .a o (fun _ m => m))

/-- LDB: load B from memory (R205). -/
def execLdb (o : Src8) (s : State) : Host.Outcome State Fault Refusal := .next (s.moveAcc .b o (fun _ m => m))

/-- ORA: inclusive OR memory with A (R214). -/
def execOra (o : Src8) (s : State) : Host.Outcome State Fault Refusal := .next (s.moveAcc .a o (fun v m => v ||| m))

/-- ORB: inclusive OR memory with B (R215). -/
def execOrb (o : Src8) (s : State) : Host.Outcome State Fault Refusal := .next (s.moveAcc .b o (fun v m => v ||| m))

/-- SBCA: subtract memory and borrow from A (R222). -/
def execSbca (o : Src8) (s : State) : Host.Outcome State Fault Refusal := .next (s.subAcc .a o true)

/-- SBCB: subtract memory and borrow from B (R223). -/
def execSbcb (o : Src8) (s : State) : Host.Outcome State Fault Refusal := .next (s.subAcc .b o true)

/-- SUBA: subtract memory from A (R226). -/
def execSuba (o : Src8) (s : State) : Host.Outcome State Fault Refusal := .next (s.subAcc .a o false)

/-- SUBB: subtract memory from B (R227). -/
def execSubb (o : Src8) (s : State) : Host.Outcome State Fault Refusal := .next (s.subAcc .b o false)

/-- STA: store A to memory (R224). -/
def execSta (o : Mem) (s : State) : Host.Outcome State Fault Refusal := .next (s.storeAcc .a o)

/-- STB: store B to memory (R225). -/
def execStb (o : Mem) (s : State) : Host.Outcome State Fault Refusal := .next (s.storeAcc .b o)

/-- ASL: arithmetic shift left, memory (R179). -/
def execAsl (o : Mem) (s : State) : Host.Outcome State Fault Refusal := .next (s.rmwMem aslByte o)

/-- ASLA: arithmetic shift left, A (R180). -/
def execAsla (s : State) : Host.Outcome State Fault Refusal := .next (s.rmwAcc aslByte .a)

/-- ASLB: arithmetic shift left, B (R181). -/
def execAslb (s : State) : Host.Outcome State Fault Refusal := .next (s.rmwAcc aslByte .b)

/-- ASR: arithmetic shift right, memory (R182). -/
def execAsr (o : Mem) (s : State) : Host.Outcome State Fault Refusal := .next (s.rmwMem asrByte o)

/-- ASRA: arithmetic shift right, A (R183). -/
def execAsra (s : State) : Host.Outcome State Fault Refusal := .next (s.rmwAcc asrByte .a)

/-- ASRB: arithmetic shift right, B (R184). -/
def execAsrb (s : State) : Host.Outcome State Fault Refusal := .next (s.rmwAcc asrByte .b)

/-- CLR: clear; the memory form reads the byte first, memory (R187). -/
def execClr (o : Mem) (s : State) : Host.Outcome State Fault Refusal := .next (s.rmwMem clrByte o)

/-- CLRA: clear, A (R188). -/
def execClra (s : State) : Host.Outcome State Fault Refusal := .next (s.rmwAcc clrByte .a)

/-- CLRB: clear, B (R189). -/
def execClrb (s : State) : Host.Outcome State Fault Refusal := .next (s.rmwAcc clrByte .b)

/-- COM: complement, memory (R192). -/
def execCom (o : Mem) (s : State) : Host.Outcome State Fault Refusal := .next (s.rmwMem comByte o)

/-- COMA: complement, A (R193). -/
def execComa (s : State) : Host.Outcome State Fault Refusal := .next (s.rmwAcc comByte .a)

/-- COMB: complement, B (R194). -/
def execComb (s : State) : Host.Outcome State Fault Refusal := .next (s.rmwAcc comByte .b)

/-- DEC: decrement, memory (R196). -/
def execDec (o : Mem) (s : State) : Host.Outcome State Fault Refusal := .next (s.rmwMem decByte o)

/-- DECA: decrement, A (R197). -/
def execDeca (s : State) : Host.Outcome State Fault Refusal := .next (s.rmwAcc decByte .a)

/-- DECB: decrement, B (R198). -/
def execDecb (s : State) : Host.Outcome State Fault Refusal := .next (s.rmwAcc decByte .b)

/-- INC: increment, memory (R201). -/
def execInc (o : Mem) (s : State) : Host.Outcome State Fault Refusal := .next (s.rmwMem incByte o)

/-- INCA: increment, A (R202). -/
def execInca (s : State) : Host.Outcome State Fault Refusal := .next (s.rmwAcc incByte .a)

/-- INCB: increment, B (R203). -/
def execIncb (s : State) : Host.Outcome State Fault Refusal := .next (s.rmwAcc incByte .b)

/-- LSR: logical shift right, memory (R207). -/
def execLsr (o : Mem) (s : State) : Host.Outcome State Fault Refusal := .next (s.rmwMem lsrByte o)

/-- LSRA: logical shift right, A (R208). -/
def execLsra (s : State) : Host.Outcome State Fault Refusal := .next (s.rmwAcc lsrByte .a)

/-- LSRB: logical shift right, B (R209). -/
def execLsrb (s : State) : Host.Outcome State Fault Refusal := .next (s.rmwAcc lsrByte .b)

/-- NEG: negate, memory (R211). -/
def execNeg (o : Mem) (s : State) : Host.Outcome State Fault Refusal := .next (s.rmwMem negByte o)

/-- NEGA: negate, A (R212). -/
def execNega (s : State) : Host.Outcome State Fault Refusal := .next (s.rmwAcc negByte .a)

/-- NEGB: negate, B (R213). -/
def execNegb (s : State) : Host.Outcome State Fault Refusal := .next (s.rmwAcc negByte .b)

/-- ROL: rotate left through carry, memory (R216). -/
def execRol (o : Mem) (s : State) : Host.Outcome State Fault Refusal := .next (s.rmwMem rolByte o)

/-- ROLA: rotate left through carry, A (R217). -/
def execRola (s : State) : Host.Outcome State Fault Refusal := .next (s.rmwAcc rolByte .a)

/-- ROLB: rotate left through carry, B (R218). -/
def execRolb (s : State) : Host.Outcome State Fault Refusal := .next (s.rmwAcc rolByte .b)

/-- ROR: rotate right through carry, memory (R219). -/
def execRor (o : Mem) (s : State) : Host.Outcome State Fault Refusal := .next (s.rmwMem rorByte o)

/-- RORA: rotate right through carry, A (R220). -/
def execRora (s : State) : Host.Outcome State Fault Refusal := .next (s.rmwAcc rorByte .a)

/-- RORB: rotate right through carry, B (R221). -/
def execRorb (s : State) : Host.Outcome State Fault Refusal := .next (s.rmwAcc rorByte .b)

/-- TST: test memory, which is read and not written (R228). -/
def execTst (o : Mem) (s : State) : Host.Outcome State Fault Refusal :=
  let ea := (s.resolve o).1
  let s := (s.resolve o).2.grant
  .next (s.setCC (moveFlags8 s.CC (s.readByte ea)))

/-- TSTA: test A (R229). -/
def execTsta (s : State) : Host.Outcome State Fault Refusal := .next (s.setCC (moveFlags8 s.CC s.A))

/-- TSTB: test B (R230). -/
def execTstb (s : State) : Host.Outcome State Fault Refusal := .next (s.setCC (moveFlags8 s.CC s.B))

/-- DAA: decimal adjust A (R195). -/
def execDaa (s : State) : Host.Outcome State Fault Refusal := .next (s.rmwAcc daaByte .a)

/-- MUL: unsigned multiply, A times B into D (R210). -/
def execMul (s : State) : Host.Outcome State Fault Refusal :=
  let y := mulBytes s.A s.B s.CC
  .next ((s.setD y.1).setCC y.2)

end Sys2Proof.Machine
end

