-- ==== Sys2Proof/Machine/Branch.lean ====
section
/-! DEFINITION. The branch instructions (44_branches.md). -/

namespace Sys2Proof.Machine

/-! Shared operations. -/

/-- A branch: PC, the address of the next instruction, moves by the offset if the condition holds (R310). -/
def State.branch (s : State) (c : Cond) (d : Word) : State := if c.holds s.CC then s.setPC (s.PC + d) else s

/-- A branch to subroutine: the return address is pushed, then PC moves by the offset (R328, R345). -/
def State.branchSub (s : State) (d : Word) : State := (s.push16 .s s.PC).setPC (s.PC + d)

/-! One meaning an instruction. -/

/-- BRA: branch always (R312). -/
def execBra (d : Byte) (s : State) : Host.Outcome State Fault Refusal := .next (s.branch .ra (sext8 d))

/-- BRN: branch never (R313). -/
def execBrn (d : Byte) (s : State) : Host.Outcome State Fault Refusal := .next (s.branch .rn (sext8 d))

/-- BHI: branch if higher (R314). -/
def execBhi (d : Byte) (s : State) : Host.Outcome State Fault Refusal := .next (s.branch .hi (sext8 d))

/-- BLS: branch if lower or same (R315). -/
def execBls (d : Byte) (s : State) : Host.Outcome State Fault Refusal := .next (s.branch .ls (sext8 d))

/-- BHS: branch if higher or same (R316). -/
def execBhs (d : Byte) (s : State) : Host.Outcome State Fault Refusal := .next (s.branch .hs (sext8 d))

/-- BLO: branch if lower (R317). -/
def execBlo (d : Byte) (s : State) : Host.Outcome State Fault Refusal := .next (s.branch .lo (sext8 d))

/-- BNE: branch if not equal (R318). -/
def execBne (d : Byte) (s : State) : Host.Outcome State Fault Refusal := .next (s.branch .ne (sext8 d))

/-- BEQ: branch if equal (R319). -/
def execBeq (d : Byte) (s : State) : Host.Outcome State Fault Refusal := .next (s.branch .eq (sext8 d))

/-- BVC: branch if overflow clear (R320). -/
def execBvc (d : Byte) (s : State) : Host.Outcome State Fault Refusal := .next (s.branch .vc (sext8 d))

/-- BVS: branch if overflow set (R321). -/
def execBvs (d : Byte) (s : State) : Host.Outcome State Fault Refusal := .next (s.branch .vs (sext8 d))

/-- BPL: branch if plus (R322). -/
def execBpl (d : Byte) (s : State) : Host.Outcome State Fault Refusal := .next (s.branch .pl (sext8 d))

/-- BMI: branch if minus (R323). -/
def execBmi (d : Byte) (s : State) : Host.Outcome State Fault Refusal := .next (s.branch .mi (sext8 d))

/-- BGE: branch if greater than or equal (R324). -/
def execBge (d : Byte) (s : State) : Host.Outcome State Fault Refusal := .next (s.branch .ge (sext8 d))

/-- BLT: branch if less than (R325). -/
def execBlt (d : Byte) (s : State) : Host.Outcome State Fault Refusal := .next (s.branch .lt (sext8 d))

/-- BGT: branch if greater (R326). -/
def execBgt (d : Byte) (s : State) : Host.Outcome State Fault Refusal := .next (s.branch .gt (sext8 d))

/-- BLE: branch if less than or equal (R327). -/
def execBle (d : Byte) (s : State) : Host.Outcome State Fault Refusal := .next (s.branch .le (sext8 d))

/-- BSR: branch to subroutine (R328). -/
def execBsr (d : Byte) (s : State) : Host.Outcome State Fault Refusal := .next (s.branchSub (sext8 d))

/-- LBRA: long branch always (R329). -/
def execLbra (d : Word) (s : State) : Host.Outcome State Fault Refusal := .next (s.branch .ra d)

/-- LBRN: long branch never (R330). -/
def execLbrn (d : Word) (s : State) : Host.Outcome State Fault Refusal := .next (s.branch .rn d)

/-- LBHI: long branch if higher (R331). -/
def execLbhi (d : Word) (s : State) : Host.Outcome State Fault Refusal := .next (s.branch .hi d)

/-- LBLS: long branch if lower or same (R332). -/
def execLbls (d : Word) (s : State) : Host.Outcome State Fault Refusal := .next (s.branch .ls d)

/-- LBHS: long branch if higher or same (R333). -/
def execLbhs (d : Word) (s : State) : Host.Outcome State Fault Refusal := .next (s.branch .hs d)

/-- LBLO: long branch if lower (R334). -/
def execLblo (d : Word) (s : State) : Host.Outcome State Fault Refusal := .next (s.branch .lo d)

/-- LBNE: long branch if not equal (R335). -/
def execLbne (d : Word) (s : State) : Host.Outcome State Fault Refusal := .next (s.branch .ne d)

/-- LBEQ: long branch if equal (R336). -/
def execLbeq (d : Word) (s : State) : Host.Outcome State Fault Refusal := .next (s.branch .eq d)

/-- LBVC: long branch if overflow clear (R337). -/
def execLbvc (d : Word) (s : State) : Host.Outcome State Fault Refusal := .next (s.branch .vc d)

/-- LBVS: long branch if overflow set (R338). -/
def execLbvs (d : Word) (s : State) : Host.Outcome State Fault Refusal := .next (s.branch .vs d)

/-- LBPL: long branch if plus (R339). -/
def execLbpl (d : Word) (s : State) : Host.Outcome State Fault Refusal := .next (s.branch .pl d)

/-- LBMI: long branch if minus (R340). -/
def execLbmi (d : Word) (s : State) : Host.Outcome State Fault Refusal := .next (s.branch .mi d)

/-- LBGE: long branch if greater than or equal (R341). -/
def execLbge (d : Word) (s : State) : Host.Outcome State Fault Refusal := .next (s.branch .ge d)

/-- LBLT: long branch if less than (R342). -/
def execLblt (d : Word) (s : State) : Host.Outcome State Fault Refusal := .next (s.branch .lt d)

/-- LBGT: long branch if greater (R343). -/
def execLbgt (d : Word) (s : State) : Host.Outcome State Fault Refusal := .next (s.branch .gt d)

/-- LBLE: long branch if less than or equal (R344). -/
def execLble (d : Word) (s : State) : Host.Outcome State Fault Refusal := .next (s.branch .le d)

/-- LBSR: long branch to subroutine (R345). -/
def execLbsr (d : Word) (s : State) : Host.Outcome State Fault Refusal := .next (s.branchSub d)

end Sys2Proof.Machine
end

