-- ==== Sys2Proof/Machine/Acc16.lean ====
section
/-! DEFINITION. The 16-bit accumulator and memory instructions (42_16bit_accumulator_memory.md), and the 16-bit compares,
loads and stores that 43_index_stack.md shares with them. -/

namespace Sys2Proof.Machine

/-! Shared operations. -/

/-- CMP on a 16-bit register: the flags of a subtraction, the register kept (R253, R271). The register is read after
the operand (40_addressing_modes.md R162). -/
def State.cmp16 (s : State) (r : Reg16) (o : Src16) : State :=
  let m := (s.operand16 o).1
  let s := (s.operand16 o).2
  s.setCC (arithFlags16 s.CC (sub16 (s.reg16 r) m))

/-- LD on a 16-bit register: N and Z from the value, V = 0; a load of S arms NMI (R254, R275). -/
def State.load16 (s : State) (r : Reg16) (o : Src16) : State :=
  let m := (s.operand16 o).1
  let s := (s.operand16 o).2
  (s.loadReg16 r m).setCC (moveFlags16 s.CC m)

/-- ST on a 16-bit register: the register as it is after the address is computed, its high byte at EA (R256, R291;
40_addressing_modes.md R150, R162). -/
def State.store16 (s : State) (r : Reg16) (o : Mem) : State :=
  let ea := (s.resolve o).1
  let s := (s.resolve o).2
  (s.busWriteWord ea (s.reg16 r)).setCC (moveFlags16 s.CC (s.reg16 r))

/-- ADDD and SUBD: D and N, Z, V, C written, H kept (R251, R252, R257). -/
def State.arithD (s : State) (o : Src16) (f : Word → Word → Sum16) : State :=
  let m := (s.operand16 o).1
  let s := (s.operand16 o).2
  let x := f s.D m
  (s.setD x.r).setCC (arithFlags16 s.CC x)

/-! One meaning an instruction. -/

/-- ADDD: add memory to D (R252). -/
def execAddd (o : Src16) (s : State) : Host.Outcome State Fault Refusal := .next (s.arithD o add16)

/-- CMPD: compare memory from D (R253). -/
def execCmpd (o : Src16) (s : State) : Host.Outcome State Fault Refusal := .next (s.cmp16 .d o)

/-- LDD: load D from memory (R254). -/
def execLdd (o : Src16) (s : State) : Host.Outcome State Fault Refusal := .next (s.load16 .d o)

/-- SUBD: subtract memory from D (R257). -/
def execSubd (o : Src16) (s : State) : Host.Outcome State Fault Refusal := .next (s.arithD o sub16)

/-- STD: store D to memory (R256). -/
def execStd (o : Mem) (s : State) : Host.Outcome State Fault Refusal := .next (s.store16 .d o)

/-- SEX: sign extend B into A (R255). -/
def execSex (s : State) : Host.Outcome State Fault Refusal :=
  let y := sexByte s.B s.CC s.undefFlag
  .next ((s.setA y.1).setCC y.2)

end Sys2Proof.Machine
end

