-- ==== Sys2Proof/Machine/IndexStack.lean ====
section
/-! DEFINITION. The index register and stack pointer instructions (43_index_stack.md), with TFR and EXG of every width. -/

namespace Sys2Proof.Machine

/-! Shared operations. -/

/-- LEA into S or U: the effective address is loaded, no flag written (R279, R280). The load comes last and wins over the
mode's own move of the same register (R281). -/
def State.lea (s : State) (r : Reg16) (o : Indexed) : State :=
  let ea := (s.indexedEA o).1
  let s := (s.indexedEA o).2
  s.loadReg16 r ea

/-- LEA into X or Y: the same with Z from the address loaded (R282, R283). -/
def State.leaZ (s : State) (r : Reg16) (o : Indexed) : State :=
  let ea := (s.indexedEA o).1
  (s.lea r o).setFlag .Z (ea == 0)

/-- A push of a byte if it is listed. -/
def State.push8If (s : State) (k : Stack) (listed : Bool) (v : Byte) : State := if listed then s.push8 k v else s

/-- A push of a word if it is listed. -/
def State.push16If (s : State) (k : Stack) (listed : Bool) (v : Word) : State := if listed then s.push16 k v else s

/-- The stack pointer that postbyte bit 6 names: the other one (30_encoding.md R106). -/
def Stack.other : Stack → Reg16
  | .s => .u
  | .u => .s

/-- PSH on a stack: the listed registers in the order PC, U or S, Y, X, DP, B, A, CC (R286, R287). None of them is the
pointer that moves. -/
def State.pushList (s : State) (k : Stack) (l : RegList) : State :=
  (((((((s.push16If k l.pc s.PC).push16If k l.us (s.reg16 k.other)).push16If k l.y s.Y).push16If k l.x s.X).push8If k
    l.dp s.DP).push8If k l.b s.B).push8If k l.a s.A).push8If k l.cc s.CC

/-- A pull of a byte register if it is listed (R289). -/
def State.pull8If (s : State) (k : Stack) (listed : Bool) (r : Reg8) : State := if listed then s.pull8 k r else s

/-- A pull of a word register if it is listed (R289, R290). -/
def State.pull16If (s : State) (k : Stack) (listed : Bool) (r : Reg16) : State := if listed then s.pull16 k r else s

/-- PUL from a stack: the listed registers in the order CC, A, B, DP, X, Y, U or S, PC (R286, R289). -/
def State.pullList (s : State) (k : Stack) (l : RegList) : State :=
  (((((((s.pull8If k l.cc .cc).pull8If k l.a .a).pull8If k l.b .b).pull8If k l.dp .dp).pull16If k l.x .x).pull16If k
    l.y .y).pull16If k l.us k.other).pull16If k l.pc .pc

/-- TFR: source into destination, of like width (R295, R297). -/
def State.transfer (s : State) (r1 r2 : Reg) : Host.Outcome State Fault Refusal :=
  match r1, r2 with
  | .r8 src, .r8 dst => .next (s.setReg8 dst (s.reg8 src))
  | .r16 src, .r16 dst => .next (s.loadReg16 dst (s.reg16 src))
  | .r8 _, .r16 _ => .fault (.undefinedPostbyte s)
  | .r16 _, .r8 _ => .fault (.undefinedPostbyte s)

/-- EXG: both registers are read before either is written (R295, R296). -/
def State.exchange (s : State) (r1 r2 : Reg) : Host.Outcome State Fault Refusal :=
  match r1, r2 with
  | .r8 p, .r8 q => .next ((s.setReg8 p (s.reg8 q)).setReg8 q (s.reg8 p))
  | .r16 p, .r16 q => .next ((s.loadReg16 p (s.reg16 q)).loadReg16 q (s.reg16 p))
  | .r8 _, .r16 _ => .fault (.undefinedPostbyte s)
  | .r16 _, .r8 _ => .fault (.undefinedPostbyte s)

/-! One meaning an instruction. -/

/-- CMPS: compare memory from S (R271). -/
def execCmps (o : Src16) (s : State) : Host.Outcome State Fault Refusal := .next (s.cmp16 .s o)

/-- LDS: load S from memory (R275). -/
def execLds (o : Src16) (s : State) : Host.Outcome State Fault Refusal := .next (s.load16 .s o)

/-- STS: store S to memory (R291). -/
def execSts (o : Mem) (s : State) : Host.Outcome State Fault Refusal := .next (s.store16 .s o)

/-- CMPU: compare memory from U (R272). -/
def execCmpu (o : Src16) (s : State) : Host.Outcome State Fault Refusal := .next (s.cmp16 .u o)

/-- LDU: load U from memory (R276). -/
def execLdu (o : Src16) (s : State) : Host.Outcome State Fault Refusal := .next (s.load16 .u o)

/-- STU: store U to memory (R292). -/
def execStu (o : Mem) (s : State) : Host.Outcome State Fault Refusal := .next (s.store16 .u o)

/-- CMPX: compare memory from X (R273). -/
def execCmpx (o : Src16) (s : State) : Host.Outcome State Fault Refusal := .next (s.cmp16 .x o)

/-- LDX: load X from memory (R277). -/
def execLdx (o : Src16) (s : State) : Host.Outcome State Fault Refusal := .next (s.load16 .x o)

/-- STX: store X to memory (R293). -/
def execStx (o : Mem) (s : State) : Host.Outcome State Fault Refusal := .next (s.store16 .x o)

/-- CMPY: compare memory from Y (R274). -/
def execCmpy (o : Src16) (s : State) : Host.Outcome State Fault Refusal := .next (s.cmp16 .y o)

/-- LDY: load Y from memory (R278). -/
def execLdy (o : Src16) (s : State) : Host.Outcome State Fault Refusal := .next (s.load16 .y o)

/-- STY: store Y to memory (R294). -/
def execSty (o : Mem) (s : State) : Host.Outcome State Fault Refusal := .next (s.store16 .y o)

/-- LEAS: load effective address into S (R279). -/
def execLeas (o : Indexed) (s : State) : Host.Outcome State Fault Refusal := .next (s.lea .s o)

/-- LEAU: load effective address into U (R280). -/
def execLeau (o : Indexed) (s : State) : Host.Outcome State Fault Refusal := .next (s.lea .u o)

/-- LEAX: load effective address into X (R282). -/
def execLeax (o : Indexed) (s : State) : Host.Outcome State Fault Refusal := .next (s.leaZ .x o)

/-- LEAY: load effective address into Y (R283). -/
def execLeay (o : Indexed) (s : State) : Host.Outcome State Fault Refusal := .next (s.leaZ .y o)

/-- PSHS: push registers on the hardware stack (R287). -/
def execPshs (l : RegList) (s : State) : Host.Outcome State Fault Refusal := .next (s.pushList .s l)

/-- PSHU: push registers on the user stack (R288). -/
def execPshu (l : RegList) (s : State) : Host.Outcome State Fault Refusal := .next (s.pushList .u l)

/-- PULS: pull registers from the hardware stack (R289). -/
def execPuls (l : RegList) (s : State) : Host.Outcome State Fault Refusal := .next (s.pullList .s l)

/-- PULU: pull registers from the user stack (R290). -/
def execPulu (l : RegList) (s : State) : Host.Outcome State Fault Refusal := .next (s.pullList .u l)

/-- EXG: exchange registers (R296). -/
def execExg (r1 r2 : Reg) (s : State) : Host.Outcome State Fault Refusal := s.exchange r1 r2

/-- TFR: transfer register to register (R297). -/
def execTfr (r1 r2 : Reg) (s : State) : Host.Outcome State Fault Refusal := s.transfer r1 r2

/-- ABX: add B to X, unsigned (R298). -/
def execAbx (s : State) : Host.Outcome State Fault Refusal := .next (s.setX (s.X + zext8 s.B))

end Sys2Proof.Machine
end

