-- ==== Sys2Proof/Machine/Misc.lean ====
section
/-! DEFINITION. The miscellaneous instructions (45_miscellaneous.md). -/

namespace Sys2Proof.Machine

/-- ANDCC: AND immediate into CC (R361). -/
def execAndcc (m : Byte) (s : State) : Host.Outcome State Fault Refusal := .next (s.setCC (s.CC &&& m))

/-- ORCC: OR immediate into CC (R364). -/
def execOrcc (m : Byte) (s : State) : Host.Outcome State Fault Refusal := .next (s.setCC (s.CC ||| m))

/-- CWAI: AND immediate into CC, set E, stack the entire state, wait for an interrupt (R362). -/
def execCwai (m : Byte) (s : State) : Host.Outcome State Fault Refusal :=
  .next (((s.setCC (s.CC &&& m)).setFlag .E true).stackEntire.setRun .wait)

/-- NOP: only PC has advanced (R363). -/
def execNop (s : State) : Host.Outcome State Fault Refusal := .next s

/-- JMP: the effective address becomes PC (R365). -/
def execJmp (o : Mem) (s : State) : Host.Outcome State Fault Refusal :=
  .next ((s.resolve o).2.setPC (s.resolve o).1)

/-- JSR: the effective address is computed, the return address pushed, PC loaded (R366). -/
def execJsr (o : Mem) (s : State) : Host.Outcome State Fault Refusal :=
  let ea := (s.resolve o).1
  let s := (s.resolve o).2
  .next ((s.push16 .s s.PC).setPC ea)

/-- RTI: return from interrupt (R367). -/
def execRti (s : State) : Host.Outcome State Fault Refusal := .next s.returnFromInterrupt

/-- RTS: return from subroutine (R368). -/
def execRts (s : State) : Host.Outcome State Fault Refusal := .next (s.pull16 .s .pc)

/-- SWI: software interrupt (R369, 60_exceptions.md R406). -/
def execSwi (s : State) : Host.Outcome State Fault Refusal := .next (s.interrupt .swi)

/-- SWI2: software interrupt 2 (R370, 60_exceptions.md R407). -/
def execSwi2 (s : State) : Host.Outcome State Fault Refusal := .next (s.interrupt .swi2)

/-- SWI3: software interrupt 3 (R371, 60_exceptions.md R408). -/
def execSwi3 (s : State) : Host.Outcome State Fault Refusal := .next (s.interrupt .swi3)

/-- SYNC: the sync state is entered, nothing is stacked (R372, 60_exceptions.md R412). -/
def execSync (s : State) : Host.Outcome State Fault Refusal := .next (s.setRun .sync)

end Sys2Proof.Machine
end

