-- ==== Sys2Proof/Machine/Dispatch.lean ====
section
/-! DEFINITION. One arm per instruction, each calling its meaning. -/

namespace Sys2Proof.Machine

/-- The meaning of an instruction in a state whose PC is the address after it (10_state.md R26). -/
def exec (i : Instr) (s : State) : Host.Outcome State Fault Refusal :=
  match i with
  | .adca o => Sys2Proof.Machine.execAdca o s
  | .adcb o => Sys2Proof.Machine.execAdcb o s
  | .adda o => Sys2Proof.Machine.execAdda o s
  | .addb o => Sys2Proof.Machine.execAddb o s
  | .anda o => Sys2Proof.Machine.execAnda o s
  | .andb o => Sys2Proof.Machine.execAndb o s
  | .bita o => Sys2Proof.Machine.execBita o s
  | .bitb o => Sys2Proof.Machine.execBitb o s
  | .cmpa o => Sys2Proof.Machine.execCmpa o s
  | .cmpb o => Sys2Proof.Machine.execCmpb o s
  | .eora o => Sys2Proof.Machine.execEora o s
  | .eorb o => Sys2Proof.Machine.execEorb o s
  | .lda o => Sys2Proof.Machine.execLda o s
  | .ldb o => Sys2Proof.Machine.execLdb o s
  | .ora o => Sys2Proof.Machine.execOra o s
  | .orb o => Sys2Proof.Machine.execOrb o s
  | .sbca o => Sys2Proof.Machine.execSbca o s
  | .sbcb o => Sys2Proof.Machine.execSbcb o s
  | .suba o => Sys2Proof.Machine.execSuba o s
  | .subb o => Sys2Proof.Machine.execSubb o s
  | .sta o => Sys2Proof.Machine.execSta o s
  | .stb o => Sys2Proof.Machine.execStb o s
  | .asl o => Sys2Proof.Machine.execAsl o s
  | .asla => Sys2Proof.Machine.execAsla s
  | .aslb => Sys2Proof.Machine.execAslb s
  | .asr o => Sys2Proof.Machine.execAsr o s
  | .asra => Sys2Proof.Machine.execAsra s
  | .asrb => Sys2Proof.Machine.execAsrb s
  | .clr o => Sys2Proof.Machine.execClr o s
  | .clra => Sys2Proof.Machine.execClra s
  | .clrb => Sys2Proof.Machine.execClrb s
  | .com o => Sys2Proof.Machine.execCom o s
  | .coma => Sys2Proof.Machine.execComa s
  | .comb => Sys2Proof.Machine.execComb s
  | .dec o => Sys2Proof.Machine.execDec o s
  | .deca => Sys2Proof.Machine.execDeca s
  | .decb => Sys2Proof.Machine.execDecb s
  | .inc o => Sys2Proof.Machine.execInc o s
  | .inca => Sys2Proof.Machine.execInca s
  | .incb => Sys2Proof.Machine.execIncb s
  | .lsr o => Sys2Proof.Machine.execLsr o s
  | .lsra => Sys2Proof.Machine.execLsra s
  | .lsrb => Sys2Proof.Machine.execLsrb s
  | .neg o => Sys2Proof.Machine.execNeg o s
  | .nega => Sys2Proof.Machine.execNega s
  | .negb => Sys2Proof.Machine.execNegb s
  | .rol o => Sys2Proof.Machine.execRol o s
  | .rola => Sys2Proof.Machine.execRola s
  | .rolb => Sys2Proof.Machine.execRolb s
  | .ror o => Sys2Proof.Machine.execRor o s
  | .rora => Sys2Proof.Machine.execRora s
  | .rorb => Sys2Proof.Machine.execRorb s
  | .tst o => Sys2Proof.Machine.execTst o s
  | .tsta => Sys2Proof.Machine.execTsta s
  | .tstb => Sys2Proof.Machine.execTstb s
  | .daa => Sys2Proof.Machine.execDaa s
  | .mul => Sys2Proof.Machine.execMul s
  | .addd o => Sys2Proof.Machine.execAddd o s
  | .cmpd o => Sys2Proof.Machine.execCmpd o s
  | .ldd o => Sys2Proof.Machine.execLdd o s
  | .subd o => Sys2Proof.Machine.execSubd o s
  | .std o => Sys2Proof.Machine.execStd o s
  | .sex => Sys2Proof.Machine.execSex s
  | .cmps o => Sys2Proof.Machine.execCmps o s
  | .cmpu o => Sys2Proof.Machine.execCmpu o s
  | .cmpx o => Sys2Proof.Machine.execCmpx o s
  | .cmpy o => Sys2Proof.Machine.execCmpy o s
  | .lds o => Sys2Proof.Machine.execLds o s
  | .ldu o => Sys2Proof.Machine.execLdu o s
  | .ldx o => Sys2Proof.Machine.execLdx o s
  | .ldy o => Sys2Proof.Machine.execLdy o s
  | .sts o => Sys2Proof.Machine.execSts o s
  | .stu o => Sys2Proof.Machine.execStu o s
  | .stx o => Sys2Proof.Machine.execStx o s
  | .sty o => Sys2Proof.Machine.execSty o s
  | .leas o => Sys2Proof.Machine.execLeas o s
  | .leau o => Sys2Proof.Machine.execLeau o s
  | .leax o => Sys2Proof.Machine.execLeax o s
  | .leay o => Sys2Proof.Machine.execLeay o s
  | .pshs l => Sys2Proof.Machine.execPshs l s
  | .pshu l => Sys2Proof.Machine.execPshu l s
  | .puls l => Sys2Proof.Machine.execPuls l s
  | .pulu l => Sys2Proof.Machine.execPulu l s
  | .exg r1 r2 => Sys2Proof.Machine.execExg r1 r2 s
  | .tfr r1 r2 => Sys2Proof.Machine.execTfr r1 r2 s
  | .abx => Sys2Proof.Machine.execAbx s
  | .bra d => Sys2Proof.Machine.execBra d s
  | .brn d => Sys2Proof.Machine.execBrn d s
  | .bhi d => Sys2Proof.Machine.execBhi d s
  | .bls d => Sys2Proof.Machine.execBls d s
  | .bhs d => Sys2Proof.Machine.execBhs d s
  | .blo d => Sys2Proof.Machine.execBlo d s
  | .bne d => Sys2Proof.Machine.execBne d s
  | .beq d => Sys2Proof.Machine.execBeq d s
  | .bvc d => Sys2Proof.Machine.execBvc d s
  | .bvs d => Sys2Proof.Machine.execBvs d s
  | .bpl d => Sys2Proof.Machine.execBpl d s
  | .bmi d => Sys2Proof.Machine.execBmi d s
  | .bge d => Sys2Proof.Machine.execBge d s
  | .blt d => Sys2Proof.Machine.execBlt d s
  | .bgt d => Sys2Proof.Machine.execBgt d s
  | .ble d => Sys2Proof.Machine.execBle d s
  | .bsr d => Sys2Proof.Machine.execBsr d s
  | .lbra d => Sys2Proof.Machine.execLbra d s
  | .lbrn d => Sys2Proof.Machine.execLbrn d s
  | .lbhi d => Sys2Proof.Machine.execLbhi d s
  | .lbls d => Sys2Proof.Machine.execLbls d s
  | .lbhs d => Sys2Proof.Machine.execLbhs d s
  | .lblo d => Sys2Proof.Machine.execLblo d s
  | .lbne d => Sys2Proof.Machine.execLbne d s
  | .lbeq d => Sys2Proof.Machine.execLbeq d s
  | .lbvc d => Sys2Proof.Machine.execLbvc d s
  | .lbvs d => Sys2Proof.Machine.execLbvs d s
  | .lbpl d => Sys2Proof.Machine.execLbpl d s
  | .lbmi d => Sys2Proof.Machine.execLbmi d s
  | .lbge d => Sys2Proof.Machine.execLbge d s
  | .lblt d => Sys2Proof.Machine.execLblt d s
  | .lbgt d => Sys2Proof.Machine.execLbgt d s
  | .lble d => Sys2Proof.Machine.execLble d s
  | .lbsr d => Sys2Proof.Machine.execLbsr d s
  | .andcc m => Sys2Proof.Machine.execAndcc m s
  | .orcc m => Sys2Proof.Machine.execOrcc m s
  | .cwai m => Sys2Proof.Machine.execCwai m s
  | .nop => Sys2Proof.Machine.execNop s
  | .jmp o => Sys2Proof.Machine.execJmp o s
  | .jsr o => Sys2Proof.Machine.execJsr o s
  | .rti => Sys2Proof.Machine.execRti s
  | .rts => Sys2Proof.Machine.execRts s
  | .swi => Sys2Proof.Machine.execSwi s
  | .swi2 => Sys2Proof.Machine.execSwi2 s
  | .swi3 => Sys2Proof.Machine.execSwi3 s
  | .sync => Sys2Proof.Machine.execSync s

end Sys2Proof.Machine
end

