-- ==== Sys2Proof/WellFormed.lean ====
section
/-! DEFINITION. Which instructions have an encoding. -/

namespace Sys2Proof

/-- Both registers have the same width (30_encoding.md R105: "any pair of 8 bit or any pair of 16 bit
registers"). -/
def Reg.sameWidth : Reg → Reg → Bool
  | .r8 _, .r8 _ => true
  | .r16 _, .r16 _ => true
  | .r8 _, .r16 _ => false
  | .r16 _, .r8 _ => false

/-- TFR and EXG name two registers of the same width (30_encoding.md R105); every other instruction that can be
written as an `Instr` has an encoding (30_encoding.md R103, R106). -/
def Instr.wellFormed : Instr → Bool
  | .exg r1 r2 => r1.sameWidth r2
  | .tfr r1 r2 => r1.sameWidth r2
  | _ => true

end Sys2Proof
end

