-- ==== Sys2Proof/Decode.lean ====
section
/-! DEFINITION. The decoder, total on any bytes, and after it the encoder, both from the tables of 30_encoding.md. -/

namespace Sys2Proof

open Sys2Proof.Machine

/-- Why bytes are no instruction (30_encoding.md R118, R119). -/
inductive Undefined where
  | opcode
  | postbyte
  deriving DecidableEq, Repr

/-- An instruction and the number of its bytes (30_encoding.md R92). -/
structure Decoded where
  instr : Instr
  len : Nat
  deriving DecidableEq, Repr

/-- Bits 7 to 4 of a byte. -/
def hiNibble (b : Byte) : Nat := (b.extractLsb' 4 4).toNat

/-- Bits 3 to 0 of a byte. -/
def loNibble (b : Byte) : Nat := (b.extractLsb' 0 4).toNat

/-- Register field RR of an indexed postbyte (30_encoding.md R102). -/
def decodePtr (pb : Byte) : Ptr :=
  match (pb.extractLsb' 5 2).toNat with
  | 0 => .x
  | 1 => .y
  | 2 => .u
  | _ => .s

/-- The indexed operand of a postbyte and the two bytes after it, with the number of bytes it takes, the postbyte
counted (30_encoding.md R102, R103); none for the 39 undefined postbytes. With bit 7 clear, bit 4 is the sign of the
5-bit offset and no indirect bit: that offset has no indirect form (R122). -/
def decodeIndexed (pb p1 p2 : Byte) : Option (Indexed × Nat) :=
  let r := decodePtr pb
  let ind := pb.getLsbD 4
  if pb.getLsbD 7 = false then some (.off5 r (pb.extractLsb' 0 5), 1)
  else
    match loNibble pb with
    | 0x0 => if ind then none else some (.inc1 r, 1)
    | 0x1 => some (.inc2 r ind, 1)
    | 0x2 => if ind then none else some (.dec1 r, 1)
    | 0x3 => some (.dec2 r ind, 1)
    | 0x4 => some (.zero r ind, 1)
    | 0x5 => some (.offB r ind, 1)
    | 0x6 => some (.offA r ind, 1)
    | 0x8 => some (.off8 r p1 ind, 2)
    | 0x9 => some (.off16 r (joinBytes p1 p2) ind, 3)
    | 0xB => some (.offD r ind, 1)
    | 0xC => some (.pcr8 p1 ind, 2)
    | 0xD => some (.pcr16 (joinBytes p1 p2) ind, 3)
    | 0xF => if pb = 0x9F then some (.extInd (joinBytes p1 p2), 3) else none
    | _ => none

/-- A register code of TFR and EXG (30_encoding.md R104). -/
def decodeReg (code : Nat) : Option Reg :=
  match code with
  | 0x0 => some (.r16 .d)
  | 0x1 => some (.r16 .x)
  | 0x2 => some (.r16 .y)
  | 0x3 => some (.r16 .u)
  | 0x4 => some (.r16 .s)
  | 0x5 => some (.r16 .pc)
  | 0x8 => some (.r8 .a)
  | 0x9 => some (.r8 .b)
  | 0xA => some (.r8 .cc)
  | 0xB => some (.r8 .dp)
  | _ => none

/-- The register list of a push or pull postbyte (30_encoding.md R106). -/
def decodeRegList (pb : Byte) : RegList :=
  { pc := pb.getLsbD 7, us := pb.getLsbD 6, y := pb.getLsbD 5, x := pb.getLsbD 4, dp := pb.getLsbD 3,
    b := pb.getLsbD 2, a := pb.getLsbD 1, cc := pb.getLsbD 0 }

/-- The four formats with a memory or immediate operand, in the order of opcode bits 5 and 4 (30_encoding.md R95). -/
inductive OperandFormat where
  | imm | dir | idx | ext
  deriving DecidableEq, Repr

/-- What stands in one column of opcode groups 0x8 to 0xF (30_encoding.md R95). -/
inductive Column where
  | src8 (f : Src8 → Instr)
  | src16 (f : Src16 → Instr)
  | mem (f : Mem → Instr)

/-- An instruction with a memory operand whose opcode takes `o` bytes (30_encoding.md R94). -/
def decodeMem (f : Mem → Instr) (m : OperandFormat) (o : Nat) (p0 p1 p2 : Byte) : Except Undefined Decoded :=
  match m with
  | .imm => .error .opcode
  | .dir => .ok ⟨f (.dir p0), o + 1⟩
  | .idx =>
    match decodeIndexed p0 p1 p2 with
    | some (x, n) => .ok ⟨f (.idx x), o + n⟩
    | none => .error .postbyte
  | .ext => .ok ⟨f (.ext (joinBytes p0 p1)), o + 2⟩

/-- An instruction of a column in one format (30_encoding.md R94, R95); a column without an immediate form has an
unused opcode there (R118). -/
def decodeColumn (c : Column) (m : OperandFormat) (o : Nat) (p0 p1 p2 : Byte) : Except Undefined Decoded :=
  match c, m with
  | .src8 f, .imm => .ok ⟨f (.imm p0), o + 1⟩
  | .src16 f, .imm => .ok ⟨f (.imm (joinBytes p0 p1)), o + 2⟩
  | .src8 f, m => decodeMem (fun a => f (.mem a)) m o p0 p1 p2
  | .src16 f, m => decodeMem (fun a => f (.mem a)) m o p0 p1 p2
  | .mem f, m => decodeMem f m o p0 p1 p2

/-- LEA: an indexed operand only (43_index_stack.md R270). -/
def decodeLea (f : Indexed → Instr) (p0 p1 p2 : Byte) : Except Undefined Decoded :=
  match decodeIndexed p0 p1 p2 with
  | some (x, n) => .ok ⟨f x, 1 + n⟩
  | none => .error .postbyte

/-- TFR and EXG: source in bits 7 to 4, destination in bits 3 to 0, of like width (30_encoding.md R104, R105). -/
def decodeRegPair (f : Reg → Reg → Instr) (pb : Byte) : Except Undefined Decoded :=
  match decodeReg (hiNibble pb), decodeReg (loNibble pb) with
  | some r1, some r2 => if r1.sameWidth r2 then .ok ⟨f r1 r2, 2⟩ else .error .postbyte
  | _, _ => .error .postbyte

/-- Groups 0x0, 0x6 and 0x7 of page 1 (30_encoding.md R110). -/
def rmwOp (lo : Nat) : Option (Mem → Instr) :=
  match lo with
  | 0x0 => some .neg
  | 0x3 => some .com
  | 0x4 => some .lsr
  | 0x6 => some .ror
  | 0x7 => some .asr
  | 0x8 => some .asl
  | 0x9 => some .rol
  | 0xA => some .dec
  | 0xC => some .inc
  | 0xD => some .tst
  | 0xE => some .jmp
  | 0xF => some .clr
  | _ => none

/-- Group 0x4 of page 1 (30_encoding.md R110). -/
def accAOp (lo : Nat) : Option Instr :=
  match lo with
  | 0x0 => some .nega
  | 0x3 => some .coma
  | 0x4 => some .lsra
  | 0x6 => some .rora
  | 0x7 => some .asra
  | 0x8 => some .asla
  | 0x9 => some .rola
  | 0xA => some .deca
  | 0xC => some .inca
  | 0xD => some .tsta
  | 0xF => some .clra
  | _ => none

/-- Group 0x5 of page 1 (30_encoding.md R110). -/
def accBOp (lo : Nat) : Option Instr :=
  match lo with
  | 0x0 => some .negb
  | 0x3 => some .comb
  | 0x4 => some .lsrb
  | 0x6 => some .rorb
  | 0x7 => some .asrb
  | 0x8 => some .aslb
  | 0x9 => some .rolb
  | 0xA => some .decb
  | 0xC => some .incb
  | 0xD => some .tstb
  | 0xF => some .clrb
  | _ => none

/-- The columns of groups 0x8 to 0xB of page 1 (30_encoding.md R110); 0x8D is BSR, decoded before. -/
def columnA (lo : Nat) : Option Column :=
  match lo with
  | 0x0 => some (.src8 .suba)
  | 0x1 => some (.src8 .cmpa)
  | 0x2 => some (.src8 .sbca)
  | 0x3 => some (.src16 .subd)
  | 0x4 => some (.src8 .anda)
  | 0x5 => some (.src8 .bita)
  | 0x6 => some (.src8 .lda)
  | 0x7 => some (.mem .sta)
  | 0x8 => some (.src8 .eora)
  | 0x9 => some (.src8 .adca)
  | 0xA => some (.src8 .ora)
  | 0xB => some (.src8 .adda)
  | 0xC => some (.src16 .cmpx)
  | 0xD => some (.mem .jsr)
  | 0xE => some (.src16 .ldx)
  | 0xF => some (.mem .stx)
  | _ => none

/-- The columns of groups 0xC to 0xF of page 1 (30_encoding.md R110). -/
def columnB (lo : Nat) : Option Column :=
  match lo with
  | 0x0 => some (.src8 .subb)
  | 0x1 => some (.src8 .cmpb)
  | 0x2 => some (.src8 .sbcb)
  | 0x3 => some (.src16 .addd)
  | 0x4 => some (.src8 .andb)
  | 0x5 => some (.src8 .bitb)
  | 0x6 => some (.src8 .ldb)
  | 0x7 => some (.mem .stb)
  | 0x8 => some (.src8 .eorb)
  | 0x9 => some (.src8 .adcb)
  | 0xA => some (.src8 .orb)
  | 0xB => some (.src8 .addb)
  | 0xC => some (.src16 .ldd)
  | 0xD => some (.mem .std)
  | 0xE => some (.src16 .ldu)
  | 0xF => some (.mem .stu)
  | _ => none

/-- The columns of groups 0x8 to 0xB of page 2 (30_encoding.md R111). -/
def column2A (lo : Nat) : Option Column :=
  match lo with
  | 0x3 => some (.src16 .cmpd)
  | 0xC => some (.src16 .cmpy)
  | 0xE => some (.src16 .ldy)
  | 0xF => some (.mem .sty)
  | _ => none

/-- The columns of groups 0xC to 0xF of page 2 (30_encoding.md R111). -/
def column2B (lo : Nat) : Option Column :=
  match lo with
  | 0xE => some (.src16 .lds)
  | 0xF => some (.mem .sts)
  | _ => none

/-- The columns of groups 0x8 to 0xB of page 3 (30_encoding.md R112). -/
def column3A (lo : Nat) : Option Column :=
  match lo with
  | 0x3 => some (.src16 .cmpu)
  | 0xC => some (.src16 .cmps)
  | _ => none

/-- Short branches, group 0x2 of page 1 (30_encoding.md R110). -/
def shortBranch (lo : Nat) : Option (Byte → Instr) :=
  match lo with
  | 0x0 => some .bra
  | 0x1 => some .brn
  | 0x2 => some .bhi
  | 0x3 => some .bls
  | 0x4 => some .bhs
  | 0x5 => some .blo
  | 0x6 => some .bne
  | 0x7 => some .beq
  | 0x8 => some .bvc
  | 0x9 => some .bvs
  | 0xA => some .bpl
  | 0xB => some .bmi
  | 0xC => some .bge
  | 0xD => some .blt
  | 0xE => some .bgt
  | 0xF => some .ble
  | _ => none

/-- Long branches, group 0x2 of page 2 (30_encoding.md R111); 10 20 is unused. -/
def longBranch (lo : Nat) : Option (Word → Instr) :=
  match lo with
  | 0x1 => some .lbrn
  | 0x2 => some .lbhi
  | 0x3 => some .lbls
  | 0x4 => some .lbhs
  | 0x5 => some .lblo
  | 0x6 => some .lbne
  | 0x7 => some .lbeq
  | 0x8 => some .lbvc
  | 0x9 => some .lbvs
  | 0xA => some .lbpl
  | 0xB => some .lbmi
  | 0xC => some .lbge
  | 0xD => some .lblt
  | 0xE => some .lbgt
  | 0xF => some .lble
  | _ => none

/-- Group 0x1 of page 1 without the prefixes (30_encoding.md R110). -/
def decodeGroup1 (lo : Nat) (p0 p1 : Byte) : Except Undefined Decoded :=
  match lo with
  | 0x2 => .ok ⟨.nop, 1⟩
  | 0x3 => .ok ⟨.sync, 1⟩
  | 0x6 => .ok ⟨.lbra (joinBytes p0 p1), 3⟩
  | 0x7 => .ok ⟨.lbsr (joinBytes p0 p1), 3⟩
  | 0x9 => .ok ⟨.daa, 1⟩
  | 0xA => .ok ⟨.orcc p0, 2⟩
  | 0xC => .ok ⟨.andcc p0, 2⟩
  | 0xD => .ok ⟨.sex, 1⟩
  | 0xE => decodeRegPair .exg p0
  | 0xF => decodeRegPair .tfr p0
  | _ => .error .opcode

/-- Group 0x3 of page 1 (30_encoding.md R110). -/
def decodeGroup3 (lo : Nat) (p0 p1 p2 : Byte) : Except Undefined Decoded :=
  match lo with
  | 0x0 => decodeLea .leax p0 p1 p2
  | 0x1 => decodeLea .leay p0 p1 p2
  | 0x2 => decodeLea .leas p0 p1 p2
  | 0x3 => decodeLea .leau p0 p1 p2
  | 0x4 => .ok ⟨.pshs (decodeRegList p0), 2⟩
  | 0x5 => .ok ⟨.puls (decodeRegList p0), 2⟩
  | 0x6 => .ok ⟨.pshu (decodeRegList p0), 2⟩
  | 0x7 => .ok ⟨.pulu (decodeRegList p0), 2⟩
  | 0x9 => .ok ⟨.rts, 1⟩
  | 0xA => .ok ⟨.abx, 1⟩
  | 0xB => .ok ⟨.rti, 1⟩
  | 0xC => .ok ⟨.cwai p0, 2⟩
  | 0xD => .ok ⟨.mul, 1⟩
  | 0xF => .ok ⟨.swi, 1⟩
  | _ => .error .opcode

/-- An optional column in one format; no column is an unused opcode (30_encoding.md R118). -/
def decodeColumn? (c : Option Column) (m : OperandFormat) (o : Nat) (p0 p1 p2 : Byte) : Except Undefined Decoded :=
  match c with
  | some c => decodeColumn c m o p0 p1 p2
  | none => .error .opcode

/-- An optional memory operation in one format. -/
def decodeRmw (lo : Nat) (m : OperandFormat) (p0 p1 p2 : Byte) : Except Undefined Decoded :=
  match rmwOp lo with
  | some f => decodeMem f m 1 p0 p1 p2
  | none => .error .opcode

/-- An optional accumulator operation (format INH). -/
def decodeInh (i : Option Instr) : Except Undefined Decoded :=
  match i with
  | some i => .ok ⟨i, 1⟩
  | none => .error .opcode

/-- The one-byte opcodes, the prefixes apart (30_encoding.md R110), with the three bytes after the opcode. -/
def decodePage1 (b0 p0 p1 p2 : Byte) : Except Undefined Decoded :=
  let lo := loNibble b0
  match hiNibble b0 with
  | 0x0 => decodeRmw lo .dir p0 p1 p2
  | 0x1 => decodeGroup1 lo p0 p1
  | 0x2 =>
    match shortBranch lo with
    | some f => .ok ⟨f p0, 2⟩
    | none => .error .opcode
  | 0x3 => decodeGroup3 lo p0 p1 p2
  | 0x4 => decodeInh (accAOp lo)
  | 0x5 => decodeInh (accBOp lo)
  | 0x6 => decodeRmw lo .idx p0 p1 p2
  | 0x7 => decodeRmw lo .ext p0 p1 p2
  | 0x8 => if lo = 0xD then .ok ⟨.bsr p0, 2⟩ else decodeColumn? (columnA lo) .imm 1 p0 p1 p2
  | 0x9 => decodeColumn? (columnA lo) .dir 1 p0 p1 p2
  | 0xA => decodeColumn? (columnA lo) .idx 1 p0 p1 p2
  | 0xB => decodeColumn? (columnA lo) .ext 1 p0 p1 p2
  | 0xC => decodeColumn? (columnB lo) .imm 1 p0 p1 p2
  | 0xD => decodeColumn? (columnB lo) .dir 1 p0 p1 p2
  | 0xE => decodeColumn? (columnB lo) .idx 1 p0 p1 p2
  | _ => decodeColumn? (columnB lo) .ext 1 p0 p1 p2

/-- The opcodes after prefix 0x10 (30_encoding.md R111), with the three bytes after the opcode. -/
def decodePage2 (b1 p0 p1 p2 : Byte) : Except Undefined Decoded :=
  let lo := loNibble b1
  match hiNibble b1 with
  | 0x2 =>
    match longBranch lo with
    | some f => .ok ⟨f (joinBytes p0 p1), 4⟩
    | none => .error .opcode
  | 0x3 => if lo = 0xF then .ok ⟨.swi2, 2⟩ else .error .opcode
  | 0x8 => decodeColumn? (column2A lo) .imm 2 p0 p1 p2
  | 0x9 => decodeColumn? (column2A lo) .dir 2 p0 p1 p2
  | 0xA => decodeColumn? (column2A lo) .idx 2 p0 p1 p2
  | 0xB => decodeColumn? (column2A lo) .ext 2 p0 p1 p2
  | 0xC => decodeColumn? (column2B lo) .imm 2 p0 p1 p2
  | 0xD => decodeColumn? (column2B lo) .dir 2 p0 p1 p2
  | 0xE => decodeColumn? (column2B lo) .idx 2 p0 p1 p2
  | 0xF => decodeColumn? (column2B lo) .ext 2 p0 p1 p2
  | _ => .error .opcode

/-- The opcodes after prefix 0x11 (30_encoding.md R112), with the three bytes after the opcode. -/
def decodePage3 (b1 p0 p1 p2 : Byte) : Except Undefined Decoded :=
  let lo := loNibble b1
  match hiNibble b1 with
  | 0x3 => if lo = 0xF then .ok ⟨.swi3, 2⟩ else .error .opcode
  | 0x8 => decodeColumn? (column3A lo) .imm 2 p0 p1 p2
  | 0x9 => decodeColumn? (column3A lo) .dir 2 p0 p1 p2
  | 0xA => decodeColumn? (column3A lo) .idx 2 p0 p1 p2
  | 0xB => decodeColumn? (column3A lo) .ext 2 p0 p1 p2
  | _ => .error .opcode

/-- The instruction that starts with these five bytes (30_encoding.md R90 to R93: an instruction has one to five
bytes, and nothing else affects decoding). Bytes after the instruction are not looked at. -/
def decode (b0 b1 b2 b3 b4 : Byte) : Except Undefined Decoded :=
  if b0 = 0x10 then decodePage2 b1 b2 b3 b4
  else if b0 = 0x11 then decodePage3 b1 b2 b3 b4
  else decodePage1 b0 b1 b2 b3

/-- The decoder on a list, whose bytes from the fifth on are not looked at and whose missing bytes are 0. -/
def decodeBytes (bs : List Byte) : Except Undefined Decoded :=
  decode (bs.getD 0 0) (bs.getD 1 0) (bs.getD 2 0) (bs.getD 3 0) (bs.getD 4 0)

/-! The encoder. -/

/-- Field RR in place (30_encoding.md R102). -/
def encodePtr : Ptr → Byte
  | .x => 0x00
  | .y => 0x20
  | .u => 0x40
  | .s => 0x60

/-- The indirect bit in place (30_encoding.md R102). -/
def encodeInd (ind : Bool) : Byte := if ind then 0x10 else 0x00

/-- The two bytes of a word, high byte first (20_memory.md R65). -/
def wordBytes (w : Word) : List Byte := [hiByte w, loByte w]

/-- The postbyte of an indexed operand with its offset bytes (30_encoding.md R102). The 5-bit offset has no
indirect form; a small offset in brackets is the 8-bit form with the indirect bit (R122). The don't-care bits of the PC
relative postbytes are written as 00 (log 23). -/
def encodeIndexed : Indexed → List Byte
  | .off5 r n => [encodePtr r ||| n.zeroExtend 8]
  | .inc1 r => [0x80 ||| encodePtr r]
  | .inc2 r ind => [0x81 ||| encodePtr r ||| encodeInd ind]
  | .dec1 r => [0x82 ||| encodePtr r]
  | .dec2 r ind => [0x83 ||| encodePtr r ||| encodeInd ind]
  | .zero r ind => [0x84 ||| encodePtr r ||| encodeInd ind]
  | .offB r ind => [0x85 ||| encodePtr r ||| encodeInd ind]
  | .offA r ind => [0x86 ||| encodePtr r ||| encodeInd ind]
  | .off8 r n ind => [0x88 ||| encodePtr r ||| encodeInd ind, n]
  | .off16 r n ind => (0x89 ||| encodePtr r ||| encodeInd ind) :: wordBytes n
  | .offD r ind => [0x8B ||| encodePtr r ||| encodeInd ind]
  | .pcr8 n ind => [0x8C ||| encodeInd ind, n]
  | .pcr16 n ind => (0x8D ||| encodeInd ind) :: wordBytes n
  | .extInd p => 0x9F :: wordBytes p

/-- Opcode and operand of a memory instruction, whose direct, indexed and extended opcodes are given
(30_encoding.md R110 to R112). -/
def encodeMem (dir idx ext : Byte) : Mem → List Byte
  | .dir dd => [dir, dd]
  | .idx x => idx :: encodeIndexed x
  | .ext a => ext :: wordBytes a

/-- Opcode and operand in groups 0x8 to 0xF: the immediate opcode is `op`, the others follow at 0x10
(30_encoding.md R95). -/
def encodeColumnMem (op : Byte) (o : Mem) : List Byte := encodeMem (op + 0x10) (op + 0x20) (op + 0x30) o

/-- An 8-bit column (30_encoding.md R95, R96). -/
def encodeSrc8 (op : Byte) : Src8 → List Byte
  | .imm m => [op, m]
  | .mem o => encodeColumnMem op o

/-- A 16-bit column (30_encoding.md R95, R97). -/
def encodeSrc16 (op : Byte) : Src16 → List Byte
  | .imm m => op :: wordBytes m
  | .mem o => encodeColumnMem op o

/-- A read-modify-write operation of column `lo` in groups 0x0, 0x6 and 0x7 (30_encoding.md R95). -/
def encodeRmw (lo : Byte) (o : Mem) : List Byte := encodeMem lo (0x60 + lo) (0x70 + lo) o

/-- A register code (30_encoding.md R104). -/
def encodeReg : Reg → Byte
  | .r16 .d => 0x0
  | .r16 .x => 0x1
  | .r16 .y => 0x2
  | .r16 .u => 0x3
  | .r16 .s => 0x4
  | .r16 .pc => 0x5
  | .r8 .a => 0x8
  | .r8 .b => 0x9
  | .r8 .cc => 0xA
  | .r8 .dp => 0xB

/-- The postbyte of TFR and EXG (30_encoding.md R104). -/
def encodeRegPair (r1 r2 : Reg) : Byte := encodeReg r1 <<< 4 ||| encodeReg r2

/-- The postbyte of a push or pull (30_encoding.md R106). -/
def encodeRegList (l : RegList) : Byte :=
  (if l.pc then 0x80 else 0) ||| (if l.us then 0x40 else 0) ||| (if l.y then 0x20 else 0) |||
  (if l.x then 0x10 else 0) ||| (if l.dp then 0x08 else 0) ||| (if l.b then 0x04 else 0) |||
  (if l.a then 0x02 else 0) ||| (if l.cc then 0x01 else 0)

/-- The bytes of an instruction (30_encoding.md R90, R110 to R112). -/
def encode : Instr → List Byte
  | .suba o => encodeSrc8 0x80 o
  | .cmpa o => encodeSrc8 0x81 o
  | .sbca o => encodeSrc8 0x82 o
  | .subd o => encodeSrc16 0x83 o
  | .anda o => encodeSrc8 0x84 o
  | .bita o => encodeSrc8 0x85 o
  | .lda o => encodeSrc8 0x86 o
  | .sta o => encodeColumnMem 0x87 o
  | .eora o => encodeSrc8 0x88 o
  | .adca o => encodeSrc8 0x89 o
  | .ora o => encodeSrc8 0x8A o
  | .adda o => encodeSrc8 0x8B o
  | .cmpx o => encodeSrc16 0x8C o
  | .jsr o => encodeColumnMem 0x8D o
  | .ldx o => encodeSrc16 0x8E o
  | .stx o => encodeColumnMem 0x8F o
  | .subb o => encodeSrc8 0xC0 o
  | .cmpb o => encodeSrc8 0xC1 o
  | .sbcb o => encodeSrc8 0xC2 o
  | .addd o => encodeSrc16 0xC3 o
  | .andb o => encodeSrc8 0xC4 o
  | .bitb o => encodeSrc8 0xC5 o
  | .ldb o => encodeSrc8 0xC6 o
  | .stb o => encodeColumnMem 0xC7 o
  | .eorb o => encodeSrc8 0xC8 o
  | .adcb o => encodeSrc8 0xC9 o
  | .orb o => encodeSrc8 0xCA o
  | .addb o => encodeSrc8 0xCB o
  | .ldd o => encodeSrc16 0xCC o
  | .std o => encodeColumnMem 0xCD o
  | .ldu o => encodeSrc16 0xCE o
  | .stu o => encodeColumnMem 0xCF o
  | .cmpd o => 0x10 :: encodeSrc16 0x83 o
  | .cmpy o => 0x10 :: encodeSrc16 0x8C o
  | .ldy o => 0x10 :: encodeSrc16 0x8E o
  | .sty o => 0x10 :: encodeColumnMem 0x8F o
  | .lds o => 0x10 :: encodeSrc16 0xCE o
  | .sts o => 0x10 :: encodeColumnMem 0xCF o
  | .cmpu o => 0x11 :: encodeSrc16 0x83 o
  | .cmps o => 0x11 :: encodeSrc16 0x8C o
  | .neg o => encodeRmw 0x0 o
  | .com o => encodeRmw 0x3 o
  | .lsr o => encodeRmw 0x4 o
  | .ror o => encodeRmw 0x6 o
  | .asr o => encodeRmw 0x7 o
  | .asl o => encodeRmw 0x8 o
  | .rol o => encodeRmw 0x9 o
  | .dec o => encodeRmw 0xA o
  | .inc o => encodeRmw 0xC o
  | .tst o => encodeRmw 0xD o
  | .jmp o => encodeRmw 0xE o
  | .clr o => encodeRmw 0xF o
  | .nega => [0x40]
  | .coma => [0x43]
  | .lsra => [0x44]
  | .rora => [0x46]
  | .asra => [0x47]
  | .asla => [0x48]
  | .rola => [0x49]
  | .deca => [0x4A]
  | .inca => [0x4C]
  | .tsta => [0x4D]
  | .clra => [0x4F]
  | .negb => [0x50]
  | .comb => [0x53]
  | .lsrb => [0x54]
  | .rorb => [0x56]
  | .asrb => [0x57]
  | .aslb => [0x58]
  | .rolb => [0x59]
  | .decb => [0x5A]
  | .incb => [0x5C]
  | .tstb => [0x5D]
  | .clrb => [0x5F]
  | .nop => [0x12]
  | .sync => [0x13]
  | .lbra d => 0x16 :: wordBytes d
  | .lbsr d => 0x17 :: wordBytes d
  | .daa => [0x19]
  | .orcc m => [0x1A, m]
  | .andcc m => [0x1C, m]
  | .sex => [0x1D]
  | .exg r1 r2 => [0x1E, encodeRegPair r1 r2]
  | .tfr r1 r2 => [0x1F, encodeRegPair r1 r2]
  | .bra d => [0x20, d]
  | .brn d => [0x21, d]
  | .bhi d => [0x22, d]
  | .bls d => [0x23, d]
  | .bhs d => [0x24, d]
  | .blo d => [0x25, d]
  | .bne d => [0x26, d]
  | .beq d => [0x27, d]
  | .bvc d => [0x28, d]
  | .bvs d => [0x29, d]
  | .bpl d => [0x2A, d]
  | .bmi d => [0x2B, d]
  | .bge d => [0x2C, d]
  | .blt d => [0x2D, d]
  | .bgt d => [0x2E, d]
  | .ble d => [0x2F, d]
  | .leax o => 0x30 :: encodeIndexed o
  | .leay o => 0x31 :: encodeIndexed o
  | .leas o => 0x32 :: encodeIndexed o
  | .leau o => 0x33 :: encodeIndexed o
  | .pshs l => [0x34, encodeRegList l]
  | .puls l => [0x35, encodeRegList l]
  | .pshu l => [0x36, encodeRegList l]
  | .pulu l => [0x37, encodeRegList l]
  | .rts => [0x39]
  | .abx => [0x3A]
  | .rti => [0x3B]
  | .cwai m => [0x3C, m]
  | .mul => [0x3D]
  | .swi => [0x3F]
  | .bsr d => [0x8D, d]
  | .lbrn d => 0x10 :: 0x21 :: wordBytes d
  | .lbhi d => 0x10 :: 0x22 :: wordBytes d
  | .lbls d => 0x10 :: 0x23 :: wordBytes d
  | .lbhs d => 0x10 :: 0x24 :: wordBytes d
  | .lblo d => 0x10 :: 0x25 :: wordBytes d
  | .lbne d => 0x10 :: 0x26 :: wordBytes d
  | .lbeq d => 0x10 :: 0x27 :: wordBytes d
  | .lbvc d => 0x10 :: 0x28 :: wordBytes d
  | .lbvs d => 0x10 :: 0x29 :: wordBytes d
  | .lbpl d => 0x10 :: 0x2A :: wordBytes d
  | .lbmi d => 0x10 :: 0x2B :: wordBytes d
  | .lbge d => 0x10 :: 0x2C :: wordBytes d
  | .lblt d => 0x10 :: 0x2D :: wordBytes d
  | .lbgt d => 0x10 :: 0x2E :: wordBytes d
  | .lble d => 0x10 :: 0x2F :: wordBytes d
  | .swi2 => [0x10, 0x3F]
  | .swi3 => [0x11, 0x3F]

/-! Words as spec/opcode_table.json numbers them. -/

/-- Whether a byte is one of the prefixes (30_encoding.md R93). -/
def isPrefix (b : Byte) : Bool := b == 0x10 || b == 0x11

/-- The five bytes at an instruction's place, for an instruction whose low `nbits` bits are `w` and whose other bits
are 0 (log 22). The table numbers a two-byte opcode with its prefix in bits 15 to 8 (its rows say 0x1021 for 10 21);
every other byte, and a prefix in bits 7 to 0, is numbered from bit 0 up. -/
def tableBytes (nbits w : Nat) : List Byte :=
  let v := w % 2 ^ nbits
  let b0 := BitVec.ofNat 8 v
  let b1 := BitVec.ofNat 8 (v / 2 ^ 8)
  let tail := [BitVec.ofNat 8 (v / 2 ^ 16), BitVec.ofNat 8 (v / 2 ^ 24), BitVec.ofNat 8 (v / 2 ^ 32)]
  if isPrefix b1 && decide (16 ≤ nbits) then b1 :: b0 :: tail else b0 :: b1 :: tail

/-- The instruction the decoder reads from a word of spec/opcode_table.json (log 22). -/
def decodeTableWord (nbits w : Nat) : Option Instr :=
  match decodeBytes (tableBytes nbits w) with
  | .ok d => some d.instr
  | .error _ => none

end Sys2Proof
end

