-- ==== Sys2Proof/Machine/Fetch.lean ====
section
/-! DEFINITION. Fetching an instruction, and placing one where the next step fetches. -/

namespace Sys2Proof.Machine

/-- The byte that the fetch of the instruction at PC reads as its byte `n`, after a grant before each byte up to it. -/
def State.fetchByte (s : State) (n : Nat) : Byte := (State.grantN (n + 1) s).readByte (s.PC + BitVec.ofNat 16 n)

/-- The instruction at PC (30_encoding.md R91): its bytes are read one after another at PC and the addresses after it,
modulo 2^16. The decoder looks at no byte beyond the instruction's own. -/
def State.fetch (s : State) : Except Undefined Decoded :=
  decode (s.fetchByte 0) (s.fetchByte 1) (s.fetchByte 2) (s.fetchByte 3) (s.fetchByte 4)

/-- The state with `len` instruction bytes fetched: PC is past them (10_state.md R26). -/
def State.fetched (s : State) (len : Nat) : State := (State.grantN len s).setPC (s.PC + BitVec.ofNat 16 len)

/-- The bytes fetched of what is no instruction: the opcode, and the postbyte if that is what is undefined
(40_addressing_modes.md R157). -/
def undefinedLength (b0 : Byte) : Undefined → Nat
  | .opcode => if isPrefix b0 then 2 else 1
  | .postbyte => if isPrefix b0 then 3 else 2

/-- The fault of bytes that are no instruction (30_encoding.md R118, R119). -/
def State.undefinedFault (s : State) (e : Undefined) : Fault :=
  let t := s.fetched (undefinedLength (s.fetchByte 0) e)
  match e with
  | .opcode => .undefinedOpcode t
  | .postbyte => .undefinedPostbyte t

/-- Bytes placed in memory from an address on, whatever stands there. -/
def placeBytes (m : Memory) (a : Word) : List Byte → Memory
  | [] => m
  | b :: bs => placeBytes (m.write a.toNat b) (a + 1) bs

/-- RAM put at an address where nothing is admitted, so that a fetch there reads what is placed. -/
def placeRam (map : List Region) (a : Word) : List Region :=
  match kindIn map a.toNat with
  | .ram => map
  | .rom => map
  | .unadmitted => ⟨a.toNat, a.toNat, .ram⟩ :: map

/-- The state with an instruction's bytes at PC and with nothing in the way of running it: the MPU running, no pin active, no
NMI latched (log 17). -/
def State.withBytesAtPC (s : State) (bs : List Byte) : State :=
  { s with
    mem := placeBytes s.mem s.PC bs
    memMap := [s.PC, s.PC + 1, s.PC + 2, s.PC + 3, s.PC + 4].foldl placeRam s.memMap
    run := .running
    lines := []
    nmiPending := false }

end Sys2Proof.Machine
end

