-- ==== Sys2Proof/Machine/Step.lean ====
section
/-! DEFINITION. One step of the machine. -/

namespace Sys2Proof.Machine

/-- One instruction: fetched, PC moved past it, run (00_scope.md R11). -/
def State.runInstruction (s : State) : Host.Outcome State Fault Refusal :=
  match s.fetch with
  | .ok d => exec d.instr (s.fetched d.len)
  | .error e => .fault (s.undefinedFault e)

/-- An instruction boundary: an interrupt that is recognised is entered, else one instruction runs
(60_exceptions.md R393). -/
def State.boundary (s : State) : Host.Outcome State Fault Refusal :=
  match s.recognised with
  | some k => .next (s.interrupt k)
  | none => s.runInstruction

/-- A step of the running MPU: RES abandons what would run (60_exceptions.md R401), DMA/BREQ and HALT stop it first
(R420, R422), else the boundary. -/
def State.runningStep (s : State) : Host.Outcome State Fault Refusal :=
  if s.pins.res then .next (s.abandon s.boundary)
  else if s.pins.dma then .next s.enterBusGrant
  else if s.pins.halt then .next (s.enterHalt .running)
  else s.boundary

/-- One step: the pins are sampled, then the run state says what happens (10_state.md R45). -/
def step (s : State) : Host.Outcome State Fault Refusal :=
  let s := s.sample
  match s.run with
  | .reset => .next s.resetStep
  | .running => s.runningStep
  | .sync => .next s.syncStep
  | .wait => .next s.waitStep
  | .halted => .next s.haltedStep
  | .busGrant => .next s.busGrantStep

/-- The state with a word of spec/opcode_table.json where the next step fetches its instruction (logs 17 and 22). -/
def State.withFetchWord (s : State) (nbits w : Nat) : State := s.withBytesAtPC (tableBytes nbits w)

end Sys2Proof.Machine
end

