-- ==== Sys2Proof/Machine/Timing.lean ====
section
/-! DEFINITION. The cycle counts of the tables (70_reset_and_hazards.md R470). No other definition uses them. -/

namespace Sys2Proof.Machine

/-- The cycles an indexed operand adds (40_addressing_modes.md R159, Table 4). -/
def indexedCycles : Indexed → Nat
  | .off5 _ _ => 1
  | .inc1 _ => 2
  | .inc2 _ ind => if ind then 6 else 3
  | .dec1 _ => 2
  | .dec2 _ ind => if ind then 6 else 3
  | .zero _ ind => if ind then 3 else 0
  | .offB _ ind => if ind then 4 else 1
  | .offA _ ind => if ind then 4 else 1
  | .off8 _ _ ind => if ind then 4 else 1
  | .off16 _ _ ind => if ind then 7 else 4
  | .offD _ ind => if ind then 7 else 4
  | .pcr8 _ ind => if ind then 4 else 1
  | .pcr16 _ ind => if ind then 8 else 5
  | .extInd _ => 5

/-- The cycles of a memory instruction whose direct form takes `n`: indexed `n+`, extended one more. -/
def memCycles (n : Nat) : Mem → Nat
  | .dir _ => n
  | .idx x => n + indexedCycles x
  | .ext _ => n + 1

/-- The cycles of an 8-bit operation (41_8bit_accumulator_memory.md R170). -/
def src8Cycles : Src8 → Nat
  | .imm _ => 2
  | .mem o => memCycles 4 o

/-- The cycles of a 16-bit operation whose immediate form takes `n` and whose direct form takes two more
(42_16bit_accumulator_memory.md R250, 43_index_stack.md R270). -/
def src16Cycles (n : Nat) : Src16 → Nat
  | .imm _ => n
  | .mem o => memCycles (n + 2) o

/-- The bytes a register list moves (43_index_stack.md R287). -/
def listBytes (l : RegList) : Nat :=
  2 * (l.pc.toNat + l.us.toNat + l.y.toNat + l.x.toNat) + (l.dp.toNat + l.b.toNat + l.a.toNat + l.cc.toNat)

/-- A long conditional branch: 5 cycles, 6 if taken (44_branches.md R310). -/
def longCycles (s : State) (c : Cond) : Nat := if c.holds s.CC then 6 else 5

/-- The MPU cycles of an instruction in a state; for CWAI and SYNC the least number, the time spent waiting not counted
(70_reset_and_hazards.md R470). -/
def cycles (i : Instr) (s : State) : Nat :=
  match i with
  | .adca o | .adcb o | .adda o | .addb o | .anda o | .andb o | .bita o | .bitb o | .cmpa o | .cmpb o
  | .eora o | .eorb o | .lda o | .ldb o | .ora o | .orb o | .sbca o | .sbcb o | .suba o | .subb o => src8Cycles o
  | .sta o | .stb o => memCycles 4 o
  | .asl o | .asr o | .clr o | .com o | .dec o | .inc o | .lsr o | .neg o | .rol o | .ror o | .tst o => memCycles 6 o
  | .asla | .aslb | .asra | .asrb | .clra | .clrb | .coma | .comb | .deca | .decb | .inca | .incb | .lsra | .lsrb
  | .nega | .negb | .rola | .rolb | .rora | .rorb | .tsta | .tstb | .daa | .sex | .nop => 2
  | .mul => 11
  | .addd o | .subd o | .cmpx o => src16Cycles 4 o
  | .cmpd o | .cmpy o | .cmpu o | .cmps o => src16Cycles 5 o
  | .ldd o | .ldx o | .ldu o => src16Cycles 3 o
  | .ldy o | .lds o => src16Cycles 4 o
  | .std o | .stx o | .stu o => memCycles 5 o
  | .sty o | .sts o => memCycles 6 o
  | .leas o | .leau o | .leax o | .leay o => 4 + indexedCycles o
  | .pshs l | .pshu l | .puls l | .pulu l => 5 + listBytes l
  | .exg _ _ => 8
  | .tfr _ _ => 6
  | .abx => 3
  | .bra _ | .brn _ | .bhi _ | .bls _ | .bhs _ | .blo _ | .bne _ | .beq _ | .bvc _ | .bvs _ | .bpl _ | .bmi _
  | .bge _ | .blt _ | .bgt _ | .ble _ => 3
  | .bsr _ => 7
  | .lbra _ | .lbrn _ => 5
  | .lbhi _ => longCycles s .hi
  | .lbls _ => longCycles s .ls
  | .lbhs _ => longCycles s .hs
  | .lblo _ => longCycles s .lo
  | .lbne _ => longCycles s .ne
  | .lbeq _ => longCycles s .eq
  | .lbvc _ => longCycles s .vc
  | .lbvs _ => longCycles s .vs
  | .lbpl _ => longCycles s .pl
  | .lbmi _ => longCycles s .mi
  | .lbge _ => longCycles s .ge
  | .lblt _ => longCycles s .lt
  | .lbgt _ => longCycles s .gt
  | .lble _ => longCycles s .le
  | .lbsr _ => 9
  | .andcc _ | .orcc _ => 3
  | .cwai _ => 20
  | .jmp o => memCycles 3 o
  | .jsr o => memCycles 7 o
  | .rti => if flagOf (s.grant.top8 .s) .E then 15 else 6
  | .rts => 5
  | .swi => 19
  | .swi2 | .swi3 => 20
  | .sync => 4

end Sys2Proof.Machine
end

