-- ==== Sys2Proof/Safety.lean ====
section
/-! DEFINITION. What the statements say of states: the machine's invariant, and when the next step runs an instruction. -/

namespace Sys2Proof.Machine

/-- Memory is in its canonical form (log 1). -/
abbrev State.MemoryCanonical (s : State) : Prop := s.mem.wf = true

/-- No NMI is latched while NMI is unarmed (10_state.md R43, decision D7). -/
abbrev State.NmiLatchOnlyArmed (s : State) : Prop := s.nmiPending = true → s.nmiArmed = true

/-- A halted MPU goes on running or in reset (60_exceptions.md R420, R425). -/
abbrev State.HaltResumes (s : State) : Prop :=
  s.run = .halted → s.resume = .running ∨ s.resume = .reset

/-- A bus grant goes on in the state it broke into (60_exceptions.md R422). -/
abbrev State.GrantResumes (s : State) : Prop :=
  s.run = .busGrant → s.resume = .running ∨ s.resume = .sync ∨ s.resume = .wait

/-- In the wait state E is set: the entire state is stacked (45_miscellaneous.md R362, 60_exceptions.md R414). -/
abbrev State.WaitStacked (s : State) : Prop :=
  s.run = .wait ∨ (s.run = .busGrant ∧ s.resume = .wait) → s.flag .E = true

/-- The machine's invariant. -/
abbrev State.Inv (s : State) : Prop :=
  s.MemoryCanonical ∧ s.NmiLatchOnlyArmed ∧ s.HaltResumes ∧ s.GrantResumes ∧ s.WaitStacked

/-- No other master takes the bus inside what runs in this state (60_exceptions.md R422; log 12). -/
abbrev State.KeepsBus (s : State) : Prop := s.grants = []

/-- The next step runs an instruction: the MPU runs, and the pins sampled stop nothing and ask for no interrupt
(60_exceptions.md R393). -/
abbrev State.RunsNext (s : State) : Prop :=
  s.run = .running ∧ s.sample.pins.res = false ∧ s.sample.pins.dma = false ∧ s.sample.pins.halt = false ∧
    s.sample.recognised = none

end Sys2Proof.Machine
end

