-- ==== Sys2Proof/Certificates/Slice0/Obligations.lean ====
section
/-! DEFINITION. The statements for the provers, and the words they are written in. -/

namespace Sys2Proof.Machine

/-! Words of the statements. -/

/-- The instruction answers a next state, and `P` holds of it. -/
abbrev Completes (i : Instr) (s : State) (P : State → Prop) : Prop := ∃ t, exec i s = .next t ∧ P t

/-- The next step of the machine answers a next state, and `P` holds of it. -/
abbrev StepsTo (s : State) (P : State → Prop) : Prop := ∃ t, step s = .next t ∧ P t

/-- Every byte of memory reads as before. -/
abbrev NoByteChanged (s t : State) : Prop := ∀ a, t.readByte a = s.readByte a

/-- The bytes `bs` are stored from address `a` up, modulo 2^16, where there is RAM; every other byte of memory reads
as before. -/
abbrev StoresBytes (s t : State) (a : Word) (bs : List Byte) : Prop :=
  ∀ b, t.readByte b =
    if (b - a).toNat < bs.length ∧ s.kindAt b = .ram then bs.getD (b - a).toNat 0 else s.readByte b

/-- The instruction itself writes no byte: memory is what the bus grants before its reads left in `s₁`, and with no grant
every byte reads as before. -/
abbrev KeepsMemory (s s₁ t : State) : Prop := NoByteChanged s₁ t ∧ (s.KeepsBus → NoByteChanged s t)

/-- The bytes `bs` are all that the instruction stores, into the memory that the bus grants up to the write left in `s₁`,
and with no grant all that changes. -/
abbrev OnlyStores (s s₁ t : State) (a : Word) (bs : List Byte) : Prop :=
  StoresBytes s₁ t a bs ∧ (s.KeepsBus → StoresBytes s t a bs)

/-- Each of these flags is as before. -/
abbrev KeepsFlags (s t : State) (fs : List Flag) : Prop := ∀ f ∈ fs, t.flag f = s.flag f

/-- N and Z from an 8-bit value. -/
abbrev NZ8 (t : State) (v : Byte) : Prop := t.flag .N = v.msb ∧ t.flag .Z = decide (v = 0)

/-- N and Z from a 16-bit value. -/
abbrev NZ16 (t : State) (v : Word) : Prop := t.flag .N = v.msb ∧ t.flag .Z = decide (v = 0)

/-- The exact signed result does not fit a byte. -/
abbrev overflows8 (x : Int) : Bool := decide (x < -128 ∨ 127 < x)

/-- The exact signed result does not fit a word. -/
abbrev overflows16 (x : Int) : Bool := decide (x < -32768 ∨ 32767 < x)

/-- The operand bytes of a memory instruction by its direct, indexed and extended opcodes. -/
abbrev EncodesMem (i : Mem → Instr) (pre : List Byte) (dir idx ext : Byte) : Prop :=
  (∀ d, encode (i (.dir d)) = pre ++ [dir, d]) ∧
  (∀ x, encode (i (.idx x)) = pre ++ idx :: encodeIndexed x) ∧
  (∀ a, encode (i (.ext a)) = pre ++ [ext, hiByte a, loByte a])

/-- The same with an 8-bit immediate opcode. -/
abbrev EncodesSrc8 (i : Src8 → Instr) (imm dir idx ext : Byte) : Prop :=
  (∀ m, encode (i (.imm m)) = [imm, m]) ∧ EncodesMem (fun o => i (.mem o)) [] dir idx ext

/-- The same with a 16-bit immediate opcode and a prefix. -/
abbrev EncodesSrc16 (i : Src16 → Instr) (pre : List Byte) (imm dir idx ext : Byte) : Prop :=
  (∀ m, encode (i (.imm m)) = pre ++ [imm, hiByte m, loByte m]) ∧ EncodesMem (fun o => i (.mem o)) pre dir idx ext

/-! 8-bit arithmetic, logic, loads and stores (41_8bit_accumulator_memory.md). -/

/-- ADD and ADC on an accumulator. -/
abbrev AddsTo (i : Src8 → Instr) (r : Acc) (withCarry : Bool) : Prop :=
  ∀ (s : State) (o : Src8),
    let m := (s.operand8 o).1
    let s₁ := (s.operand8 o).2
    let a := s.acc r
    let c := (withCarry && s.flag .C).toNat
    let sum := a.toNat + m.toNat + c
    Completes (i o) s fun t =>
      t = { s₁.setAcc r (BitVec.ofNat 8 sum) with CC := t.CC } ∧ KeepsMemory s s₁ t ∧
      NZ8 t (BitVec.ofNat 8 sum) ∧ t.flag .C = decide (256 ≤ sum) ∧
      t.flag .V = overflows8 (a.toInt + m.toInt + c) ∧
      t.flag .H = decide (16 ≤ a.toNat % 16 + m.toNat % 16 + c) ∧ KeepsFlags s t [.E, .F, .I]

/-- The flags of an 8-bit subtraction `a - m - c`; H is left open. -/
abbrev SubFlags8 (s t : State) (a m : Byte) (c : Nat) : Prop :=
  let d : Int := (a.toNat : Int) - m.toNat - c
  NZ8 t (BitVec.ofInt 8 d) ∧ t.flag .C = decide (d < 0) ∧ t.flag .V = overflows8 (a.toInt - m.toInt - c) ∧
  KeepsFlags s t [.E, .F, .I]

/-- SUB and SBC on an accumulator. -/
abbrev SubtractsFrom (i : Src8 → Instr) (r : Acc) (withBorrow : Bool) : Prop :=
  ∀ (s : State) (o : Src8),
    let m := (s.operand8 o).1
    let s₁ := (s.operand8 o).2
    let c := (withBorrow && s.flag .C).toNat
    Completes (i o) s fun t =>
      t = { s₁.setAcc r (BitVec.ofInt 8 ((s.acc r).toNat - m.toNat - c)) with CC := t.CC } ∧ KeepsMemory s s₁ t ∧
      SubFlags8 s t (s.acc r) m c

/-- CMP on an accumulator. -/
abbrev ComparesWith (i : Src8 → Instr) (r : Acc) : Prop :=
  ∀ (s : State) (o : Src8),
    let s₁ := (s.operand8 o).2
    Completes (i o) s fun t =>
      t = { s₁ with CC := t.CC } ∧ KeepsMemory s s₁ t ∧ SubFlags8 s t (s.acc r) (s.operand8 o).1 0

/-- The flags of a logical operation or a move of a byte. -/
abbrev MoveFlags8 (s t : State) (v : Byte) : Prop :=
  NZ8 t v ∧ t.flag .V = false ∧ KeepsFlags s t [.E, .F, .H, .I, .C]

/-- The flags of a move of a word. -/
abbrev MoveFlags16 (s t : State) (v : Word) : Prop :=
  NZ16 t v ∧ t.flag .V = false ∧ KeepsFlags s t [.E, .F, .H, .I, .C]

/-- AND, OR, EOR, LD on an accumulator: it becomes `f` of itself and the operand. -/
abbrev CombinesInto (i : Src8 → Instr) (r : Acc) (f : Byte → Byte → Byte) : Prop :=
  ∀ (s : State) (o : Src8),
    let v := f (s.acc r) (s.operand8 o).1
    let s₁ := (s.operand8 o).2
    Completes (i o) s fun t =>
      t = { s₁.setAcc r v with CC := t.CC } ∧ KeepsMemory s s₁ t ∧ MoveFlags8 s t v

/-- BIT on an accumulator. -/
abbrev BitTests (i : Src8 → Instr) (r : Acc) : Prop :=
  ∀ (s : State) (o : Src8),
    let s₁ := (s.operand8 o).2
    Completes (i o) s fun t =>
      t = { s₁ with CC := t.CC } ∧ KeepsMemory s s₁ t ∧ MoveFlags8 s t (s.acc r &&& (s.operand8 o).1)

/-- ST of an accumulator. -/
abbrev StoresAcc (i : Mem → Instr) (r : Acc) : Prop :=
  ∀ (s : State) (o : Mem),
    let ea := (s.resolve o).1
    let s₁ := (s.resolve o).2.grant
    Completes (i o) s fun t =>
      t = { s₁ with mem := t.mem, CC := t.CC } ∧ OnlyStores s s₁ t ea [s.acc r] ∧ MoveFlags8 s t (s.acc r)

/-! Operations on one byte of memory or one accumulator. `res` is the new byte, of the old one and C; `fl` says the
flags, of the old byte, the state before and the state after. -/

/-- The memory form: the byte is read in `s₁` and written in `s₂`, each after the bus grant that may come before the
access (20_memory.md R72). -/
abbrev ModifiesMem (i : Mem → Instr) (res : Byte → Bool → Byte) (fl : Byte → State → State → Prop) : Prop :=
  ∀ (s : State) (o : Mem),
    let ea := (s.resolve o).1
    let s₁ := (s.resolve o).2.grant
    let s₂ := s₁.grant
    let m := s₁.readByte ea
    (s.KeepsBus → m = s.readByte ea) ∧
    Completes (i o) s fun t =>
      t = { s₂ with mem := t.mem, CC := t.CC } ∧ OnlyStores s s₂ t ea [res m (s.flag .C)] ∧ fl m s t

/-- The accumulator form. -/
abbrev ModifiesAcc (i : Instr) (r : Acc) (res : Byte → Bool → Byte) (fl : Byte → State → State → Prop) : Prop :=
  ∀ s : State, Completes i s fun t =>
    t = { s.setAcc r (res (s.acc r) (s.flag .C)) with CC := t.CC } ∧ NoByteChanged s t ∧ fl (s.acc r) s t

/-- The three forms with their opcodes: memory `0x0n`, `0x6n`, `0x7n`, A `0x4n`, B `0x5n`. -/
abbrev Modifies (i : Mem → Instr) (iA iB : Instr) (n : Byte) (res : Byte → Bool → Byte)
    (fl : Byte → State → State → Prop) : Prop :=
  EncodesMem i [] n (0x60 + n) (0x70 + n) ∧ encode iA = [0x40 + n] ∧ encode iB = [0x50 + n] ∧
  ModifiesMem i res fl ∧ ModifiesAcc iA .a res fl ∧ ModifiesAcc iB .b res fl

/-- The read-modify-write instructions on memory (20_memory.md R73; LSL is ASL), each with the byte it writes, of the byte
read and C. -/
def memoryModifiers : List ((Mem → Instr) × (Byte → Bool → Byte)) :=
  [(.asl, fun m _ => BitVec.ofNat 8 (2 * m.toNat)), (.asr, fun m _ => BitVec.ofInt 8 (m.toInt / 2)),
    (.clr, fun _ _ => 0), (.com, fun m _ => BitVec.ofNat 8 (255 - m.toNat)),
    (.dec, fun m _ => BitVec.ofInt 8 ((m.toNat : Int) - 1)), (.inc, fun m _ => BitVec.ofNat 8 (m.toNat + 1)),
    (.lsr, fun m _ => BitVec.ofNat 8 (m.toNat / 2)), (.neg, fun m _ => BitVec.ofNat 8 (256 - m.toNat)),
    (.rol, fun m c => BitVec.ofNat 8 (2 * m.toNat + c.toNat)),
    (.ror, fun m c => BitVec.ofNat 8 (m.toNat / 2 + 128 * c.toNat))]

/-! 16-bit arithmetic, loads and stores (42_16bit_accumulator_memory.md, 43_index_stack.md). -/

/-- The flags of a 16-bit subtraction. -/
abbrev SubFlags16 (s t : State) (a m : Word) : Prop :=
  let d : Int := (a.toNat : Int) - m.toNat
  NZ16 t (BitVec.ofInt 16 d) ∧ t.flag .C = decide (d < 0) ∧ t.flag .V = overflows16 (a.toInt - m.toInt) ∧
  KeepsFlags s t [.E, .F, .H, .I]

/-- CMP of a 16-bit register, as it is after the addressing mode has moved its pointer register. -/
abbrev Compares16 (i : Src16 → Instr) (r : Reg16) : Prop :=
  ∀ (s : State) (o : Src16),
    let s₁ := (s.operand16 o).2
    Completes (i o) s fun t =>
      t = { s₁ with CC := t.CC } ∧ KeepsMemory s s₁ t ∧ SubFlags16 s t (s₁.reg16 r) (s.operand16 o).1

/-- LD of a 16-bit register; `put` writes it. -/
abbrev Loads16 (i : Src16 → Instr) (put : State → Word → State) : Prop :=
  ∀ (s : State) (o : Src16),
    let m := (s.operand16 o).1
    let s₁ := (s.operand16 o).2
    Completes (i o) s fun t =>
      t = { put s₁ m with CC := t.CC } ∧ KeepsMemory s s₁ t ∧ MoveFlags16 s t m

/-- ST of a 16-bit register, as it is after the addressing mode has moved its pointer register: two accesses, and with no
bus grant the two bytes stored are all that changes. -/
abbrev Stores16 (i : Mem → Instr) (get : State → Word) : Prop :=
  ∀ (s : State) (o : Mem),
    let ea := (s.resolve o).1
    let s₁ := (s.resolve o).2
    Completes (i o) s fun t =>
      t = { s₁.busWriteWord ea (get s₁) with CC := t.CC } ∧
      (s.KeepsBus → t = { s₁ with mem := t.mem, CC := t.CC } ∧
        StoresBytes s t ea [hiByte (get s₁), loByte (get s₁)]) ∧
      MoveFlags16 s t (get s₁)

/-! Stacks and interrupts. -/

/-- The bytes a push of this list leaves, from the new stack pointer up; `other` is the other stack pointer
(43_index_stack.md R286). -/
def listImage (s : State) (other : Word) (l : RegList) : List Byte :=
  (if l.cc then [s.CC] else []) ++ (if l.a then [s.A] else []) ++ (if l.b then [s.B] else []) ++
  (if l.dp then [s.DP] else []) ++ (if l.x then [hiByte s.X, loByte s.X] else []) ++
  (if l.y then [hiByte s.Y, loByte s.Y] else []) ++ (if l.us then [hiByte other, loByte other] else []) ++
  (if l.pc then [hiByte s.PC, loByte s.PC] else [])

/-- The bytes of the entire state from the new S up, with this CC (60_exceptions.md R400). -/
def entireImage (s : State) (cc : Byte) : List Byte :=
  [cc, s.A, s.B, s.DP, hiByte s.X, loByte s.X, hiByte s.Y, loByte s.Y, hiByte s.U, loByte s.U, hiByte s.PC,
    loByte s.PC]

/-- The word at a vector after the stacking, unless a device supplies it (60_exceptions.md R392, R429). -/
def vectorWord (t : State) (v : Word) : Word := t.pins.iack.getD (t.readWord v)

/-- The entire state is stacked with E set, the masks in `mask` are set, PC comes from the vector, whose fetch shows the
acknowledge code BA = 0, BS = 1 in both cycles, and the MPU runs (60_exceptions.md R400, R429). -/
abbrev EntersEntire (s t : State) (mask : Byte) (v : Word) : Prop :=
  t = { s with
        S := s.S - 12, CC := s.CC ||| 0x80 ||| mask, PC := vectorWord t v, run := .running, mem := t.mem,
        nmiPending := t.nmiPending, shown := s.shown ++ [(false, true), (false, true)] } ∧
  StoresBytes s t (s.S - 12) (entireImage s (s.CC ||| 0x80))

/-- The same for FIRQ: PC and CC are stacked with E clear, I and F are set. -/
abbrev EntersSubset (s t : State) (v : Word) : Prop :=
  t = { s with
        S := s.S - 3, CC := (s.CC &&& 0x7F) ||| 0x50, PC := vectorWord t v, run := .running, mem := t.mem,
        shown := s.shown ++ [(false, true), (false, true)] } ∧
  StoresBytes s t (s.S - 3) [s.CC &&& 0x7F, hiByte s.PC, loByte s.PC]

/-- An entry from the wait state: nothing is stacked (60_exceptions.md R414). -/
abbrev EntersStacked (s t : State) (mask : Byte) (v : Word) : Prop :=
  t = { s with
        CC := s.CC ||| mask, PC := vectorWord t v, run := .running, nmiPending := t.nmiPending,
        shown := s.shown ++ [(false, true), (false, true)] }

/-- An NMI is latched and armed at this boundary (60_exceptions.md R403). -/
abbrev State.nmiNow (s : State) : Bool := s.nmiArmed && (s.nmiPending || s.nextPins.nmiEdge)

/-- FIRQ is low and not masked (60_exceptions.md R405). -/
abbrev State.firqNow (s : State) : Bool := s.nextPins.firq && !s.flag .F

/-- IRQ is low and not masked (60_exceptions.md R404). -/
abbrev State.irqNow (s : State) : Bool := s.nextPins.irq && !s.flag .I

/-! Addressing (40_addressing_modes.md). -/

/-- Field RR of the postbyte (30_encoding.md R102). -/
def ptrField : Ptr → Nat
  | .x => 0
  | .y => 1
  | .u => 2
  | .s => 3

/-- An indexed operand: its postbyte and offset bytes, its extra cycles, and its effective address with the state it
leaves; `moved` is the state with the pointer register moved, `ea` the address before any indirection, which reads the pointer
there in two accesses. -/
abbrev IndexedIs (s : State) (x : Indexed) (pb : Nat) (extra : List Byte) (cyc : Nat) (ind : Bool) (moved : State)
    (ea : Word) : Prop :=
  encodeIndexed x = BitVec.ofNat 8 pb :: extra ∧ indexedCycles x = cyc ∧
  s.indexedEA x = (if ind then State.busReadWord { moved with temp := ea } ea else (ea, { moved with temp := ea })) ∧
  (s.KeepsBus → s.indexedEA x = (if ind then s.readWord ea else ea, { moved with temp := ea }))

/-! Branches (44_branches.md). -/

/-- A short branch: its opcode, its 3 cycles, and where PC goes. -/
abbrev ShortBranches (i : Byte → Instr) (op : Byte) (taken : State → Bool) : Prop :=
  ∀ (d : Byte) (s : State),
    encode (i d) = [op, d] ∧ cycles (i d) s = 3 ∧
    exec (i d) s = .next (if taken s then { s with PC := BitVec.ofInt 16 (s.PC.toNat + d.toInt) } else s)

/-- A long branch of page 2: its bytes, its 5 cycles or 6 if taken, and where PC goes. -/
abbrev LongBranches (i : Word → Instr) (op : Byte) (taken : State → Bool) : Prop :=
  ∀ (d : Word) (s : State),
    encode (i d) = [0x10, op, hiByte d, loByte d] ∧ cycles (i d) s = (if taken s then 6 else 5) ∧
    exec (i d) s = .next (if taken s then { s with PC := BitVec.ofNat 16 (s.PC.toNat + d.toNat) } else s)

/-- The short branch is taken exactly if `p`. -/
abbrev TakenIff (i : Byte → Instr) (t : State) (p : Prop) [Decidable p] : Prop :=
  ∀ d : Byte, exec (i d) t = .next (if p then { t with PC := BitVec.ofInt 16 (t.PC.toNat + d.toInt) } else t)

/-- The flags of `t` and the branches taken there read as these five relations of two numbers
(41_8bit_accumulator_memory.md R233). -/
abbrev BranchReading (t : State) (eq ltu leu lts les : Prop) [Decidable eq] [Decidable ltu] [Decidable leu]
    [Decidable lts] [Decidable les] : Prop :=
  (t.flag .Z = true ↔ eq) ∧ (t.flag .C = true ↔ ltu) ∧ ((t.flag .C || t.flag .Z) = true ↔ leu) ∧
  ((t.flag .N ^^ t.flag .V) = true ↔ lts) ∧ ((t.flag .Z || (t.flag .N ^^ t.flag .V)) = true ↔ les) ∧
  TakenIff .beq t eq ∧ TakenIff .bne t (¬eq) ∧ TakenIff .blo t ltu ∧ TakenIff .bhs t (¬ltu) ∧ TakenIff .bls t leu ∧
  TakenIff .bhi t (¬leu) ∧ TakenIff .blt t lts ∧ TakenIff .bge t (¬lts) ∧ TakenIff .ble t les ∧ TakenIff .bgt t (¬les)

/-- Instructions run one after another, if each answers a next state. -/
def runAll : List Instr → State → Option State
  | [], s => some s
  | i :: is, s =>
    match exec i s with
    | .next t => runAll is t
    | .fault _ => none
    | .refused _ => none

/-! Encoding (30_encoding.md). -/

/-- The 33 unused one-byte opcodes (30_encoding.md R118). -/
def unusedOpcodes : List Byte :=
  [0x01, 0x02, 0x05, 0x0B, 0x14, 0x15, 0x18, 0x1B, 0x38, 0x3E, 0x41, 0x42, 0x45, 0x4B, 0x4E, 0x51, 0x52, 0x55, 0x5B,
    0x5E, 0x61, 0x62, 0x65, 0x6B, 0x71, 0x72, 0x75, 0x7B, 0x87, 0x8F, 0xC7, 0xCD, 0xCF]

/-- The 38 second bytes defined after 0x10 (30_encoding.md R111). -/
def page2Opcodes : List Byte :=
  [0x21, 0x22, 0x23, 0x24, 0x25, 0x26, 0x27, 0x28, 0x29, 0x2A, 0x2B, 0x2C, 0x2D, 0x2E, 0x2F, 0x3F, 0x83, 0x8C, 0x8E,
    0x93, 0x9C, 0x9E, 0x9F, 0xA3, 0xAC, 0xAE, 0xAF, 0xB3, 0xBC, 0xBE, 0xBF, 0xCE, 0xDE, 0xDF, 0xEE, 0xEF, 0xFE, 0xFF]

/-- The 9 second bytes defined after 0x11 (30_encoding.md R112). -/
def page3Opcodes : List Byte := [0x3F, 0x83, 0x8C, 0x93, 0x9C, 0xA3, 0xAC, 0xB3, 0xBC]

/-- The opcode bytes are unused (30_encoding.md R118). -/
def isUnused (b0 b1 : Byte) : Bool :=
  if b0 = 0x10 then !page2Opcodes.contains b1
  else if b0 = 0x11 then !page3Opcodes.contains b1
  else unusedOpcodes.contains b0

/-- The 39 undefined indexed postbytes: mode fields 0111, 1010 and 1110, indirection by one, and 1111 but 0x9F
(30_encoding.md R103). -/
def isUndefinedPostbyte (pb : Byte) : Bool :=
  pb.getLsbD 7 &&
    ([0x7, 0xA, 0xE].contains (pb.toNat % 16) || (pb.getLsbD 4 && [0x0, 0x2].contains (pb.toNat % 16)) ||
      (pb.toNat % 16 == 0xF && pb != 0x9F))

/-- The one-byte opcodes of format IDX (30_encoding.md R95, R110). -/
def isIdxOpcode (b0 : Byte) : Bool :=
  [0x30, 0x31, 0x32, 0x33].contains b0 ||
    ([0x6, 0xA, 0xE].contains (b0.toNat / 16) && !unusedOpcodes.contains b0)

/-- The second bytes of format IDX after a prefix (30_encoding.md R111, R112). -/
def isIdxSecond (b0 b1 : Byte) : Bool :=
  (b0 == 0x10 && [0xA3, 0xAC, 0xAE, 0xAF, 0xEE, 0xEF].contains b1) || (b0 == 0x11 && [0xA3, 0xAC].contains b1)

/-- The loads of S by the program, `NmiArmSet` (10_state.md R42). -/
def loadsS : Instr → Bool
  | .lds _ => true
  | .leas _ => true
  | .tfr _ r => r == .r16 .s
  | .exg r₁ r₂ => r₁ == .r16 .s || r₂ == .r16 .s
  | .pulu l => l.us
  | _ => false

/-- The instructions that may write DP (10_state.md R27, R28). -/
def mayWriteDP : Instr → Bool
  | .tfr _ _ => true
  | .exg _ _ => true
  | .puls _ => true
  | .pulu _ => true
  | .rti => true
  | _ => false

/-- The instructions that store to memory: ST, the read-modify-write forms on memory, PSH, the subroutine calls, the
software interrupts and CWAI (20_memory.md R71, R73). -/
def mayStore : Instr → Bool
  | .sta _ => true
  | .stb _ => true
  | .std _ => true
  | .sts _ => true
  | .stu _ => true
  | .stx _ => true
  | .sty _ => true
  | .asl _ => true
  | .asr _ => true
  | .clr _ => true
  | .com _ => true
  | .dec _ => true
  | .inc _ => true
  | .lsr _ => true
  | .neg _ => true
  | .rol _ => true
  | .ror _ => true
  | .pshs _ => true
  | .pshu _ => true
  | .bsr _ => true
  | .lbsr _ => true
  | .jsr _ => true
  | .swi => true
  | .swi2 => true
  | .swi3 => true
  | .cwai _ => true
  | _ => false

/-- A number up to 99 as two decimal digits in a byte. -/
def bcd (n : Nat) : Byte := BitVec.ofNat 8 (n / 10 * 16 + n % 10)

end Sys2Proof.Machine

open Sys2Proof Sys2Proof.Machine

/-- Decoding the encoding of any well-formed instruction gives it back. Rests on 30_encoding.md, 1 Lengths and formats; 30_encoding.md, 2 Operand assembly; 30_encoding.md, 3 Opcode map. -/
def Obligations.DecodeEncodeAgree : Prop :=
  ∀ (i : Instr) (rest : List Byte), i.wellFormed = true →
    decodeBytes (encode i ++ rest) = .ok ⟨i, (encode i).length⟩

/-- What the decoder answers is well formed and has the length of its encoding. Rests on 30_encoding.md, 1 Lengths and formats; 30_encoding.md, 2 Operand assembly. -/
def Obligations.DecodedIsWellFormed : Prop :=
  ∀ (b0 b1 b2 b3 b4 : Byte) (d : Decoded), decode b0 b1 b2 b3 b4 = .ok d →
    d.instr.wellFormed = true ∧ d.len = (encode d.instr).length ∧ d.len ≤ 5

/-- Words written out in the spec decode to the instructions they stand for. Rests on 95_test_vectors.md; 43_index_stack.md, 2 Load effective address; 40_addressing_modes.md, worked example. -/
def Obligations.SampleWordsDecode : Prop :=
  decodeBytes [0x17, 0x1F, 0xFD] = .ok ⟨.lbsr 0x1FFD, 3⟩ ∧
  decodeBytes [0x7A, 0xA0, 0x00] = .ok ⟨.dec (.ext 0xA000), 3⟩ ∧
  decodeBytes [0xA6, 0x98, 0x10] = .ok ⟨.lda (.mem (.idx (.off8 .x 0x10 true))), 3⟩ ∧
  decodeBytes [0x30, 0x89, 0x01, 0xF4] = .ok ⟨.leax (.off16 .x 500 false), 4⟩ ∧
  decodeBytes [0x33, 0x56] = .ok ⟨.leau (.off5 .u (-10)), 2⟩ ∧
  decodeBytes [0x1F, 0x12] = .ok ⟨.tfr (.r16 .x) (.r16 .y), 2⟩ ∧
  decodeBytes [0x34, 0x36] =
    .ok ⟨.pshs { pc := false, us := false, y := true, x := true, dp := false, b := true, a := true, cc := false }, 2⟩ ∧
  decodeBytes [0x10, 0xA3, 0x89, 0x01, 0x2C] = .ok ⟨.cmpd (.mem (.idx (.off16 .x 300 false))), 5⟩ ∧
  decodeBytes [0xAF, 0x81] = .ok ⟨.stx (.idx (.inc2 .x false)), 2⟩

/-- The unused opcodes, and they alone, are undefined, and a step that fetches one faults. Rests on R118; 95_test_vectors.md, 2.7 Undefined encodings. The state the fault holds is log 16 and 95_test_vectors.md 2.7. -/
def Obligations.UnusedOpcodesFault : Prop :=
  unusedOpcodes.length = 33 ∧ 256 - page2Opcodes.length = 218 ∧ 256 - page3Opcodes.length = 247 ∧
  (∀ b0 b1 b2 b3 b4 : Byte, decode b0 b1 b2 b3 b4 = .error .opcode ↔ isUnused b0 b1 = true) ∧
  ∀ s : State, s.RunsNext → isUnused (s.sample.fetchByte 0) (s.sample.fetchByte 1) = true →
    let n := if s.sample.fetchByte 0 = 0x10 ∨ s.sample.fetchByte 0 = 0x11 then 2 else 1
    step s = .fault (.undefinedOpcode { State.grantN n s.sample with PC := s.PC + BitVec.ofNat 16 n })

/-- The 39 undefined indexed postbytes, and they alone, are refused; the defined ones have the stated lengths. Formalises R103, R157. -/
def Obligations.UndefinedPostbytesFault : Prop :=
  ((List.range 256).filter fun n => isUndefinedPostbyte (BitVec.ofNat 8 n)).length = 39 ∧
  (∀ pb p1 p2 : Byte, decodeIndexed pb p1 p2 = none ↔ isUndefinedPostbyte pb = true) ∧
  (∀ (pb p1 p2 : Byte) (x : Indexed) (n : Nat), decodeIndexed pb p1 p2 = some (x, n) →
    n = if pb.getLsbD 7 && [0x8, 0xC].contains (pb.toNat % 16) then 2
      else if pb.getLsbD 7 && ([0x9, 0xD].contains (pb.toNat % 16) || pb == 0x9F) then 3 else 1) ∧
  (∀ b0 pb p1 p2 p3 : Byte, isIdxOpcode b0 = true → isUndefinedPostbyte pb = true →
    decode b0 pb p1 p2 p3 = .error .postbyte) ∧
  (∀ b0 b1 pb p1 p2 : Byte, isIdxSecond b0 b1 = true → isUndefinedPostbyte pb = true →
    decode b0 b1 pb p1 p2 = .error .postbyte) ∧
  ∀ s : State, s.RunsNext →
    (isIdxOpcode (s.sample.fetchByte 0) = true → isUndefinedPostbyte (s.sample.fetchByte 1) = true →
      step s = .fault (.undefinedPostbyte { State.grantN 2 s.sample with PC := s.PC + 2 })) ∧
    (isIdxSecond (s.sample.fetchByte 0) (s.sample.fetchByte 1) = true → isUndefinedPostbyte (s.sample.fetchByte 2) = true →
      step s = .fault (.undefinedPostbyte { State.grantN 3 s.sample with PC := s.PC + 3 }))

/-- A TFR or EXG postbyte is valid exactly when both nibbles are register codes of one width. Rests on R105; 95_test_vectors.md, T248 and T249. The state the fault holds is log 16 and the vectors T248 and T249. -/
def Obligations.InvalidRegisterPairsFault : Prop :=
  (∀ pb p1 p2 p3 : Byte,
      decode 0x1E pb p1 p2 p3 =
          (match decodeReg (pb.toNat / 16), decodeReg (pb.toNat % 16) with
          | some (.r8 p), some (.r8 q) => .ok ⟨.exg (.r8 p) (.r8 q), 2⟩
          | some (.r16 p), some (.r16 q) => .ok ⟨.exg (.r16 p) (.r16 q), 2⟩
          | _, _ => .error .postbyte) ∧
        decode 0x1F pb p1 p2 p3 =
          (match decodeReg (pb.toNat / 16), decodeReg (pb.toNat % 16) with
          | some (.r8 p), some (.r8 q) => .ok ⟨.tfr (.r8 p) (.r8 q), 2⟩
          | some (.r16 p), some (.r16 q) => .ok ⟨.tfr (.r16 p) (.r16 q), 2⟩
          | _, _ => .error .postbyte)) ∧
  (∀ n < 16, decodeReg n = none ↔ n ∈ [0x6, 0x7, 0xC, 0xD, 0xE, 0xF]) ∧
  ∀ (s : State) (p : Reg8) (q : Reg16),
    exec (.tfr (.r8 p) (.r16 q)) s = .fault (.undefinedPostbyte s) ∧
    exec (.tfr (.r16 q) (.r8 p)) s = .fault (.undefinedPostbyte s) ∧
    exec (.exg (.r8 p) (.r16 q)) s = .fault (.undefinedPostbyte s) ∧
    exec (.exg (.r16 q) (.r8 p)) s = .fault (.undefinedPostbyte s) ∧
    (s.RunsNext → (s.sample.fetchByte 0 = 0x1E ∨ s.sample.fetchByte 0 = 0x1F) → s.sample.fetch = .error .postbyte →
      step s = .fault (.undefinedPostbyte { State.grantN 2 s.sample with PC := s.PC + 2 }))

/-- A step runs the instruction decoded at PC, with PC moved past its bytes. Rests on 30_encoding.md, Fetch; 10_state.md, PC; 60_exceptions.md, 1 Overview. -/
def Obligations.StepRunsDecodedInstruction : Prop :=
  ∀ (s : State) (d : Decoded), s.RunsNext → s.sample.fetch = .ok d →
    step s = exec d.instr { State.grantN d.len s.sample with PC := s.PC + BitVec.ofNat 16 d.len } ∧
    decode ((State.grantN 1 s.sample).readByte s.PC) ((State.grantN 2 s.sample).readByte (s.PC + 1))
      ((State.grantN 3 s.sample).readByte (s.PC + 2)) ((State.grantN 4 s.sample).readByte (s.PC + 3))
      ((State.grantN 5 s.sample).readByte (s.PC + 4)) = .ok d ∧
    (s.sample.KeepsBus → ∀ n, State.grantN n s.sample = s.sample)

/-- Every step keeps the invariant. Rests on 10_state.md, 3 Hidden state the ISA exposes; 20_memory.md, 1 Address space; 60_exceptions.md, 3 SYNC and CWAI states; 60_exceptions.md, 4 HALT, DMA/BREQ, MRDY. -/
def Obligations.StepKeepsInvariant : Prop :=
  ∀ s t : State, s.Inv → step s = .next t → t.Inv

/-- The state after reset meets the invariant. Rests on 10_state.md, 4 Reset values. -/
def Obligations.ResetMeetsInvariant : Prop :=
  State.reset.Inv

/-- RES low establishes the reset state; its release loads PC from 0xFFFE and runs. Rests on R450; R402; R428; R429; 70_reset_and_hazards.md, 1 Reset. The bytes of an abandoned instruction are log 13, a bus grant left by RES log 20, a device vector log 11. -/
def Obligations.ResetSequence : Prop :=
  (∀ s : State, s.nextPins.res = true → s.run ≠ .halted → StepsTo s fun t =>
      t.run = .reset ∧ t.DP = 0 ∧ t.flag .I = true ∧ t.flag .F = true ∧ t.nmiArmed = false ∧ t.nmiPending = false ∧
      (s.run ≠ .running → NoByteChanged s.sample t) ∧
      (s.run = .running → ∀ a, t.readByte a = s.sample.allGrants.readByte a ∨
        ∃ u, s.sample.boundary = .next u ∧ t.readByte a = u.allGrants.readByte a) ∧
      (s.run = .running → s.sample.KeepsBus → ∀ a, t.readByte a = s.sample.readByte a ∨
        ∃ u, s.sample.boundary = .next u ∧ t.readByte a = u.readByte a)) ∧
  ∀ s : State, s.run = .reset → s.nextPins.res = false → s.nextPins.halt = false → StepsTo s fun t =>
    t = { s.sample with
          PC := s.nextPins.iack.getD (joinBytes ((State.grantN 1 s.sample).readByte 0xFFFE)
            ((State.grantN 2 s.sample).readByte 0xFFFF)),
          run := .running, mem := (State.grantN 2 s.sample).mem, grants := (State.grantN 2 s.sample).grants,
          shown := t.shown } ∧
    (s.sample.KeepsBus → t = { s.sample with
        PC := vectorWord s.sample 0xFFFE, run := .running, shown := [(false, true), (false, true)] } ∧
      t.busCodes = [(false, true), (false, true), (false, false)])

/-- At a boundary NMI comes before FIRQ before IRQ, and the one taken is entered as the spec describes. Rests on R394; R400; R403; R404; R405; R429; 60_exceptions.md, 2 Entry. The stacking order is log 21, a device vector log 11. -/
def Obligations.HardwareInterrupts : Prop :=
  ∀ s : State, s.run = .running → s.sample.KeepsBus → s.nextPins.res = false → s.nextPins.dma = false →
      s.nextPins.halt = false →
    (s.nmiNow = true → StepsTo s fun t => EntersEntire s.sample t 0x50 0xFFFC ∧ t.nmiPending = false) ∧
    (s.nmiNow = false → s.firqNow = true → StepsTo s fun t => EntersSubset s.sample t 0xFFF6) ∧
    (s.nmiNow = false → s.firqNow = false → s.irqNow = true → StepsTo s fun t =>
      EntersEntire s.sample t 0x10 0xFFF8 ∧ t.nmiPending = s.sample.nmiPending)

/-- SWI, SWI2 and SWI3 stack the entire state with E set and go to their vectors; only SWI sets the masks. Rests on R369; R370; R371; R400; R406; R407; R408; R429. The stacking order is log 21, a device vector log 11, the codes kept in `shown` log 15. -/
def Obligations.SoftwareInterrupts : Prop :=
  (encode .swi = [0x3F] ∧ encode .swi2 = [0x10, 0x3F] ∧ encode .swi3 = [0x11, 0x3F]) ∧
  ∀ s : State, s.run = .running → s.KeepsBus →
    (cycles .swi s = 19 ∧ cycles .swi2 s = 20 ∧ cycles .swi3 s = 20) ∧
    (Completes .swi s fun t => EntersEntire s t 0x50 0xFFFA ∧ t.nmiPending = s.nmiPending) ∧
    (Completes .swi2 s fun t => EntersEntire s t 0x00 0xFFF4 ∧ t.nmiPending = s.nmiPending) ∧
    (Completes .swi3 s fun t => EntersEntire s t 0x00 0xFFF2 ∧ t.nmiPending = s.nmiPending)

/-- RTI after an interrupt entry restores what the entry stacked. Rests on 45_miscellaneous.md, RTI; 60_exceptions.md, 2 Entry. -/
def Obligations.InterruptThenReturnRestores : Prop :=
  ∀ (s h : State) (k : IntKind), s.run = .running → s.KeepsBus → h.KeepsBus →
    (∀ n : Nat, n < 12 → s.kindAt (s.S - 12 + BitVec.ofNat 16 n) = .ram) →
    h.S = (s.interrupt k).S → h.mem = (s.interrupt k).mem → h.memMap = s.memMap →
    Completes .rti h fun u =>
      if k = .firq then u = { h with CC := s.CC &&& 0x7F, PC := s.PC, S := s.S }
      else u = { h with
        CC := s.CC ||| 0x80, A := s.A, B := s.B, DP := s.DP, X := s.X, Y := s.Y, U := s.U, PC := s.PC, S := s.S }

/-- RTI pulls CC, then the rest of the entire state if the pulled E is 1, then PC. Formalises R367. -/
def Obligations.ReturnFromInterrupt : Prop :=
  encode .rti = [0x3B] ∧
  ∀ s : State, s.KeepsBus →
    cycles .rti s = (if (s.readByte s.S).getLsbD 7 then 15 else 6) ∧
    Completes .rti s fun t => NoByteChanged s t ∧
      if (s.readByte s.S).getLsbD 7 then
        t = { s with
          CC := s.readByte s.S, A := s.readByte (s.S + 1), B := s.readByte (s.S + 2), DP := s.readByte (s.S + 3),
          X := s.readWord (s.S + 4), Y := s.readWord (s.S + 6), U := s.readWord (s.S + 8),
          PC := s.readWord (s.S + 10), S := s.S + 12 }
      else t = { s with CC := s.readByte s.S, PC := s.readWord (s.S + 1), S := s.S + 3 }

/-- CWAI stacks the entire state with E set and waits; an interrupt then enters without stacking again. Rests on R362; R400; R414; R429. The stacking order is log 21, a device vector log 11, the codes kept in `shown` log 15. -/
def Obligations.WaitForInterrupt : Prop :=
  (∀ m : Byte, encode (.cwai m) = [0x3C, m]) ∧
  (∀ (m : Byte) (s : State), s.KeepsBus → 20 ≤ cycles (.cwai m) s ∧
    Completes (.cwai m) s fun t =>
      t = { s with S := s.S - 12, CC := (s.CC &&& m) ||| 0x80, run := .wait, mem := t.mem } ∧
      StoresBytes s t (s.S - 12) (entireImage s ((s.CC &&& m) ||| 0x80))) ∧
  ∀ s : State, s.run = .wait → s.sample.KeepsBus →
    (s.nextPins.res = true → StepsTo s fun t => t.run = .reset) ∧
    (s.nextPins.res = false → s.nextPins.dma = false →
      (s.nmiNow = true → StepsTo s fun t => EntersStacked s.sample t 0x50 0xFFFC ∧ t.nmiPending = false) ∧
      (s.nmiNow = false → s.firqNow = true → StepsTo s fun t =>
        EntersStacked s.sample t 0x50 0xFFF6 ∧ t.nmiPending = s.sample.nmiPending) ∧
      (s.nmiNow = false → s.firqNow = false → s.irqNow = true → StepsTo s fun t =>
        EntersStacked s.sample t 0x10 0xFFF8 ∧ t.nmiPending = s.sample.nmiPending) ∧
      (s.nmiNow = false → s.firqNow = false → s.irqNow = false → step s = .next s.sample))

/-- SYNC changes nothing but the run state; an interrupt line ends it, masked or not. Rests on R372; R400; R412; R413; R428; R429. A brief pulse is log 14, the stacking order log 21, a device vector log 11, the codes in `shown` log 15. -/
def Obligations.SyncInstructionAndState : Prop :=
  encode .sync = [0x13] ∧
  (∀ s : State, 4 ≤ cycles .sync s ∧ exec .sync s = .next { s with run := .sync }) ∧
  ∀ s : State, s.run = .sync → s.sample.KeepsBus →
    s.busStatus = (true, false) ∧
    (s.nextPins.res = true → StepsTo s fun t => t.run = .reset) ∧
    (s.nextPins.res = false → s.nextPins.dma = false →
      (s.nmiNow = true → StepsTo s fun t => EntersEntire s.sample t 0x50 0xFFFC ∧ t.nmiPending = false) ∧
      (s.nmiNow = false → s.firqNow = true →
        if s.nextPins.brief then step s = .next { s.sample with run := .running }
        else StepsTo s fun t => EntersSubset s.sample t 0xFFF6) ∧
      (s.nmiNow = false → s.firqNow = false → s.irqNow = true →
        if s.nextPins.brief then step s = .next { s.sample with run := .running }
        else StepsTo s fun t => EntersEntire s.sample t 0x10 0xFFF8 ∧ t.nmiPending = s.sample.nmiPending) ∧
      (s.nmiNow = false → s.firqNow = false → s.irqNow = false →
        step s = .next (if s.nextPins.firq || s.nextPins.irq then { s.sample with run := .running } else s.sample)))

/-- HALT and DMA/BREQ stop the MPU at a boundary and change no register; the MPU goes on where it was. Rests on 60_exceptions.md, 4 HALT, DMA/BREQ, MRDY; 60_exceptions.md, 5 Bus status outputs; 70_reset_and_hazards.md, 1 Reset; 20_memory.md, 6 Ordering. The model's choices of logs 12 and 20. -/
def Obligations.HaltAndBusGrant : Prop :=
  (∀ s : State, s.run = .running → s.busStatus = (false, false) ∧ (s.nextPins.res = false →
      (s.nextPins.dma = true →
        step s = .next { s.sample with run := .busGrant, resume := .running, mem := s.sample.masterWrites.mem }) ∧
      (s.nextPins.dma = false → s.nextPins.halt = true →
        step s = .next { s.sample with run := .halted, resume := .running, mem := s.sample.masterWrites.mem }))) ∧
  (∀ s : State, s.run = .sync ∨ s.run = .wait → s.nextPins.res = false → s.nextPins.dma = true →
      step s = .next { s.sample with run := .busGrant, resume := s.run, mem := s.sample.masterWrites.mem }) ∧
  (∀ s : State, s.run = .halted →
      s.busStatus = (true, true) ∧
      (s.nextPins.halt = true → step s = .next { s.sample with
        resume := if s.nextPins.res then .reset else s.resume, mem := s.sample.masterWrites.mem }) ∧
      (s.nextPins.halt = false → (s.nextPins.res = true ∨ s.resume = .reset) →
        StepsTo s fun t => t.run = .reset ∧ t.mem = s.mem) ∧
      (s.nextPins.halt = false → s.nextPins.res = false → s.resume = .running →
        step s = .next { s.sample with run := .running })) ∧
  (∀ s : State, s.run = .busGrant → s.nextPins.res = false →
      s.busStatus = (true, true) ∧
      (s.nextPins.dma = true → step s = .next { s.sample with mem := s.sample.masterWrites.mem }) ∧
      (s.nextPins.dma = false → step s = .next { s.sample with run := s.resume })) ∧
  (∀ s : State, s.run = .reset → s.nextPins.res = false → s.nextPins.halt = true →
      step s = .next { s.sample with run := .halted, resume := .reset, mem := s.sample.masterWrites.mem }) ∧
  ∀ s : State, s.sample.masterWrites = s.sample.otherWrites s.nextPins.busWrites ∧ s.otherWrites [] = s ∧
    ∀ (ws : List (Word × Byte)) (a : Word) (v : Byte) (b : Word),
      (s.otherWrites (ws ++ [(a, v)])).readByte b =
        if a = b ∧ s.kindAt a = .ram then v else (s.otherWrites ws).readByte b

/-- Exactly the loads of S by the program arm NMI, and no instruction disarms it. Rests on 10_state.md, 3 Hidden state the ISA exposes; 92_eei_decisions.md, D6. The set is the spec's decision D6 (log 9). -/
def Obligations.NmiArmedByLoadsOfS : Prop :=
  ∀ (i : Instr) (s t : State), exec i s = .next t → t.nmiArmed = (s.nmiArmed || loadsS i)

/-- DP is written only by TFR, EXG, PULS, PULU and RTI. Rests on 10_state.md, 1 Registers. -/
def Obligations.DirectPageWriters : Prop :=
  ∀ (i : Instr) (s t : State), exec i s = .next t → mayWriteDP i = false → t.DP = s.DP

/-- Only stores, memory read-modify-writes, pushes, calls, software interrupts and CWAI change memory. Rests on 20_memory.md, 5 Widths, atomicity, side effects; 41_8bit_accumulator_memory.md, 1 Forms, helpers and templates. -/
def Obligations.OnlyStoringInstructionsChangeMemory : Prop :=
  ∀ (i : Instr) (s t : State), exec i s = .next t → mayStore i = false →
    (∃ n, t.mem = (State.grantN n s).mem) ∧ (s.KeepsBus → t.mem = s.mem ∧ NoByteChanged s t)

/-- A running MPU goes on running after every instruction but SYNC and CWAI, and no instruction touches the pins. Rests on 10_state.md, 3 Hidden state the ISA exposes; 60_exceptions.md, 1 Overview. -/
def Obligations.OnlySyncAndCwaiStopTheMpu : Prop :=
  ∀ (i : Instr) (s t : State), exec i s = .next t →
    (s.run = .running → t.run = .running ∨ (i = .sync ∧ t.run = .sync) ∨ ∃ m, i = .cwai m ∧ t.run = .wait) ∧
    t.memMap = s.memMap ∧ t.lines = s.lines ∧ t.pins = s.pins ∧ t.nmiPending = s.nmiPending ∧
    t.resume = s.resume ∧ t.tick = s.tick

/-- The zero, constant and accumulator offset modes: postbyte, cycles, and the address. Formalises R139, R141, R142, R143, R144, R145, R146. -/
def Obligations.IndexedOffsetAddresses : Prop :=
  ∀ (s : State) (r : Ptr) (ind : Bool),
    IndexedIs s (.zero r ind) (0x84 + 32 * ptrField r + 16 * ind.toNat) [] (if ind then 3 else 0) ind s (s.ptr r) ∧
    (∀ n : BitVec 5, IndexedIs s (.off5 r n) (32 * ptrField r + n.toNat) [] 1 false s
      (BitVec.ofInt 16 ((s.ptr r).toNat + n.toInt))) ∧
    (∀ n : Byte, IndexedIs s (.off8 r n ind) (0x88 + 32 * ptrField r + 16 * ind.toNat) [n] (if ind then 4 else 1) ind s
      (BitVec.ofInt 16 ((s.ptr r).toNat + n.toInt))) ∧
    (∀ n : Word, IndexedIs s (.off16 r n ind) (0x89 + 32 * ptrField r + 16 * ind.toNat) [hiByte n, loByte n]
      (if ind then 7 else 4) ind s (BitVec.ofNat 16 ((s.ptr r).toNat + n.toNat))) ∧
    IndexedIs s (.offA r ind) (0x86 + 32 * ptrField r + 16 * ind.toNat) [] (if ind then 4 else 1) ind s
      (BitVec.ofInt 16 ((s.ptr r).toNat + s.A.toInt)) ∧
    IndexedIs s (.offB r ind) (0x85 + 32 * ptrField r + 16 * ind.toNat) [] (if ind then 4 else 1) ind s
      (BitVec.ofInt 16 ((s.ptr r).toNat + s.B.toInt)) ∧
    IndexedIs s (.offD r ind) (0x8B + 32 * ptrField r + 16 * ind.toNat) [] (if ind then 7 else 4) ind s
      (BitVec.ofNat 16 ((s.ptr r).toNat + 256 * s.A.toNat + s.B.toNat))

/-- The auto increment and decrement modes: postbyte, cycles, the address, and the pointer moved. Formalises R148, R149. -/
def Obligations.IndexedAutoAddresses : Prop :=
  ∀ (s : State) (r : Ptr) (ind : Bool),
    IndexedIs s (.inc1 r) (0x80 + 32 * ptrField r) [] 2 false (s.setPtr r (s.ptr r + 1)) (s.ptr r) ∧
    IndexedIs s (.inc2 r ind) (0x81 + 32 * ptrField r + 16 * ind.toNat) [] (if ind then 6 else 3) ind
      (s.setPtr r (s.ptr r + 2)) (s.ptr r) ∧
    IndexedIs s (.dec1 r) (0x82 + 32 * ptrField r) [] 2 false (s.setPtr r (s.ptr r - 1)) (s.ptr r - 1) ∧
    IndexedIs s (.dec2 r ind) (0x83 + 32 * ptrField r + 16 * ind.toNat) [] (if ind then 6 else 3) ind
      (s.setPtr r (s.ptr r - 2)) (s.ptr r - 2) ∧
    ∀ v : Word, (s.setPtr r v).ptr r = v ∧ (∀ q, q ≠ r → (s.setPtr r v).ptr q = s.ptr q) ∧
      s.setPtr r v = { s with X := (s.setPtr r v).X, Y := (s.setPtr r v).Y, U := (s.setPtr r v).U,
                              S := (s.setPtr r v).S }

/-- Every operand form: immediate, direct, indexed, extended, extended indirect, PC relative, and the don't-care bits of its postbyte. Rests on R132; R133; R134; R135; R137; R153; R154; R158; R66; R170; R250; 40_addressing_modes.md. That direct and extended operands write `temp` is log 4 (DEDUCED), the encoder's bits 6 and 5 log 23. -/
def Obligations.DirectExtendedAndPcRelative : Prop :=
  (∀ (s : State) (d : Byte) (a : Word),
    s.resolve (.dir d) =
      (BitVec.ofNat 16 (256 * s.DP.toNat + d.toNat), { s with temp := BitVec.ofNat 16 (256 * s.DP.toNat + d.toNat) }) ∧
    s.resolve (.ext a) = (a, { s with temp := a })) ∧
  (∀ (s : State) (x : Indexed), s.resolve (.idx x) = s.indexedEA x) ∧
  (∀ (s : State) (m : Byte) (o : Mem),
    let ea := (s.resolve o).1
    let s₁ := (s.resolve o).2
    s.operand8 (.imm m) = (m, s) ∧ s.operand8 (.mem o) = (s₁.grant.readByte ea, s₁.grant) ∧
    (s.KeepsBus → s.operand8 (.mem o) = (s.readByte ea, s₁))) ∧
  (∀ (s : State) (m : Word) (o : Mem),
    let ea := (s.resolve o).1
    let s₁ := (s.resolve o).2
    s.operand16 (.imm m) = (m, s) ∧
    s.operand16 (.mem o) =
      (joinBytes (s₁.grant.readByte ea) (s₁.grant.grant.readByte (ea + 1)), s₁.grant.grant) ∧
    (s.KeepsBus → s.operand16 (.mem o) = (joinBytes (s.readByte ea) (s.readByte (ea + 1)), s₁))) ∧
  (∀ (s : State) (ind : Bool),
      (∀ n : Byte, IndexedIs s (.pcr8 n ind) (0x8C + 16 * ind.toNat) [n] (if ind then 4 else 1) ind s
        (BitVec.ofInt 16 (s.PC.toNat + n.toInt))) ∧
      (∀ n : Word, IndexedIs s (.pcr16 n ind) (0x8D + 16 * ind.toNat) [hiByte n, loByte n] (if ind then 8 else 5) ind s
        (BitVec.ofNat 16 (s.PC.toNat + n.toNat))) ∧
      ∀ p : Word, IndexedIs s (.extInd p) 0x9F [hiByte p, loByte p] 5 true s p) ∧
  ∀ (rr : Nat) (p1 p2 : Byte) (ind : Bool), rr < 4 →
    decodeIndexed (BitVec.ofNat 8 (0x8C + 32 * rr + 16 * ind.toNat)) p1 p2 = some (.pcr8 p1 ind, 2) ∧
    decodeIndexed (BitVec.ofNat 8 (0x8D + 32 * rr + 16 * ind.toNat)) p1 p2 = some (.pcr16 (joinBytes p1 p2) ind, 3)

/-- ADDA, ADDB, ADCA, ADCB: the sum, H N Z V C from the exact sum, everything else kept. Formalises R173, R174, R175, R176. -/
def Obligations.AddInstructions : Prop :=
  EncodesSrc8 .adca 0x89 0x99 0xA9 0xB9 ∧ AddsTo .adca .a true ∧
  EncodesSrc8 .adcb 0xC9 0xD9 0xE9 0xF9 ∧ AddsTo .adcb .b true ∧
  EncodesSrc8 .adda 0x8B 0x9B 0xAB 0xBB ∧ AddsTo .adda .a false ∧
  EncodesSrc8 .addb 0xCB 0xDB 0xEB 0xFB ∧ AddsTo .addb .b false

/-- SUBA, SUBB, SBCA, SBCB: the difference, N Z V C from the exact difference, H left open. Formalises R222, R223, R226, R227. -/
def Obligations.SubtractInstructions : Prop :=
  EncodesSrc8 .suba 0x80 0x90 0xA0 0xB0 ∧ SubtractsFrom .suba .a false ∧
  EncodesSrc8 .subb 0xC0 0xD0 0xE0 0xF0 ∧ SubtractsFrom .subb .b false ∧
  EncodesSrc8 .sbca 0x82 0x92 0xA2 0xB2 ∧ SubtractsFrom .sbca .a true ∧
  EncodesSrc8 .sbcb 0xC2 0xD2 0xE2 0xF2 ∧ SubtractsFrom .sbcb .b true

/-- CMPA and CMPB: the flags of the subtraction, the accumulator and memory kept. Formalises R190, R191. -/
def Obligations.CompareInstructions : Prop :=
  EncodesSrc8 .cmpa 0x81 0x91 0xA1 0xB1 ∧ ComparesWith .cmpa .a ∧
  EncodesSrc8 .cmpb 0xC1 0xD1 0xE1 0xF1 ∧ ComparesWith .cmpb .b

/-- AND, OR, EOR and BIT on A and B: the result, N and Z from it, V = 0, C and H kept. Formalises R177, R178, R185, R186, R199, R200, R214, R215. -/
def Obligations.LogicInstructions : Prop :=
  EncodesSrc8 .anda 0x84 0x94 0xA4 0xB4 ∧ CombinesInto .anda .a (fun v m => v &&& m) ∧
  EncodesSrc8 .andb 0xC4 0xD4 0xE4 0xF4 ∧ CombinesInto .andb .b (fun v m => v &&& m) ∧
  EncodesSrc8 .eora 0x88 0x98 0xA8 0xB8 ∧ CombinesInto .eora .a (fun v m => v ^^^ m) ∧
  EncodesSrc8 .eorb 0xC8 0xD8 0xE8 0xF8 ∧ CombinesInto .eorb .b (fun v m => v ^^^ m) ∧
  EncodesSrc8 .ora 0x8A 0x9A 0xAA 0xBA ∧ CombinesInto .ora .a (fun v m => v ||| m) ∧
  EncodesSrc8 .orb 0xCA 0xDA 0xEA 0xFA ∧ CombinesInto .orb .b (fun v m => v ||| m) ∧
  EncodesSrc8 .bita 0x85 0x95 0xA5 0xB5 ∧ BitTests .bita .a ∧
  EncodesSrc8 .bitb 0xC5 0xD5 0xE5 0xF5 ∧ BitTests .bitb .b

/-- LDA, LDB, STA, STB: the byte moved, N and Z from it, V = 0, C and H kept. Formalises R204, R205, R224, R225. -/
def Obligations.LoadStoreInstructions : Prop :=
  EncodesSrc8 .lda 0x86 0x96 0xA6 0xB6 ∧ CombinesInto .lda .a (fun _ m => m) ∧
  EncodesSrc8 .ldb 0xC6 0xD6 0xE6 0xF6 ∧ CombinesInto .ldb .b (fun _ m => m) ∧
  EncodesMem .sta [] 0x97 0xA7 0xB7 ∧ StoresAcc .sta .a ∧
  EncodesMem .stb [] 0xD7 0xE7 0xF7 ∧ StoresAcc .stb .b

/-- ASL, ASR and LSR on memory, A and B: the byte doubled or halved, the bit shifted out in C. Formalises R179, R180, R181, R182, R183, R184, R207, R208, R209. -/
def Obligations.ShiftInstructions : Prop :=
  (Modifies .asl .asla .aslb 0x8 (fun m _ => BitVec.ofNat 8 (2 * m.toNat)) fun m s t =>
      NZ8 t (BitVec.ofNat 8 (2 * m.toNat)) ∧ t.flag .C = m.getLsbD 7 ∧ t.flag .V = (m.getLsbD 7 ^^ m.getLsbD 6) ∧
      KeepsFlags s t [.E, .F, .I]) ∧
  (Modifies .asr .asra .asrb 0x7 (fun m _ => BitVec.ofInt 8 (m.toInt / 2)) fun m s t =>
      NZ8 t (BitVec.ofInt 8 (m.toInt / 2)) ∧ t.flag .C = m.getLsbD 0 ∧ KeepsFlags s t [.E, .F, .I, .V]) ∧
  Modifies .lsr .lsra .lsrb 0x4 (fun m _ => BitVec.ofNat 8 (m.toNat / 2)) fun m s t =>
      t.flag .N = false ∧ t.flag .Z = decide (m.toNat / 2 = 0) ∧ t.flag .C = m.getLsbD 0 ∧
      KeepsFlags s t [.E, .F, .H, .I, .V]

/-- ROL and ROR on memory, A and B: nine bits through C. Formalises R216, R217, R218, R219, R220, R221. -/
def Obligations.RotateInstructions : Prop :=
  (Modifies .rol .rola .rolb 0x9 (fun m c => BitVec.ofNat 8 (2 * m.toNat + c.toNat)) fun m s t =>
      NZ8 t (BitVec.ofNat 8 (2 * m.toNat + (s.flag .C).toNat)) ∧ t.flag .C = m.getLsbD 7 ∧
      t.flag .V = (m.getLsbD 7 ^^ m.getLsbD 6) ∧ KeepsFlags s t [.E, .F, .H, .I]) ∧
  Modifies .ror .rora .rorb 0x6 (fun m c => BitVec.ofNat 8 (m.toNat / 2 + 128 * c.toNat)) fun m s t =>
      NZ8 t (BitVec.ofNat 8 (m.toNat / 2 + 128 * (s.flag .C).toNat)) ∧ t.flag .C = m.getLsbD 0 ∧
      KeepsFlags s t [.E, .F, .H, .I, .V]

/-- NEG and COM on memory, A and B. Formalises R192, R193, R194, R211, R212, R213. -/
def Obligations.NegateComplementInstructions : Prop :=
  (Modifies .neg .nega .negb 0x0 (fun m _ => BitVec.ofNat 8 (256 - m.toNat)) fun m s t =>
      NZ8 t (BitVec.ofNat 8 (256 - m.toNat)) ∧ t.flag .C = decide (m ≠ 0) ∧ t.flag .V = decide (m = 0x80) ∧
      KeepsFlags s t [.E, .F, .I]) ∧
  Modifies .com .coma .comb 0x3 (fun m _ => BitVec.ofNat 8 (255 - m.toNat)) fun m s t =>
      NZ8 t (BitVec.ofNat 8 (255 - m.toNat)) ∧ t.flag .V = false ∧ t.flag .C = true ∧ KeepsFlags s t [.E, .F, .H, .I]

/-- INC and DEC on memory, A and B: N, Z and V; C and H kept. Formalises R196, R197, R198, R201, R202, R203. -/
def Obligations.IncrementDecrementInstructions : Prop :=
  (Modifies .inc .inca .incb 0xC (fun m _ => BitVec.ofNat 8 (m.toNat + 1)) fun m s t =>
      NZ8 t (BitVec.ofNat 8 (m.toNat + 1)) ∧ t.flag .V = decide (m = 0x7F) ∧ KeepsFlags s t [.E, .F, .H, .I, .C]) ∧
  Modifies .dec .deca .decb 0xA (fun m _ => BitVec.ofInt 8 ((m.toNat : Int) - 1)) fun m s t =>
      NZ8 t (BitVec.ofInt 8 ((m.toNat : Int) - 1)) ∧ t.flag .V = decide (m = 0x80) ∧
      KeepsFlags s t [.E, .F, .H, .I, .C]

/-- CLR and TST on memory, A and B: zero with N Z V C = 0 1 0 0; N and Z of the byte with V = 0. Formalises R188, R189, R228, R229, R230. -/
def Obligations.ClearAndTestInstructions : Prop :=
  (Modifies .clr .clra .clrb 0xF (fun _ _ => 0) fun _ s t =>
    t.flag .N = false ∧ t.flag .Z = true ∧ t.flag .V = false ∧ t.flag .C = false ∧ KeepsFlags s t [.E, .F, .H, .I]) ∧
  EncodesMem .tst [] 0x0D 0x6D 0x7D ∧ encode .tsta = [0x4D] ∧ encode .tstb = [0x5D] ∧
  (∀ (s : State) (o : Mem),
    let ea := (s.resolve o).1
    let s₁ := (s.resolve o).2.grant
    Completes (.tst o) s fun t =>
      t = { s₁ with CC := t.CC } ∧ KeepsMemory s s₁ t ∧ MoveFlags8 s t (s₁.readByte ea) ∧
      (s.KeepsBus → s₁.readByte ea = s.readByte ea)) ∧
  ∀ s : State,
    (Completes .tsta s fun t => t = { s with CC := t.CC } ∧ MoveFlags8 s t s.A) ∧
    Completes .tstb s fun t => t = { s with CC := t.CC } ∧ MoveFlags8 s t s.B

/-- DAA adds the decimal correction; V is left open. Formalises R195. -/
def Obligations.DecimalAdjust : Prop :=
  encode .daa = [0x19] ∧
  ∀ s : State,
    let lo := s.A.toNat % 16
    let hi := s.A.toNat / 16
    let cf := (if s.flag .H = true ∨ 9 < lo then 6 else 0) +
      (if s.flag .C = true ∨ 9 < hi ∨ (8 < hi ∧ 9 < lo) then 96 else 0)
    Completes .daa s fun t =>
      t = { s with A := BitVec.ofNat 8 (s.A.toNat + cf), CC := t.CC } ∧ NZ8 t (BitVec.ofNat 8 (s.A.toNat + cf)) ∧
      t.flag .C = (s.flag .C || decide (256 ≤ s.A.toNat + cf)) ∧ KeepsFlags s t [.E, .F, .H, .I]

/-- An addition of two decimal numbers followed by DAA is the decimal sum. Rests on 41_8bit_accumulator_memory.md, DAA; 10_state.md, 2 Condition code register. -/
def Obligations.DecimalAddition : Prop :=
  ∀ (s : State) (x y : Nat), x < 100 → y < 100 → s.A = bcd x →
    (Completes (.adda (.imm (bcd y))) s fun t => Completes .daa t fun u =>
      u.A = bcd ((x + y) % 100) ∧ u.flag .C = decide (100 ≤ x + y)) ∧
    Completes (.adca (.imm (bcd y))) s fun t => Completes .daa t fun u =>
      u.A = bcd ((x + y + (s.flag .C).toNat) % 100) ∧ u.flag .C = decide (100 ≤ x + y + (s.flag .C).toNat)

/-- MUL: D takes the unsigned product of A and B; Z and C from it. Formalises R210. -/
def Obligations.Multiply : Prop :=
  encode .mul = [0x3D] ∧
  ∀ s : State, cycles .mul s = 11 ∧
    Completes .mul s fun t =>
      t = { s with A := t.A, B := t.B, CC := t.CC } ∧ t.A.toNat * 256 + t.B.toNat = s.A.toNat * s.B.toNat ∧
      t.flag .Z = decide (s.A.toNat * s.B.toNat = 0) ∧ t.flag .C = t.B.getLsbD 7 ∧
      KeepsFlags s t [.E, .F, .H, .I, .N, .V]

/-- ADDD and SUBD: D, N Z V C from the exact 16-bit result, H kept. Formalises R252, R257. -/
def Obligations.AddSubtractD : Prop :=
  EncodesSrc16 .addd [] 0xC3 0xD3 0xE3 0xF3 ∧ EncodesSrc16 .subd [] 0x83 0x93 0xA3 0xB3 ∧
  ∀ (s : State) (o : Src16),
    let m := (s.operand16 o).1
    let s₁ := (s.operand16 o).2
    (Completes (.addd o) s fun t =>
      t = { s₁ with A := t.A, B := t.B, CC := t.CC } ∧ KeepsMemory s s₁ t ∧
      t.D = BitVec.ofNat 16 (s.D.toNat + m.toNat) ∧ NZ16 t t.D ∧ t.flag .C = decide (65536 ≤ s.D.toNat + m.toNat) ∧
      t.flag .V = overflows16 (s.D.toInt + m.toInt) ∧ KeepsFlags s t [.E, .F, .H, .I]) ∧
    Completes (.subd o) s fun t =>
      t = { s₁ with A := t.A, B := t.B, CC := t.CC } ∧ KeepsMemory s s₁ t ∧
      t.D = BitVec.ofInt 16 ((s.D.toNat : Int) - m.toNat) ∧ SubFlags16 s t s.D m

/-- CMPD, CMPS, CMPU, CMPX, CMPY: the flags of the subtraction, everything else kept. Formalises R253, R271, R272, R273, R274. -/
def Obligations.Compare16Instructions : Prop :=
  EncodesSrc16 .cmpd [0x10] 0x83 0x93 0xA3 0xB3 ∧ Compares16 .cmpd .d ∧
  EncodesSrc16 .cmps [0x11] 0x8C 0x9C 0xAC 0xBC ∧ Compares16 .cmps .s ∧
  EncodesSrc16 .cmpu [0x11] 0x83 0x93 0xA3 0xB3 ∧ Compares16 .cmpu .u ∧
  EncodesSrc16 .cmpx [] 0x8C 0x9C 0xAC 0xBC ∧ Compares16 .cmpx .x ∧
  EncodesSrc16 .cmpy [0x10] 0x8C 0x9C 0xAC 0xBC ∧ Compares16 .cmpy .y

/-- LDD, LDS, LDU, LDX, LDY: the word loaded last, N and Z from it, V = 0; LDS arms NMI. Formalises R254, R275, R276, R277, R278. -/
def Obligations.Load16Instructions : Prop :=
  EncodesSrc16 .ldd [] 0xCC 0xDC 0xEC 0xFC ∧ Loads16 .ldd (fun s v => { s with A := hiByte v, B := loByte v }) ∧
  EncodesSrc16 .lds [0x10] 0xCE 0xDE 0xEE 0xFE ∧ Loads16 .lds (fun s v => { s with S := v, nmiArmed := true }) ∧
  EncodesSrc16 .ldu [] 0xCE 0xDE 0xEE 0xFE ∧ Loads16 .ldu (fun s v => { s with U := v }) ∧
  EncodesSrc16 .ldx [] 0x8E 0x9E 0xAE 0xBE ∧ Loads16 .ldx (fun s v => { s with X := v }) ∧
  EncodesSrc16 .ldy [0x10] 0x8E 0x9E 0xAE 0xBE ∧ Loads16 .ldy (fun s v => { s with Y := v })

/-- STD, STS, STU, STX, STY: the word stored high byte first, N and Z from it, V = 0. Formalises R256, R291, R292, R293, R294. -/
def Obligations.Store16Instructions : Prop :=
  EncodesMem .std [] 0xDD 0xED 0xFD ∧ Stores16 .std (fun s => s.D) ∧
  EncodesMem .sts [0x10] 0xDF 0xEF 0xFF ∧ Stores16 .sts (fun s => s.S) ∧
  EncodesMem .stu [] 0xDF 0xEF 0xFF ∧ Stores16 .stu (fun s => s.U) ∧
  EncodesMem .stx [] 0x9F 0xAF 0xBF ∧ Stores16 .stx (fun s => s.X) ∧
  EncodesMem .sty [0x10] 0x9F 0xAF 0xBF ∧ Stores16 .sty (fun s => s.Y)

/-- SEX extends the sign of B into A; ABX adds B to X unsigned. Formalises R255, R298. -/
def Obligations.SignExtendAndAbx : Prop :=
  encode .sex = [0x1D] ∧ encode .abx = [0x3A] ∧
  ∀ s : State,
    (Completes .sex s fun t =>
      t = { s with A := (if s.B.getLsbD 7 then 0xFF else 0x00), CC := t.CC } ∧ t.D.toInt = s.B.toInt ∧ NZ16 t t.D ∧
      KeepsFlags s t [.E, .F, .H, .I, .C]) ∧
    cycles .abx s = 3 ∧ exec .abx s = .next { s with X := BitVec.ofNat 16 (s.X.toNat + s.B.toNat) }

/-- LEAS, LEAU, LEAX, LEAY: the address itself is loaded last; only LEAX and LEAY write Z. Rests on R279; R280; R281; R282; R283; 92_eei_decisions.md, D6. That LEAS arms NMI is decision D6 (log 9). -/
def Obligations.LoadEffectiveAddress : Prop :=
  (∀ x, encode (.leax x) = 0x30 :: encodeIndexed x) ∧ (∀ x, encode (.leay x) = 0x31 :: encodeIndexed x) ∧
  (∀ x, encode (.leas x) = 0x32 :: encodeIndexed x) ∧ (∀ x, encode (.leau x) = 0x33 :: encodeIndexed x) ∧
  (∀ (s : State) (x : Indexed),
    let ea := (s.indexedEA x).1
    let s₁ := (s.indexedEA x).2
    (Completes (.leas x) s fun t => t = { s₁ with S := ea, nmiArmed := true } ∧ KeepsMemory s s₁ t) ∧
    (Completes (.leau x) s fun t => t = { s₁ with U := ea } ∧ KeepsMemory s s₁ t) ∧
    (Completes (.leax x) s fun t => t = { s₁ with X := ea, CC := t.CC } ∧ KeepsMemory s s₁ t ∧
      t.flag .Z = decide (ea = 0) ∧ KeepsFlags s t [.E, .F, .H, .I, .N, .V, .C]) ∧
    Completes (.leay x) s fun t => t = { s₁ with Y := ea, CC := t.CC } ∧ KeepsMemory s s₁ t ∧
      t.flag .Z = decide (ea = 0) ∧ KeepsFlags s t [.E, .F, .H, .I, .N, .V, .C]) ∧
  ∀ s : State, (Completes (.leax (.inc1 .x)) s fun t => t.X = s.X) ∧ Completes (.leax (.dec1 .x)) s fun t => t.X = s.X - 1

/-- PSHS and PSHU: the listed registers in the fixed order below the pointer; nothing else changes. Formalises R106, R287, R288. -/
def Obligations.PushInstructions : Prop :=
  (∀ l, encode (.pshs l) = [0x34, encodeRegList l] ∧ encode (.puls l) = [0x35, encodeRegList l] ∧
      encode (.pshu l) = [0x36, encodeRegList l] ∧ encode (.pulu l) = [0x37, encodeRegList l]) ∧
  (∀ l, (encodeRegList l).getLsbD 7 = l.pc ∧ (encodeRegList l).getLsbD 6 = l.us ∧ (encodeRegList l).getLsbD 5 = l.y ∧
      (encodeRegList l).getLsbD 4 = l.x ∧ (encodeRegList l).getLsbD 3 = l.dp ∧ (encodeRegList l).getLsbD 2 = l.b ∧
      (encodeRegList l).getLsbD 1 = l.a ∧ (encodeRegList l).getLsbD 0 = l.cc) ∧
  ∀ (s : State) (l : RegList), s.KeepsBus →
    (cycles (.pshs l) s = 5 + (listImage s s.U l).length ∧
      Completes (.pshs l) s fun t =>
        t = { s with S := s.S - BitVec.ofNat 16 (listImage s s.U l).length, mem := t.mem } ∧
        StoresBytes s t (s.S - BitVec.ofNat 16 (listImage s s.U l).length) (listImage s s.U l)) ∧
    cycles (.pshu l) s = 5 + (listImage s s.S l).length ∧
    Completes (.pshu l) s fun t =>
      t = { s with U := s.U - BitVec.ofNat 16 (listImage s s.S l).length, mem := t.mem } ∧
      StoresBytes s t (s.U - BitVec.ofNat 16 (listImage s s.S l).length) (listImage s s.S l)

/-- PULS and PULU: the listed registers from the pointer upward in the fixed order; PULU of S arms NMI (decision D6). Rests on R289; R290; 92_eei_decisions.md, D6. That PULU of S arms NMI is decision D6 (log 9). -/
def Obligations.PullInstructions : Prop :=
  (∀ l, encode (.puls l) = [0x35, encodeRegList l] ∧ encode (.pulu l) = [0x37, encodeRegList l]) ∧
  ∀ (s : State) (l : RegList), s.KeepsBus →
    let byteAt (p : Word) (k : Nat) := s.readByte (p + BitVec.ofNat 16 k)
    let wordAt (p : Word) (k : Nat) := s.readWord (p + BitVec.ofNat 16 k)
    let oA := l.cc.toNat
    let oB := oA + l.a.toNat
    let oDP := oB + l.b.toNat
    let oX := oDP + l.dp.toNat
    let oY := oX + 2 * l.x.toNat
    let oUS := oY + 2 * l.y.toNat
    let oPC := oUS + 2 * l.us.toNat
    let n := oPC + 2 * l.pc.toNat
    (Completes (.puls l) s fun t => NoByteChanged s t ∧
      t = { s with
        CC := (if l.cc then byteAt s.S 0 else s.CC), A := (if l.a then byteAt s.S oA else s.A),
        B := (if l.b then byteAt s.S oB else s.B), DP := (if l.dp then byteAt s.S oDP else s.DP),
        X := (if l.x then wordAt s.S oX else s.X), Y := (if l.y then wordAt s.S oY else s.Y),
        U := (if l.us then wordAt s.S oUS else s.U), PC := (if l.pc then wordAt s.S oPC else s.PC),
        S := s.S + BitVec.ofNat 16 n }) ∧
    Completes (.pulu l) s fun t => NoByteChanged s t ∧
      t = { s with
        CC := (if l.cc then byteAt s.U 0 else s.CC), A := (if l.a then byteAt s.U oA else s.A),
        B := (if l.b then byteAt s.U oB else s.B), DP := (if l.dp then byteAt s.U oDP else s.DP),
        X := (if l.x then wordAt s.U oX else s.X), Y := (if l.y then wordAt s.U oY else s.Y),
        S := (if l.us then wordAt s.U oUS else s.S), PC := (if l.pc then wordAt s.U oPC else s.PC),
        U := s.U + BitVec.ofNat 16 n, nmiArmed := s.nmiArmed || l.us }

/-- TFR between any two registers of one width: the destination takes the source, nothing else changes. Rests on R104; R295; R297; 92_eei_decisions.md, D6. Arming NMI is decision D6 (log 9). -/
def Obligations.TransferInstruction : Prop :=
  (∀ p q, encode (.tfr p q) = [0x1F, BitVec.ofNat 8 (16 * (encodeReg p).toNat + (encodeReg q).toNat)]) ∧
  ([Reg.r16 .d, .r16 .x, .r16 .y, .r16 .u, .r16 .s, .r16 .pc, .r8 .a, .r8 .b, .r8 .cc, .r8 .dp].map encodeReg =
    [0x0, 0x1, 0x2, 0x3, 0x4, 0x5, 0x8, 0x9, 0xA, 0xB]) ∧
  (∀ (s : State) (p q : Reg8), cycles (.tfr (.r8 p) (.r8 q)) s = 6 ∧
    Completes (.tfr (.r8 p) (.r8 q)) s fun t =>
      t.reg8 q = s.reg8 p ∧ (∀ r, r ≠ q → t.reg8 r = s.reg8 r) ∧ NoByteChanged s t ∧
      t = { s with A := t.A, B := t.B, CC := t.CC, DP := t.DP }) ∧
  ∀ (s : State) (p q : Reg16), cycles (.tfr (.r16 p) (.r16 q)) s = 6 ∧
    Completes (.tfr (.r16 p) (.r16 q)) s fun t =>
      t.reg16 q = s.reg16 p ∧ (∀ r, r ≠ q → t.reg16 r = s.reg16 r) ∧ NoByteChanged s t ∧
      t = { s with A := t.A, B := t.B, X := t.X, Y := t.Y, U := t.U, S := t.S, PC := t.PC,
                   nmiArmed := s.nmiArmed || q == .s }

/-- EXG of any two registers of one width: each takes the other's value, nothing else changes. Rests on R295; R296; 92_eei_decisions.md, D6. Arming NMI is decision D6 (log 9). -/
def Obligations.ExchangeInstruction : Prop :=
  (∀ p q, encode (.exg p q) = [0x1E, BitVec.ofNat 8 (16 * (encodeReg p).toNat + (encodeReg q).toNat)]) ∧
  (∀ (s : State) (p q : Reg8), cycles (.exg (.r8 p) (.r8 q)) s = 8 ∧
    exec (.exg (.r8 p) (.r8 q)) s = exec (.exg (.r8 q) (.r8 p)) s ∧
    Completes (.exg (.r8 p) (.r8 q)) s fun t =>
      t.reg8 q = s.reg8 p ∧ t.reg8 p = s.reg8 q ∧ (∀ r, r ≠ p → r ≠ q → t.reg8 r = s.reg8 r) ∧ NoByteChanged s t ∧
      t = { s with A := t.A, B := t.B, CC := t.CC, DP := t.DP }) ∧
  ∀ (s : State) (p q : Reg16), cycles (.exg (.r16 p) (.r16 q)) s = 8 ∧
    exec (.exg (.r16 p) (.r16 q)) s = exec (.exg (.r16 q) (.r16 p)) s ∧
    Completes (.exg (.r16 p) (.r16 q)) s fun t =>
      t.reg16 q = s.reg16 p ∧ t.reg16 p = s.reg16 q ∧ (∀ r, r ≠ p → r ≠ q → t.reg16 r = s.reg16 r) ∧
      NoByteChanged s t ∧
      t = { s with A := t.A, B := t.B, X := t.X, Y := t.Y, U := t.U, S := t.S, PC := t.PC,
                   nmiArmed := s.nmiArmed || p == .s || q == .s }

/-- BRA BRN BHI BLS BHS BLO BNE BEQ: taken as the flags say, PC plus the signed offset, nothing else changes. Formalises R312, R313, R314, R315, R316, R317, R318, R319. -/
def Obligations.ShortBranchesUnsignedAndSimple : Prop :=
  ShortBranches .bra 0x20 (fun _ => true) ∧
  ShortBranches .brn 0x21 (fun _ => false) ∧
  ShortBranches .bhi 0x22 (fun s => !(s.flag .C || s.flag .Z)) ∧
  ShortBranches .bls 0x23 (fun s => s.flag .C || s.flag .Z) ∧
  ShortBranches .bhs 0x24 (fun s => !s.flag .C) ∧
  ShortBranches .blo 0x25 (fun s => s.flag .C) ∧
  ShortBranches .bne 0x26 (fun s => !s.flag .Z) ∧
  ShortBranches .beq 0x27 (fun s => s.flag .Z)

/-- BVC BVS BPL BMI BGE BLT BGT BLE: taken as the flags say, PC plus the signed offset, nothing else changes. Formalises R320, R321, R322, R323, R324, R325, R326, R327. -/
def Obligations.ShortBranchesSigned : Prop :=
  ShortBranches .bvc 0x28 (fun s => !s.flag .V) ∧
  ShortBranches .bvs 0x29 (fun s => s.flag .V) ∧
  ShortBranches .bpl 0x2A (fun s => !s.flag .N) ∧
  ShortBranches .bmi 0x2B (fun s => s.flag .N) ∧
  ShortBranches .bge 0x2C (fun s => s.flag .N == s.flag .V) ∧
  ShortBranches .blt 0x2D (fun s => s.flag .N != s.flag .V) ∧
  ShortBranches .bgt 0x2E (fun s => !s.flag .Z && s.flag .N == s.flag .V) ∧
  ShortBranches .ble 0x2F (fun s => s.flag .Z || s.flag .N != s.flag .V)

/-- LBRA LBRN LBHI LBLS LBHS LBLO LBNE LBEQ: taken as the flags say, PC plus the 16-bit offset, nothing else changes. Formalises R329, R330, R331, R332, R333, R334, R335, R336. -/
def Obligations.LongBranchesUnsignedAndSimple : Prop :=
  (∀ (d : Word) (s : State), encode (.lbra d) = [0x16, hiByte d, loByte d] ∧ cycles (.lbra d) s = 5 ∧
    exec (.lbra d) s = .next { s with PC := BitVec.ofNat 16 (s.PC.toNat + d.toNat) }) ∧
  (∀ (d : Word) (s : State), encode (.lbrn d) = [0x10, 0x21, hiByte d, loByte d] ∧ cycles (.lbrn d) s = 5 ∧
    exec (.lbrn d) s = .next s) ∧
  LongBranches .lbhi 0x22 (fun s => !(s.flag .C || s.flag .Z)) ∧
  LongBranches .lbls 0x23 (fun s => s.flag .C || s.flag .Z) ∧
  LongBranches .lbhs 0x24 (fun s => !s.flag .C) ∧
  LongBranches .lblo 0x25 (fun s => s.flag .C) ∧
  LongBranches .lbne 0x26 (fun s => !s.flag .Z) ∧
  LongBranches .lbeq 0x27 (fun s => s.flag .Z)

/-- LBVC LBVS LBPL LBMI LBGE LBLT LBGT LBLE: taken as the flags say, PC plus the 16-bit offset, nothing else changes. Formalises R337, R338, R339, R340, R341, R342, R343, R344. -/
def Obligations.LongBranchesSigned : Prop :=
  LongBranches .lbvc 0x28 (fun s => !s.flag .V) ∧
  LongBranches .lbvs 0x29 (fun s => s.flag .V) ∧
  LongBranches .lbpl 0x2A (fun s => !s.flag .N) ∧
  LongBranches .lbmi 0x2B (fun s => s.flag .N) ∧
  LongBranches .lbge 0x2C (fun s => s.flag .N == s.flag .V) ∧
  LongBranches .lblt 0x2D (fun s => s.flag .N != s.flag .V) ∧
  LongBranches .lbgt 0x2E (fun s => !s.flag .Z && s.flag .N == s.flag .V) ∧
  LongBranches .lble 0x2F (fun s => s.flag .Z || s.flag .N != s.flag .V)

/-- BSR, LBSR, JSR push the return address and jump; JMP jumps; RTS pulls PC. Formalises R328, R345, R365, R366, R368. -/
def Obligations.SubroutineCallsAndReturns : Prop :=
  (∀ d, encode (.bsr d) = [0x8D, d]) ∧ (∀ d, encode (.lbsr d) = [0x17, hiByte d, loByte d]) ∧
  EncodesMem .jmp [] 0x0E 0x6E 0x7E ∧ EncodesMem .jsr [] 0x9D 0xAD 0xBD ∧ encode .rts = [0x39] ∧
  (∀ (s : State) (d : Byte), s.KeepsBus → cycles (.bsr d) s = 7 ∧
    Completes (.bsr d) s fun t =>
      t = { s with S := s.S - 2, PC := BitVec.ofInt 16 (s.PC.toNat + d.toInt), mem := t.mem } ∧
      StoresBytes s t (s.S - 2) [hiByte s.PC, loByte s.PC]) ∧
  (∀ (s : State) (d : Word), s.KeepsBus → cycles (.lbsr d) s = 9 ∧
    Completes (.lbsr d) s fun t =>
      t = { s with S := s.S - 2, PC := BitVec.ofNat 16 (s.PC.toNat + d.toNat), mem := t.mem } ∧
      StoresBytes s t (s.S - 2) [hiByte s.PC, loByte s.PC]) ∧
  (∀ (s : State) (o : Mem),
    let ea := (s.resolve o).1
    let s₁ := (s.resolve o).2
    (Completes (.jmp o) s fun t => t = { s₁ with PC := ea } ∧ KeepsMemory s s₁ t) ∧
    (s.KeepsBus → Completes (.jsr o) s fun t =>
      t = { s₁ with S := s₁.S - 2, PC := ea, mem := t.mem } ∧
      StoresBytes s t (s₁.S - 2) [hiByte s.PC, loByte s.PC])) ∧
  ∀ s : State, s.KeepsBus → cycles .rts s = 5 ∧
    Completes .rts s fun t => t = { s with PC := s.readWord s.S, S := s.S + 2 } ∧ NoByteChanged s t

/-- ANDCC and ORCC write all eight flags; NOP changes nothing. Formalises R361, R363, R364. -/
def Obligations.ConditionCodeInstructions : Prop :=
  encode .nop = [0x12] ∧ (∀ m, encode (.andcc m) = [0x1C, m]) ∧ (∀ m, encode (.orcc m) = [0x1A, m]) ∧
  ∀ (s : State) (m : Byte),
    cycles .nop s = 2 ∧ exec .nop s = .next s ∧
    (Completes (.andcc m) s fun t => t = { s with CC := t.CC } ∧ ∀ f, t.flag f = (s.flag f && m.getLsbD f.bit)) ∧
    Completes (.orcc m) s fun t => t = { s with CC := t.CC } ∧ ∀ f, t.flag f = (s.flag f || m.getLsbD f.bit)

/-- D is A and B. Formalises R22. -/
def Obligations.DRegisterIsAAndB : Prop :=
  ∀ (s : State) (v : Word),
    s.D.toNat = 256 * s.A.toNat + s.B.toNat ∧ (s.setD v).A.toNat = v.toNat / 256 ∧ (s.setD v).B.toNat = v.toNat % 256 ∧
    (s.setD v).D = v ∧ s.setD v = { s with A := (s.setD v).A, B := (s.setD v).B }

/-- Add8 and Sub8 are exact with their carries and borrows; Sub8 is Add8 of the complement with the opposite C. Formalises R231, R232. -/
def Obligations.AdditionAndSubtractionLaws : Prop :=
  (∀ (a b : Byte) (c : Bool),
    add8 a b c = add8 b a c ∧
    256 * (add8 a b c).c.toNat + (add8 a b c).r.toNat = a.toNat + b.toNat + c.toNat ∧
    16 * (add8 a b c).h.toNat + (add8 a b c).r.toNat % 16 = a.toNat % 16 + b.toNat % 16 + c.toNat ∧
    ((add8 a b c).v = true ↔ a.toInt + b.toInt + c.toNat < -128 ∨ 127 < a.toInt + b.toInt + c.toNat)) ∧
  ∀ (a b : Byte) (c draw : Bool),
    let x := sub8 a b c draw
    let y := add8 a (b ^^^ 0xFF) (!c)
    x.r = y.r ∧ x.n = y.n ∧ x.z = y.z ∧ x.v = y.v ∧ x.c = !y.c ∧
    (a.toNat : Int) - b.toNat - c.toNat = x.r.toNat - 256 * x.c.toNat ∧
    (x.v = true ↔ a.toInt - b.toInt - c.toNat < -128 ∨ 127 < a.toInt - b.toInt - c.toNat)

/-- Another master can take the bus between any two byte accesses: words tear, and no read-modify-write is indivisible. Rests on R72; R76; R78; R422; R423; R466; 60_exceptions.md, 4 HALT, DMA/BREQ, MRDY. How grants are presented is log 12. -/
def Obligations.BusGrantsInsideInstructions : Prop :=
  (∀ s : State, (s.grants = [] → s.grant = s) ∧ (∀ gs, s.grants = none :: gs → s.grant = { s with grants := gs }) ∧
      ∀ ws gs, s.grants = some ws :: gs →
        s.grant = { s with grants := gs, shown := s.shown ++ [(true, true)], mem := (s.otherWrites ws).mem }) ∧
  (∀ s : State, s.sample.grants = s.nextPins.grants ∧ s.sample.shown = []) ∧
  (∀ (s : State) (a v : Word) (x : Byte),
      s.busRead a = (s.grant.readByte a, s.grant) ∧ s.busWrite a x = s.grant.writeByte a x ∧
      s.busReadWord a = (joinBytes (s.grant.readByte a) (s.grant.grant.readByte (a + 1)), s.grant.grant) ∧
      s.busWriteWord a v = (s.grant.writeByte a (hiByte v)).grant.writeByte (a + 1) (loByte v)) ∧
  (∀ (i : Instr) (s : State), i.wellFormed = true → Completes i s fun _ => True) ∧
  (∀ p ∈ memoryModifiers, ∀ (s : State) (o : Mem) (x : Byte),
    let ea := (s.resolve o).1
    let s₁ := (s.resolve o).2
    s.kindAt ea = .ram →
      (s₁.grants = [none, some [(ea, x)]] →
        Completes (p.1 o) s fun t => t.readByte ea = p.2 (s₁.readByte ea) (s.flag .C)) ∧
      (s₁.grants = [some [(ea, x)]] → Completes (p.1 o) s fun t => t.readByte ea = p.2 x (s.flag .C))) ∧
  ∀ (s : State) (a : Word) (x y : Byte), s.kindAt a = .ram →
    (s.kindAt (a + 1) = .ram → s.grants = [none, some [(a, x), (a + 1, y)]] →
      Completes (.ldd (.mem (.ext a))) s fun t => t.A = s.readByte a ∧ t.B = y ∧ t.readByte a = x ∧
        t.shown = s.shown ++ [(true, true)]) ∧
    (s.grants = [none, some [(a, x)]] → Completes (.std (.ext a)) s fun t => t.readByte a = x) ∧
    (s.run = .running → s.S = a + 1 → s.grants = [none, some [(a, x)]] → Completes .swi s fun t =>
      t.readByte a = x ∧ t.shown = s.shown ++ [(true, true), (false, true), (false, true)])

/-- After a compare or subtraction the branches read as the unsigned and signed orders. Formalises R233. -/
def Obligations.BranchReadingOfCompares : Prop :=
  (∀ (s : State) (o : Src8), ∀ i ∈ [Instr.cmpa o, .suba o],
      Completes i s fun t => BranchReading t ((s.operand8 o).1 = s.A) (s.A < (s.operand8 o).1) (s.A ≤ (s.operand8 o).1)
        (s.A.toInt < (s.operand8 o).1.toInt) (s.A.toInt ≤ (s.operand8 o).1.toInt)) ∧
  (∀ (s : State) (o : Src8), ∀ i ∈ [Instr.cmpb o, .subb o],
      Completes i s fun t => BranchReading t ((s.operand8 o).1 = s.B) (s.B < (s.operand8 o).1) (s.B ≤ (s.operand8 o).1)
        (s.B.toInt < (s.operand8 o).1.toInt) (s.B.toInt ≤ (s.operand8 o).1.toInt)) ∧
  ∀ (s : State) (o : Src16), ∀ p ∈ [(Instr.cmpd o, Reg16.d), (.cmpx o, .x), (.cmpy o, .y), (.cmpu o, .u), (.cmps o, .s)],
    let m := (s.operand16 o).1
    let v := (s.operand16 o).2.reg16 p.2
    Completes p.1 s fun t => BranchReading t (m = v) (v < m) (v ≤ m) (v.toInt < m.toInt) (v.toInt ≤ m.toInt)

/-- Nine ROLA or nine RORA restore A and C; LSRA then ROLA restores A. Formalises R235. -/
def Obligations.RotateLaws : Prop :=
  ∀ s : State,
    (∃ t, runAll (List.replicate 9 .rola) s = some t ∧ t.A = s.A ∧ t.flag .C = s.flag .C) ∧
    (∃ t, runAll (List.replicate 9 .rora) s = some t ∧ t.A = s.A ∧ t.flag .C = s.flag .C) ∧
    (∃ t, runAll [.lsra, .rola] s = some t ∧ t.A = s.A) ∧
    (∀ i ∈ [Instr.asla, .rola], ∃ t, exec i s = .next t ∧ ∀ n : Nat, n < 7 → t.A.getLsbD (n + 1) = s.A.getLsbD n) ∧
    (∀ i ∈ [Instr.asra, .lsra, .rora], ∃ t, exec i s = .next t ∧ ∀ n : Nat, n < 7 → t.A.getLsbD n = s.A.getLsbD (n + 1))

/-- A byte stored by STA is the high byte of LDD there and the low byte of LDD one address lower. Formalises R68. -/
def Obligations.MixedWidthAccesses : Prop :=
  ∀ (s : State) (a : Word), s.KeepsBus → s.kindAt a = .ram →
    Completes (.sta (.ext a)) s fun t =>
      (Completes (.ldd (.mem (.ext a))) t fun u => u.A = s.A) ∧
      Completes (.ldd (.mem (.ext (a - 1)))) t fun u => u.B = s.A

/-- Complementary branches, branches by 0, and BSR against JSR. Rests on 44_branches.md, 3 Laws and conventions. -/
def Obligations.BranchLaws : Prop :=
  (∀ s : State, ∀ p ∈ [(Instr.bra, Instr.brn), (.bhi, .bls), (.bhs, .blo), (.bne, .beq), (.bvc, .bvs), (.bpl, .bmi),
      (.bge, .blt), (.bgt, .ble)],
    (exec (p.1 0) s = .next s ∧ exec (p.2 0) s = .next s) ∧
    ∀ d : Byte, d ≠ 0 → (exec (p.1 d) s = .next s ↔ exec (p.2 d) s ≠ .next s)) ∧
  ∀ (s : State) (d : Byte),
    Completes (.bsr d) s fun t => Completes (.jsr (.ext (BitVec.ofInt 16 (s.PC.toNat + d.toInt)))) s fun u =>
      t = { u with temp := s.temp }
end

