-- ==== Sys2Proof/Laws/Decode.lean ====
section
/-! SUPPORT. The 5-bit offset of indexed addressing: which postbytes it has, and that it has no indirect form. -/

namespace Sys2Proof

open Sys2Proof.Machine

/-- With bit 7 clear, bits 4 to 0 of a postbyte are the offset, whatever bytes follow (30_encoding.md R102, R122). -/
theorem decodeIndexed_of_bit7_clear {pb : Byte} (h : pb.getLsbD 7 = false) (p1 p2 : Byte) :
    decodeIndexed pb p1 p2 = some (.off5 (decodePtr pb) (pb.extractLsb' 0 5), 1) := by
  simp only [decodeIndexed, h, if_true]

/-- A postbyte is a 5-bit offset exactly when its bit 7 is clear, whatever its bit 4 (30_encoding.md R102, R122). -/
theorem decodeIndexed_off5_iff (pb p1 p2 : Byte) :
    (∃ r n k, decodeIndexed pb p1 p2 = some (.off5 r n, k)) ↔ pb.getLsbD 7 = false := by
  constructor
  · rintro ⟨r, n, k, h⟩
    by_contra h7
    simp only [decodeIndexed, h7, if_false] at h
    repeat' split at h
    all_goals simp at h
  · exact fun h7 => ⟨_, _, _, decodeIndexed_of_bit7_clear h7 p1 p2⟩

/-- A small offset in brackets is encoded as the 8-bit indirect form: two bytes, bit 7 of the postbyte set
(30_encoding.md R122). -/
theorem decodeIndexed_off8_indirect (r : Ptr) (n p2 : Byte) :
    encodeIndexed (.off8 r n true) = [0x98 ||| encodePtr r, n] ∧
      decodeIndexed (0x98 ||| encodePtr r) n p2 = some (.off8 r n true, 2) := by
  cases r <;> exact ⟨rfl, rfl⟩

/-- The address of a 5-bit offset is the pointer plus the offset; no pointer is read from memory
(40_addressing_modes.md R141; 30_encoding.md R122). -/
theorem Machine.State.indexedEA_off5 (s : State) (r : Ptr) (n : BitVec 5) :
    s.indexedEA (.off5 r n) = (s.ptr r + sext5 n, s.setTemp (s.ptr r + sext5 n)) := rfl

end Sys2Proof
end

