-- ==== Sys2Proof/Laws/Flags.lean ====
section
/-! SUPPORT. What one condition code reads after another is written, and what each flag function writes. -/

namespace Sys2Proof.Machine

/-- The basic law of CC: a flag written is read back, and every other flag is kept. -/
@[simp] theorem flagOf_putFlag (cc : Byte) (f g : Flag) (b : Bool) :
    flagOf (putFlag cc f b) g = if f = g then b else flagOf cc g := by
  cases f <;> cases g <;> cases b <;> simp [flagOf, putFlag, Flag.bit]

theorem flagOf_and (cc m : Byte) (f : Flag) : flagOf (cc &&& m) f = (flagOf cc f && flagOf m f) := by
  simp [flagOf]

theorem flagOf_or (cc m : Byte) (f : Flag) : flagOf (cc ||| m) f = (flagOf cc f || flagOf m f) := by
  simp [flagOf]

/-- CC is its eight flags. -/
theorem cc_ext {c d : Byte} (h : ∀ f, flagOf c f = flagOf d f) : c = d := by
  apply BitVec.eq_of_getLsbD_eq
  intro i hi
  have : i = 0 ∨ i = 1 ∨ i = 2 ∨ i = 3 ∨ i = 4 ∨ i = 5 ∨ i = 6 ∨ i = 7 := by omega
  rcases this with rfl | rfl | rfl | rfl | rfl | rfl | rfl | rfl
  · exact h .C
  · exact h .V
  · exact h .Z
  · exact h .N
  · exact h .I
  · exact h .H
  · exact h .F
  · exact h .E

/-- What the moves write: N and Z from the value, V = 0, the other five kept. -/
theorem flagOf_moveFlags8 (cc r : Byte) (f : Flag) :
    flagOf (moveFlags8 cc r) f =
      match f with | .N => r.msb | .Z => r == 0 | .V => false | f => flagOf cc f := by
  cases f <;> simp [moveFlags8, setNZ8]

theorem flagOf_moveFlags16 (cc : Byte) (r : Word) (f : Flag) :
    flagOf (moveFlags16 cc r) f =
      match f with | .N => r.msb | .Z => r == 0 | .V => false | f => flagOf cc f := by
  cases f <;> simp [moveFlags16, setNZ16]

/-- What an 8-bit sum or difference writes: H, N, Z, V, C; E, F, I are kept. -/
theorem flagOf_arithFlags8 (cc : Byte) (x : Sum8) (f : Flag) :
    flagOf (arithFlags8 cc x) f =
      match f with
      | .H => x.h | .N => x.n | .Z => x.z | .V => x.v | .C => x.c | f => flagOf cc f := by
  cases f <;> simp [arithFlags8]

/-- What a 16-bit sum or difference writes: N, Z, V, C; E, F, H, I are kept. -/
theorem flagOf_arithFlags16 (cc : Byte) (x : Sum16) (f : Flag) :
    flagOf (arithFlags16 cc x) f =
      match f with | .N => x.n | .Z => x.z | .V => x.v | .C => x.c | f => flagOf cc f := by
  cases f <;> simp [arithFlags16]

end Sys2Proof.Machine
end

