-- ==== Sys2Proof/Laws/Memory.lean ====
section
/-! SUPPORT. Memory: what a read gives after a write, and that every operation keeps the canonical form. -/

namespace Sys2Proof.Machine

@[simp] theorem Memory.read_nil (a : Nat) : Memory.read [] a = unlistedByte := rfl

theorem Memory.read_cons (k : Nat) (v : Byte) (m : Memory) (a : Nat) :
    Memory.read ((k, v) :: m) a = if k = a then v else Memory.read m a := rfl

theorem Memory.mem_erase {a : Nat} {m : Memory} {c : Host.Cell} (h : c ∈ Memory.erase a m) : c.1 ≠ a := by
  simpa using (List.mem_filter.mp h).2

theorem Memory.erase_cons (a k : Nat) (v : Byte) (m : Memory) :
    Memory.erase a ((k, v) :: m) = if k = a then Memory.erase a m else (k, v) :: Memory.erase a m := by
  by_cases h : k = a <;> simp [Memory.erase, h]

/-- A read of a memory from which one address is taken out. -/
theorem Memory.read_erase (m : Memory) (a b : Nat) :
    Memory.read (Memory.erase a m) b = if a = b then unlistedByte else Memory.read m b := by
  induction m with
  | nil => simp [Memory.erase]
  | cons c m ih =>
    obtain ⟨k, v⟩ := c
    rw [Memory.erase_cons]
    by_cases hk : k = a
    · subst hk
      rw [if_pos rfl, ih, Memory.read_cons]
      by_cases hb : k = b <;> simp [hb]
    · by_cases hb : a = b
      · subst hb; simp [hk, ih, Memory.read_cons]
      · simp [hk, hb, ih, Memory.read_cons]

theorem Memory.read_place_other (m : Memory) (a b : Nat) (v : Byte) (h : a ≠ b) :
    Memory.read (Memory.place a v m) b = Memory.read m b := by
  induction m with
  | nil => simp [Memory.place, Memory.read_cons, h]
  | cons c m ih =>
    obtain ⟨k, w⟩ := c
    by_cases hk : a < k <;> simp [Memory.place, Memory.read_cons, hk, h, ih]

theorem Memory.read_place_same (m : Memory) (a : Nat) (v : Byte) (h : ∀ c ∈ m, c.1 ≠ a) :
    Memory.read (Memory.place a v m) a = v := by
  induction m with
  | nil => simp [Memory.place, Memory.read_cons]
  | cons c m ih =>
    obtain ⟨k, w⟩ := c
    have hk : k ≠ a := h (k, w) (by simp)
    have ih := ih (fun c hc => h c (by simp [hc]))
    by_cases hlt : a < k <;> simp [Memory.place, Memory.read_cons, hlt, hk, ih]

/-- The basic law: a read after a write gives the value at the address written and what was there elsewhere. -/
theorem Memory.read_write (m : Memory) (a b : Nat) (v : Byte) :
    (m.write a v).read b = if a = b then v else m.read b := by
  unfold Memory.write
  split
  · next hv => rw [Memory.read_erase, hv]
  · by_cases h : a = b
    · subst h
      simp [Memory.read_place_same _ _ _ (fun c hc => Memory.mem_erase hc)]
    · simp [h, Memory.read_place_other _ _ _ _ h, Memory.read_erase]

/-! The canonical form. -/

/-- A lower bound that nothing is below, or that lies below a given address. -/
abbrev Memory.below (lo : Option Nat) (a : Nat) : Prop := ∀ l, lo = some l → l < a

theorem Memory.wfAbove_cons (lo : Option Nat) (k : Nat) (v : Byte) (m : Memory) :
    Memory.wfAbove lo ((k, v) :: m) = true ↔
      Memory.below lo k ∧ k < 65536 ∧ v ≠ unlistedByte ∧ Memory.wfAbove (some k) m = true := by
  cases lo <;> simp [Memory.wfAbove, Memory.below, and_assoc]

theorem Memory.wfAbove_mono {lo lo' : Option Nat} {m : Memory} (h : Memory.wfAbove lo m = true)
    (hl : ∀ a, Memory.below lo a → Memory.below lo' a) : Memory.wfAbove lo' m = true := by
  cases m with
  | nil => rfl
  | cons c m =>
    obtain ⟨k, v⟩ := c
    rw [Memory.wfAbove_cons] at h ⊢
    exact ⟨hl k h.1, h.2⟩

theorem Memory.wfAbove_erase {lo : Option Nat} {m : Memory} (a : Nat) (h : Memory.wfAbove lo m = true) :
    Memory.wfAbove lo (Memory.erase a m) = true := by
  induction m generalizing lo with
  | nil => rfl
  | cons c m ih =>
    obtain ⟨k, v⟩ := c
    rw [Memory.wfAbove_cons] at h
    rw [Memory.erase_cons]
    split
    · exact Memory.wfAbove_mono (ih h.2.2.2)
        (fun b hb l hl => (h.1 l hl).trans (hb k rfl))
    · exact (Memory.wfAbove_cons _ _ _ _).mpr ⟨h.1, h.2.1, h.2.2.1, ih h.2.2.2⟩

theorem Memory.wfAbove_place {lo : Option Nat} {m : Memory} {a : Nat} {v : Byte} (h : Memory.wfAbove lo m = true)
    (hlo : Memory.below lo a) (ha : a < 65536) (hv : v ≠ unlistedByte) (hm : ∀ c ∈ m, c.1 ≠ a) :
    Memory.wfAbove lo (Memory.place a v m) = true := by
  induction m generalizing lo with
  | nil => exact (Memory.wfAbove_cons _ _ _ _).mpr ⟨hlo, ha, hv, rfl⟩
  | cons c m ih =>
    obtain ⟨k, w⟩ := c
    have hk : k ≠ a := hm (k, w) (by simp)
    have h' := (Memory.wfAbove_cons _ _ _ _).mp h
    unfold Memory.place
    split
    · next hlt =>
      exact (Memory.wfAbove_cons _ _ _ _).mpr ⟨hlo, ha, hv, (Memory.wfAbove_cons _ _ _ _).mpr
        ⟨fun l hl => by cases hl; exact hlt, h'.2⟩⟩
    · next hge =>
      exact (Memory.wfAbove_cons _ _ _ _).mpr ⟨h'.1, h'.2.1, h'.2.2.1,
        ih h'.2.2.2 (fun l hl => by cases hl; omega) (fun c hc => hm c (by simp [hc]))⟩

/-- A write inside the address space keeps the canonical form. -/
theorem Memory.wf_write {m : Memory} {a : Nat} (v : Byte) (h : m.wf = true) (ha : a < 65536) :
    (m.write a v).wf = true := by
  unfold Memory.write
  split
  · exact Memory.wfAbove_erase a h
  · next hv =>
    exact Memory.wfAbove_place (Memory.wfAbove_erase a h) (fun l hl => by cases hl) ha hv
      (fun c hc => Memory.mem_erase hc)

/-- The addresses of a memory in canonical form lie in the address space. -/
theorem Memory.wf_bound {m : Memory} (h : m.wf = true) : ∀ c ∈ m, c.1 < 65536 := by
  unfold Memory.wf at h
  generalize (none : Option Nat) = lo at h
  induction m generalizing lo with
  | nil => simp
  | cons c m ih =>
    obtain ⟨k, v⟩ := c
    have h' := (Memory.wfAbove_cons _ _ _ _).mp h
    intro c hc
    rcases List.mem_cons.mp hc with rfl | hc
    · exact h'.2.1
    · exact ih _ h'.2.2.2 c hc

end Sys2Proof.Machine
end

