-- ==== Sys2Proof/Laws/State.lean ====
section
/-! SUPPORT. One lemma per field per register update, true by rfl. -/

namespace Sys2Proof.Machine

/-! `State.setA`. -/

@[simp] theorem State.setA_A (s : State) (v : Byte) : (s.setA v).A = v := rfl
@[simp] theorem State.setA_B (s : State) (v : Byte) : (s.setA v).B = s.B := rfl
@[simp] theorem State.setA_X (s : State) (v : Byte) : (s.setA v).X = s.X := rfl
@[simp] theorem State.setA_Y (s : State) (v : Byte) : (s.setA v).Y = s.Y := rfl
@[simp] theorem State.setA_U (s : State) (v : Byte) : (s.setA v).U = s.U := rfl
@[simp] theorem State.setA_S (s : State) (v : Byte) : (s.setA v).S = s.S := rfl
@[simp] theorem State.setA_PC (s : State) (v : Byte) : (s.setA v).PC = s.PC := rfl
@[simp] theorem State.setA_DP (s : State) (v : Byte) : (s.setA v).DP = s.DP := rfl
@[simp] theorem State.setA_CC (s : State) (v : Byte) : (s.setA v).CC = s.CC := rfl
@[simp] theorem State.setA_temp (s : State) (v : Byte) : (s.setA v).temp = s.temp := rfl
@[simp] theorem State.setA_nmiArmed (s : State) (v : Byte) : (s.setA v).nmiArmed = s.nmiArmed := rfl
@[simp] theorem State.setA_nmiPending (s : State) (v : Byte) : (s.setA v).nmiPending = s.nmiPending := rfl
@[simp] theorem State.setA_run (s : State) (v : Byte) : (s.setA v).run = s.run := rfl
@[simp] theorem State.setA_resume (s : State) (v : Byte) : (s.setA v).resume = s.resume := rfl
@[simp] theorem State.setA_mem (s : State) (v : Byte) : (s.setA v).mem = s.mem := rfl
@[simp] theorem State.setA_memMap (s : State) (v : Byte) : (s.setA v).memMap = s.memMap := rfl
@[simp] theorem State.setA_lines (s : State) (v : Byte) : (s.setA v).lines = s.lines := rfl
@[simp] theorem State.setA_pins (s : State) (v : Byte) : (s.setA v).pins = s.pins := rfl
@[simp] theorem State.setA_grants (s : State) (v : Byte) : (s.setA v).grants = s.grants := rfl
@[simp] theorem State.setA_shown (s : State) (v : Byte) : (s.setA v).shown = s.shown := rfl
@[simp] theorem State.setA_tick (s : State) (v : Byte) : (s.setA v).tick = s.tick := rfl

/-! `State.setB`. -/

@[simp] theorem State.setB_A (s : State) (v : Byte) : (s.setB v).A = s.A := rfl
@[simp] theorem State.setB_B (s : State) (v : Byte) : (s.setB v).B = v := rfl
@[simp] theorem State.setB_X (s : State) (v : Byte) : (s.setB v).X = s.X := rfl
@[simp] theorem State.setB_Y (s : State) (v : Byte) : (s.setB v).Y = s.Y := rfl
@[simp] theorem State.setB_U (s : State) (v : Byte) : (s.setB v).U = s.U := rfl
@[simp] theorem State.setB_S (s : State) (v : Byte) : (s.setB v).S = s.S := rfl
@[simp] theorem State.setB_PC (s : State) (v : Byte) : (s.setB v).PC = s.PC := rfl
@[simp] theorem State.setB_DP (s : State) (v : Byte) : (s.setB v).DP = s.DP := rfl
@[simp] theorem State.setB_CC (s : State) (v : Byte) : (s.setB v).CC = s.CC := rfl
@[simp] theorem State.setB_temp (s : State) (v : Byte) : (s.setB v).temp = s.temp := rfl
@[simp] theorem State.setB_nmiArmed (s : State) (v : Byte) : (s.setB v).nmiArmed = s.nmiArmed := rfl
@[simp] theorem State.setB_nmiPending (s : State) (v : Byte) : (s.setB v).nmiPending = s.nmiPending := rfl
@[simp] theorem State.setB_run (s : State) (v : Byte) : (s.setB v).run = s.run := rfl
@[simp] theorem State.setB_resume (s : State) (v : Byte) : (s.setB v).resume = s.resume := rfl
@[simp] theorem State.setB_mem (s : State) (v : Byte) : (s.setB v).mem = s.mem := rfl
@[simp] theorem State.setB_memMap (s : State) (v : Byte) : (s.setB v).memMap = s.memMap := rfl
@[simp] theorem State.setB_lines (s : State) (v : Byte) : (s.setB v).lines = s.lines := rfl
@[simp] theorem State.setB_pins (s : State) (v : Byte) : (s.setB v).pins = s.pins := rfl
@[simp] theorem State.setB_grants (s : State) (v : Byte) : (s.setB v).grants = s.grants := rfl
@[simp] theorem State.setB_shown (s : State) (v : Byte) : (s.setB v).shown = s.shown := rfl
@[simp] theorem State.setB_tick (s : State) (v : Byte) : (s.setB v).tick = s.tick := rfl

/-! `State.setX`. -/

@[simp] theorem State.setX_A (s : State) (v : Word) : (s.setX v).A = s.A := rfl
@[simp] theorem State.setX_B (s : State) (v : Word) : (s.setX v).B = s.B := rfl
@[simp] theorem State.setX_X (s : State) (v : Word) : (s.setX v).X = v := rfl
@[simp] theorem State.setX_Y (s : State) (v : Word) : (s.setX v).Y = s.Y := rfl
@[simp] theorem State.setX_U (s : State) (v : Word) : (s.setX v).U = s.U := rfl
@[simp] theorem State.setX_S (s : State) (v : Word) : (s.setX v).S = s.S := rfl
@[simp] theorem State.setX_PC (s : State) (v : Word) : (s.setX v).PC = s.PC := rfl
@[simp] theorem State.setX_DP (s : State) (v : Word) : (s.setX v).DP = s.DP := rfl
@[simp] theorem State.setX_CC (s : State) (v : Word) : (s.setX v).CC = s.CC := rfl
@[simp] theorem State.setX_temp (s : State) (v : Word) : (s.setX v).temp = s.temp := rfl
@[simp] theorem State.setX_nmiArmed (s : State) (v : Word) : (s.setX v).nmiArmed = s.nmiArmed := rfl
@[simp] theorem State.setX_nmiPending (s : State) (v : Word) : (s.setX v).nmiPending = s.nmiPending := rfl
@[simp] theorem State.setX_run (s : State) (v : Word) : (s.setX v).run = s.run := rfl
@[simp] theorem State.setX_resume (s : State) (v : Word) : (s.setX v).resume = s.resume := rfl
@[simp] theorem State.setX_mem (s : State) (v : Word) : (s.setX v).mem = s.mem := rfl
@[simp] theorem State.setX_memMap (s : State) (v : Word) : (s.setX v).memMap = s.memMap := rfl
@[simp] theorem State.setX_lines (s : State) (v : Word) : (s.setX v).lines = s.lines := rfl
@[simp] theorem State.setX_pins (s : State) (v : Word) : (s.setX v).pins = s.pins := rfl
@[simp] theorem State.setX_grants (s : State) (v : Word) : (s.setX v).grants = s.grants := rfl
@[simp] theorem State.setX_shown (s : State) (v : Word) : (s.setX v).shown = s.shown := rfl
@[simp] theorem State.setX_tick (s : State) (v : Word) : (s.setX v).tick = s.tick := rfl

/-! `State.setY`. -/

@[simp] theorem State.setY_A (s : State) (v : Word) : (s.setY v).A = s.A := rfl
@[simp] theorem State.setY_B (s : State) (v : Word) : (s.setY v).B = s.B := rfl
@[simp] theorem State.setY_X (s : State) (v : Word) : (s.setY v).X = s.X := rfl
@[simp] theorem State.setY_Y (s : State) (v : Word) : (s.setY v).Y = v := rfl
@[simp] theorem State.setY_U (s : State) (v : Word) : (s.setY v).U = s.U := rfl
@[simp] theorem State.setY_S (s : State) (v : Word) : (s.setY v).S = s.S := rfl
@[simp] theorem State.setY_PC (s : State) (v : Word) : (s.setY v).PC = s.PC := rfl
@[simp] theorem State.setY_DP (s : State) (v : Word) : (s.setY v).DP = s.DP := rfl
@[simp] theorem State.setY_CC (s : State) (v : Word) : (s.setY v).CC = s.CC := rfl
@[simp] theorem State.setY_temp (s : State) (v : Word) : (s.setY v).temp = s.temp := rfl
@[simp] theorem State.setY_nmiArmed (s : State) (v : Word) : (s.setY v).nmiArmed = s.nmiArmed := rfl
@[simp] theorem State.setY_nmiPending (s : State) (v : Word) : (s.setY v).nmiPending = s.nmiPending := rfl
@[simp] theorem State.setY_run (s : State) (v : Word) : (s.setY v).run = s.run := rfl
@[simp] theorem State.setY_resume (s : State) (v : Word) : (s.setY v).resume = s.resume := rfl
@[simp] theorem State.setY_mem (s : State) (v : Word) : (s.setY v).mem = s.mem := rfl
@[simp] theorem State.setY_memMap (s : State) (v : Word) : (s.setY v).memMap = s.memMap := rfl
@[simp] theorem State.setY_lines (s : State) (v : Word) : (s.setY v).lines = s.lines := rfl
@[simp] theorem State.setY_pins (s : State) (v : Word) : (s.setY v).pins = s.pins := rfl
@[simp] theorem State.setY_grants (s : State) (v : Word) : (s.setY v).grants = s.grants := rfl
@[simp] theorem State.setY_shown (s : State) (v : Word) : (s.setY v).shown = s.shown := rfl
@[simp] theorem State.setY_tick (s : State) (v : Word) : (s.setY v).tick = s.tick := rfl

/-! `State.setU`. -/

@[simp] theorem State.setU_A (s : State) (v : Word) : (s.setU v).A = s.A := rfl
@[simp] theorem State.setU_B (s : State) (v : Word) : (s.setU v).B = s.B := rfl
@[simp] theorem State.setU_X (s : State) (v : Word) : (s.setU v).X = s.X := rfl
@[simp] theorem State.setU_Y (s : State) (v : Word) : (s.setU v).Y = s.Y := rfl
@[simp] theorem State.setU_U (s : State) (v : Word) : (s.setU v).U = v := rfl
@[simp] theorem State.setU_S (s : State) (v : Word) : (s.setU v).S = s.S := rfl
@[simp] theorem State.setU_PC (s : State) (v : Word) : (s.setU v).PC = s.PC := rfl
@[simp] theorem State.setU_DP (s : State) (v : Word) : (s.setU v).DP = s.DP := rfl
@[simp] theorem State.setU_CC (s : State) (v : Word) : (s.setU v).CC = s.CC := rfl
@[simp] theorem State.setU_temp (s : State) (v : Word) : (s.setU v).temp = s.temp := rfl
@[simp] theorem State.setU_nmiArmed (s : State) (v : Word) : (s.setU v).nmiArmed = s.nmiArmed := rfl
@[simp] theorem State.setU_nmiPending (s : State) (v : Word) : (s.setU v).nmiPending = s.nmiPending := rfl
@[simp] theorem State.setU_run (s : State) (v : Word) : (s.setU v).run = s.run := rfl
@[simp] theorem State.setU_resume (s : State) (v : Word) : (s.setU v).resume = s.resume := rfl
@[simp] theorem State.setU_mem (s : State) (v : Word) : (s.setU v).mem = s.mem := rfl
@[simp] theorem State.setU_memMap (s : State) (v : Word) : (s.setU v).memMap = s.memMap := rfl
@[simp] theorem State.setU_lines (s : State) (v : Word) : (s.setU v).lines = s.lines := rfl
@[simp] theorem State.setU_pins (s : State) (v : Word) : (s.setU v).pins = s.pins := rfl
@[simp] theorem State.setU_grants (s : State) (v : Word) : (s.setU v).grants = s.grants := rfl
@[simp] theorem State.setU_shown (s : State) (v : Word) : (s.setU v).shown = s.shown := rfl
@[simp] theorem State.setU_tick (s : State) (v : Word) : (s.setU v).tick = s.tick := rfl

/-! `State.setS`. -/

@[simp] theorem State.setS_A (s : State) (v : Word) : (s.setS v).A = s.A := rfl
@[simp] theorem State.setS_B (s : State) (v : Word) : (s.setS v).B = s.B := rfl
@[simp] theorem State.setS_X (s : State) (v : Word) : (s.setS v).X = s.X := rfl
@[simp] theorem State.setS_Y (s : State) (v : Word) : (s.setS v).Y = s.Y := rfl
@[simp] theorem State.setS_U (s : State) (v : Word) : (s.setS v).U = s.U := rfl
@[simp] theorem State.setS_S (s : State) (v : Word) : (s.setS v).S = v := rfl
@[simp] theorem State.setS_PC (s : State) (v : Word) : (s.setS v).PC = s.PC := rfl
@[simp] theorem State.setS_DP (s : State) (v : Word) : (s.setS v).DP = s.DP := rfl
@[simp] theorem State.setS_CC (s : State) (v : Word) : (s.setS v).CC = s.CC := rfl
@[simp] theorem State.setS_temp (s : State) (v : Word) : (s.setS v).temp = s.temp := rfl
@[simp] theorem State.setS_nmiArmed (s : State) (v : Word) : (s.setS v).nmiArmed = s.nmiArmed := rfl
@[simp] theorem State.setS_nmiPending (s : State) (v : Word) : (s.setS v).nmiPending = s.nmiPending := rfl
@[simp] theorem State.setS_run (s : State) (v : Word) : (s.setS v).run = s.run := rfl
@[simp] theorem State.setS_resume (s : State) (v : Word) : (s.setS v).resume = s.resume := rfl
@[simp] theorem State.setS_mem (s : State) (v : Word) : (s.setS v).mem = s.mem := rfl
@[simp] theorem State.setS_memMap (s : State) (v : Word) : (s.setS v).memMap = s.memMap := rfl
@[simp] theorem State.setS_lines (s : State) (v : Word) : (s.setS v).lines = s.lines := rfl
@[simp] theorem State.setS_pins (s : State) (v : Word) : (s.setS v).pins = s.pins := rfl
@[simp] theorem State.setS_grants (s : State) (v : Word) : (s.setS v).grants = s.grants := rfl
@[simp] theorem State.setS_shown (s : State) (v : Word) : (s.setS v).shown = s.shown := rfl
@[simp] theorem State.setS_tick (s : State) (v : Word) : (s.setS v).tick = s.tick := rfl

/-! `State.setPC`. -/

@[simp] theorem State.setPC_A (s : State) (v : Word) : (s.setPC v).A = s.A := rfl
@[simp] theorem State.setPC_B (s : State) (v : Word) : (s.setPC v).B = s.B := rfl
@[simp] theorem State.setPC_X (s : State) (v : Word) : (s.setPC v).X = s.X := rfl
@[simp] theorem State.setPC_Y (s : State) (v : Word) : (s.setPC v).Y = s.Y := rfl
@[simp] theorem State.setPC_U (s : State) (v : Word) : (s.setPC v).U = s.U := rfl
@[simp] theorem State.setPC_S (s : State) (v : Word) : (s.setPC v).S = s.S := rfl
@[simp] theorem State.setPC_PC (s : State) (v : Word) : (s.setPC v).PC = v := rfl
@[simp] theorem State.setPC_DP (s : State) (v : Word) : (s.setPC v).DP = s.DP := rfl
@[simp] theorem State.setPC_CC (s : State) (v : Word) : (s.setPC v).CC = s.CC := rfl
@[simp] theorem State.setPC_temp (s : State) (v : Word) : (s.setPC v).temp = s.temp := rfl
@[simp] theorem State.setPC_nmiArmed (s : State) (v : Word) : (s.setPC v).nmiArmed = s.nmiArmed := rfl
@[simp] theorem State.setPC_nmiPending (s : State) (v : Word) : (s.setPC v).nmiPending = s.nmiPending := rfl
@[simp] theorem State.setPC_run (s : State) (v : Word) : (s.setPC v).run = s.run := rfl
@[simp] theorem State.setPC_resume (s : State) (v : Word) : (s.setPC v).resume = s.resume := rfl
@[simp] theorem State.setPC_mem (s : State) (v : Word) : (s.setPC v).mem = s.mem := rfl
@[simp] theorem State.setPC_memMap (s : State) (v : Word) : (s.setPC v).memMap = s.memMap := rfl
@[simp] theorem State.setPC_lines (s : State) (v : Word) : (s.setPC v).lines = s.lines := rfl
@[simp] theorem State.setPC_pins (s : State) (v : Word) : (s.setPC v).pins = s.pins := rfl
@[simp] theorem State.setPC_grants (s : State) (v : Word) : (s.setPC v).grants = s.grants := rfl
@[simp] theorem State.setPC_shown (s : State) (v : Word) : (s.setPC v).shown = s.shown := rfl
@[simp] theorem State.setPC_tick (s : State) (v : Word) : (s.setPC v).tick = s.tick := rfl

/-! `State.setDP`. -/

@[simp] theorem State.setDP_A (s : State) (v : Byte) : (s.setDP v).A = s.A := rfl
@[simp] theorem State.setDP_B (s : State) (v : Byte) : (s.setDP v).B = s.B := rfl
@[simp] theorem State.setDP_X (s : State) (v : Byte) : (s.setDP v).X = s.X := rfl
@[simp] theorem State.setDP_Y (s : State) (v : Byte) : (s.setDP v).Y = s.Y := rfl
@[simp] theorem State.setDP_U (s : State) (v : Byte) : (s.setDP v).U = s.U := rfl
@[simp] theorem State.setDP_S (s : State) (v : Byte) : (s.setDP v).S = s.S := rfl
@[simp] theorem State.setDP_PC (s : State) (v : Byte) : (s.setDP v).PC = s.PC := rfl
@[simp] theorem State.setDP_DP (s : State) (v : Byte) : (s.setDP v).DP = v := rfl
@[simp] theorem State.setDP_CC (s : State) (v : Byte) : (s.setDP v).CC = s.CC := rfl
@[simp] theorem State.setDP_temp (s : State) (v : Byte) : (s.setDP v).temp = s.temp := rfl
@[simp] theorem State.setDP_nmiArmed (s : State) (v : Byte) : (s.setDP v).nmiArmed = s.nmiArmed := rfl
@[simp] theorem State.setDP_nmiPending (s : State) (v : Byte) : (s.setDP v).nmiPending = s.nmiPending := rfl
@[simp] theorem State.setDP_run (s : State) (v : Byte) : (s.setDP v).run = s.run := rfl
@[simp] theorem State.setDP_resume (s : State) (v : Byte) : (s.setDP v).resume = s.resume := rfl
@[simp] theorem State.setDP_mem (s : State) (v : Byte) : (s.setDP v).mem = s.mem := rfl
@[simp] theorem State.setDP_memMap (s : State) (v : Byte) : (s.setDP v).memMap = s.memMap := rfl
@[simp] theorem State.setDP_lines (s : State) (v : Byte) : (s.setDP v).lines = s.lines := rfl
@[simp] theorem State.setDP_pins (s : State) (v : Byte) : (s.setDP v).pins = s.pins := rfl
@[simp] theorem State.setDP_grants (s : State) (v : Byte) : (s.setDP v).grants = s.grants := rfl
@[simp] theorem State.setDP_shown (s : State) (v : Byte) : (s.setDP v).shown = s.shown := rfl
@[simp] theorem State.setDP_tick (s : State) (v : Byte) : (s.setDP v).tick = s.tick := rfl

/-! `State.setCC`. -/

@[simp] theorem State.setCC_A (s : State) (v : Byte) : (s.setCC v).A = s.A := rfl
@[simp] theorem State.setCC_B (s : State) (v : Byte) : (s.setCC v).B = s.B := rfl
@[simp] theorem State.setCC_X (s : State) (v : Byte) : (s.setCC v).X = s.X := rfl
@[simp] theorem State.setCC_Y (s : State) (v : Byte) : (s.setCC v).Y = s.Y := rfl
@[simp] theorem State.setCC_U (s : State) (v : Byte) : (s.setCC v).U = s.U := rfl
@[simp] theorem State.setCC_S (s : State) (v : Byte) : (s.setCC v).S = s.S := rfl
@[simp] theorem State.setCC_PC (s : State) (v : Byte) : (s.setCC v).PC = s.PC := rfl
@[simp] theorem State.setCC_DP (s : State) (v : Byte) : (s.setCC v).DP = s.DP := rfl
@[simp] theorem State.setCC_CC (s : State) (v : Byte) : (s.setCC v).CC = v := rfl
@[simp] theorem State.setCC_temp (s : State) (v : Byte) : (s.setCC v).temp = s.temp := rfl
@[simp] theorem State.setCC_nmiArmed (s : State) (v : Byte) : (s.setCC v).nmiArmed = s.nmiArmed := rfl
@[simp] theorem State.setCC_nmiPending (s : State) (v : Byte) : (s.setCC v).nmiPending = s.nmiPending := rfl
@[simp] theorem State.setCC_run (s : State) (v : Byte) : (s.setCC v).run = s.run := rfl
@[simp] theorem State.setCC_resume (s : State) (v : Byte) : (s.setCC v).resume = s.resume := rfl
@[simp] theorem State.setCC_mem (s : State) (v : Byte) : (s.setCC v).mem = s.mem := rfl
@[simp] theorem State.setCC_memMap (s : State) (v : Byte) : (s.setCC v).memMap = s.memMap := rfl
@[simp] theorem State.setCC_lines (s : State) (v : Byte) : (s.setCC v).lines = s.lines := rfl
@[simp] theorem State.setCC_pins (s : State) (v : Byte) : (s.setCC v).pins = s.pins := rfl
@[simp] theorem State.setCC_grants (s : State) (v : Byte) : (s.setCC v).grants = s.grants := rfl
@[simp] theorem State.setCC_shown (s : State) (v : Byte) : (s.setCC v).shown = s.shown := rfl
@[simp] theorem State.setCC_tick (s : State) (v : Byte) : (s.setCC v).tick = s.tick := rfl

/-! `State.setTemp`. -/

@[simp] theorem State.setTemp_A (s : State) (v : Word) : (s.setTemp v).A = s.A := rfl
@[simp] theorem State.setTemp_B (s : State) (v : Word) : (s.setTemp v).B = s.B := rfl
@[simp] theorem State.setTemp_X (s : State) (v : Word) : (s.setTemp v).X = s.X := rfl
@[simp] theorem State.setTemp_Y (s : State) (v : Word) : (s.setTemp v).Y = s.Y := rfl
@[simp] theorem State.setTemp_U (s : State) (v : Word) : (s.setTemp v).U = s.U := rfl
@[simp] theorem State.setTemp_S (s : State) (v : Word) : (s.setTemp v).S = s.S := rfl
@[simp] theorem State.setTemp_PC (s : State) (v : Word) : (s.setTemp v).PC = s.PC := rfl
@[simp] theorem State.setTemp_DP (s : State) (v : Word) : (s.setTemp v).DP = s.DP := rfl
@[simp] theorem State.setTemp_CC (s : State) (v : Word) : (s.setTemp v).CC = s.CC := rfl
@[simp] theorem State.setTemp_temp (s : State) (v : Word) : (s.setTemp v).temp = v := rfl
@[simp] theorem State.setTemp_nmiArmed (s : State) (v : Word) : (s.setTemp v).nmiArmed = s.nmiArmed := rfl
@[simp] theorem State.setTemp_nmiPending (s : State) (v : Word) : (s.setTemp v).nmiPending = s.nmiPending := rfl
@[simp] theorem State.setTemp_run (s : State) (v : Word) : (s.setTemp v).run = s.run := rfl
@[simp] theorem State.setTemp_resume (s : State) (v : Word) : (s.setTemp v).resume = s.resume := rfl
@[simp] theorem State.setTemp_mem (s : State) (v : Word) : (s.setTemp v).mem = s.mem := rfl
@[simp] theorem State.setTemp_memMap (s : State) (v : Word) : (s.setTemp v).memMap = s.memMap := rfl
@[simp] theorem State.setTemp_lines (s : State) (v : Word) : (s.setTemp v).lines = s.lines := rfl
@[simp] theorem State.setTemp_pins (s : State) (v : Word) : (s.setTemp v).pins = s.pins := rfl
@[simp] theorem State.setTemp_grants (s : State) (v : Word) : (s.setTemp v).grants = s.grants := rfl
@[simp] theorem State.setTemp_shown (s : State) (v : Word) : (s.setTemp v).shown = s.shown := rfl
@[simp] theorem State.setTemp_tick (s : State) (v : Word) : (s.setTemp v).tick = s.tick := rfl

/-! `State.setRun`. -/

@[simp] theorem State.setRun_A (s : State) (v : Run) : (s.setRun v).A = s.A := rfl
@[simp] theorem State.setRun_B (s : State) (v : Run) : (s.setRun v).B = s.B := rfl
@[simp] theorem State.setRun_X (s : State) (v : Run) : (s.setRun v).X = s.X := rfl
@[simp] theorem State.setRun_Y (s : State) (v : Run) : (s.setRun v).Y = s.Y := rfl
@[simp] theorem State.setRun_U (s : State) (v : Run) : (s.setRun v).U = s.U := rfl
@[simp] theorem State.setRun_S (s : State) (v : Run) : (s.setRun v).S = s.S := rfl
@[simp] theorem State.setRun_PC (s : State) (v : Run) : (s.setRun v).PC = s.PC := rfl
@[simp] theorem State.setRun_DP (s : State) (v : Run) : (s.setRun v).DP = s.DP := rfl
@[simp] theorem State.setRun_CC (s : State) (v : Run) : (s.setRun v).CC = s.CC := rfl
@[simp] theorem State.setRun_temp (s : State) (v : Run) : (s.setRun v).temp = s.temp := rfl
@[simp] theorem State.setRun_nmiArmed (s : State) (v : Run) : (s.setRun v).nmiArmed = s.nmiArmed := rfl
@[simp] theorem State.setRun_nmiPending (s : State) (v : Run) : (s.setRun v).nmiPending = s.nmiPending := rfl
@[simp] theorem State.setRun_run (s : State) (v : Run) : (s.setRun v).run = v := rfl
@[simp] theorem State.setRun_resume (s : State) (v : Run) : (s.setRun v).resume = s.resume := rfl
@[simp] theorem State.setRun_mem (s : State) (v : Run) : (s.setRun v).mem = s.mem := rfl
@[simp] theorem State.setRun_memMap (s : State) (v : Run) : (s.setRun v).memMap = s.memMap := rfl
@[simp] theorem State.setRun_lines (s : State) (v : Run) : (s.setRun v).lines = s.lines := rfl
@[simp] theorem State.setRun_pins (s : State) (v : Run) : (s.setRun v).pins = s.pins := rfl
@[simp] theorem State.setRun_grants (s : State) (v : Run) : (s.setRun v).grants = s.grants := rfl
@[simp] theorem State.setRun_shown (s : State) (v : Run) : (s.setRun v).shown = s.shown := rfl
@[simp] theorem State.setRun_tick (s : State) (v : Run) : (s.setRun v).tick = s.tick := rfl

/-! `State.arm`. -/

@[simp] theorem State.arm_A (s : State) : (s.arm).A = s.A := rfl
@[simp] theorem State.arm_B (s : State) : (s.arm).B = s.B := rfl
@[simp] theorem State.arm_X (s : State) : (s.arm).X = s.X := rfl
@[simp] theorem State.arm_Y (s : State) : (s.arm).Y = s.Y := rfl
@[simp] theorem State.arm_U (s : State) : (s.arm).U = s.U := rfl
@[simp] theorem State.arm_S (s : State) : (s.arm).S = s.S := rfl
@[simp] theorem State.arm_PC (s : State) : (s.arm).PC = s.PC := rfl
@[simp] theorem State.arm_DP (s : State) : (s.arm).DP = s.DP := rfl
@[simp] theorem State.arm_CC (s : State) : (s.arm).CC = s.CC := rfl
@[simp] theorem State.arm_temp (s : State) : (s.arm).temp = s.temp := rfl
@[simp] theorem State.arm_nmiArmed (s : State) : (s.arm).nmiArmed = true := rfl
@[simp] theorem State.arm_nmiPending (s : State) : (s.arm).nmiPending = s.nmiPending := rfl
@[simp] theorem State.arm_run (s : State) : (s.arm).run = s.run := rfl
@[simp] theorem State.arm_resume (s : State) : (s.arm).resume = s.resume := rfl
@[simp] theorem State.arm_mem (s : State) : (s.arm).mem = s.mem := rfl
@[simp] theorem State.arm_memMap (s : State) : (s.arm).memMap = s.memMap := rfl
@[simp] theorem State.arm_lines (s : State) : (s.arm).lines = s.lines := rfl
@[simp] theorem State.arm_pins (s : State) : (s.arm).pins = s.pins := rfl
@[simp] theorem State.arm_grants (s : State) : (s.arm).grants = s.grants := rfl
@[simp] theorem State.arm_shown (s : State) : (s.arm).shown = s.shown := rfl
@[simp] theorem State.arm_tick (s : State) : (s.arm).tick = s.tick := rfl

/-! `State.setD`. -/

@[simp] theorem State.setD_A (s : State) (v : Word) : (s.setD v).A = hiByte v := rfl
@[simp] theorem State.setD_B (s : State) (v : Word) : (s.setD v).B = loByte v := rfl
@[simp] theorem State.setD_X (s : State) (v : Word) : (s.setD v).X = s.X := rfl
@[simp] theorem State.setD_Y (s : State) (v : Word) : (s.setD v).Y = s.Y := rfl
@[simp] theorem State.setD_U (s : State) (v : Word) : (s.setD v).U = s.U := rfl
@[simp] theorem State.setD_S (s : State) (v : Word) : (s.setD v).S = s.S := rfl
@[simp] theorem State.setD_PC (s : State) (v : Word) : (s.setD v).PC = s.PC := rfl
@[simp] theorem State.setD_DP (s : State) (v : Word) : (s.setD v).DP = s.DP := rfl
@[simp] theorem State.setD_CC (s : State) (v : Word) : (s.setD v).CC = s.CC := rfl
@[simp] theorem State.setD_temp (s : State) (v : Word) : (s.setD v).temp = s.temp := rfl
@[simp] theorem State.setD_nmiArmed (s : State) (v : Word) : (s.setD v).nmiArmed = s.nmiArmed := rfl
@[simp] theorem State.setD_nmiPending (s : State) (v : Word) : (s.setD v).nmiPending = s.nmiPending := rfl
@[simp] theorem State.setD_run (s : State) (v : Word) : (s.setD v).run = s.run := rfl
@[simp] theorem State.setD_resume (s : State) (v : Word) : (s.setD v).resume = s.resume := rfl
@[simp] theorem State.setD_mem (s : State) (v : Word) : (s.setD v).mem = s.mem := rfl
@[simp] theorem State.setD_memMap (s : State) (v : Word) : (s.setD v).memMap = s.memMap := rfl
@[simp] theorem State.setD_lines (s : State) (v : Word) : (s.setD v).lines = s.lines := rfl
@[simp] theorem State.setD_pins (s : State) (v : Word) : (s.setD v).pins = s.pins := rfl
@[simp] theorem State.setD_grants (s : State) (v : Word) : (s.setD v).grants = s.grants := rfl
@[simp] theorem State.setD_shown (s : State) (v : Word) : (s.setD v).shown = s.shown := rfl
@[simp] theorem State.setD_tick (s : State) (v : Word) : (s.setD v).tick = s.tick := rfl

/-! `State.setFlag`. -/

@[simp] theorem State.setFlag_A (s : State) (f : Flag) (b : Bool) : (s.setFlag f b).A = s.A := rfl
@[simp] theorem State.setFlag_B (s : State) (f : Flag) (b : Bool) : (s.setFlag f b).B = s.B := rfl
@[simp] theorem State.setFlag_X (s : State) (f : Flag) (b : Bool) : (s.setFlag f b).X = s.X := rfl
@[simp] theorem State.setFlag_Y (s : State) (f : Flag) (b : Bool) : (s.setFlag f b).Y = s.Y := rfl
@[simp] theorem State.setFlag_U (s : State) (f : Flag) (b : Bool) : (s.setFlag f b).U = s.U := rfl
@[simp] theorem State.setFlag_S (s : State) (f : Flag) (b : Bool) : (s.setFlag f b).S = s.S := rfl
@[simp] theorem State.setFlag_PC (s : State) (f : Flag) (b : Bool) : (s.setFlag f b).PC = s.PC := rfl
@[simp] theorem State.setFlag_DP (s : State) (f : Flag) (b : Bool) : (s.setFlag f b).DP = s.DP := rfl
@[simp] theorem State.setFlag_CC (s : State) (f : Flag) (b : Bool) : (s.setFlag f b).CC = putFlag s.CC f b := rfl
@[simp] theorem State.setFlag_temp (s : State) (f : Flag) (b : Bool) : (s.setFlag f b).temp = s.temp := rfl
@[simp] theorem State.setFlag_nmiArmed (s : State) (f : Flag) (b : Bool) : (s.setFlag f b).nmiArmed = s.nmiArmed := rfl
@[simp] theorem State.setFlag_nmiPending (s : State) (f : Flag) (b : Bool) : (s.setFlag f b).nmiPending = s.nmiPending := rfl
@[simp] theorem State.setFlag_run (s : State) (f : Flag) (b : Bool) : (s.setFlag f b).run = s.run := rfl
@[simp] theorem State.setFlag_resume (s : State) (f : Flag) (b : Bool) : (s.setFlag f b).resume = s.resume := rfl
@[simp] theorem State.setFlag_mem (s : State) (f : Flag) (b : Bool) : (s.setFlag f b).mem = s.mem := rfl
@[simp] theorem State.setFlag_memMap (s : State) (f : Flag) (b : Bool) : (s.setFlag f b).memMap = s.memMap := rfl
@[simp] theorem State.setFlag_lines (s : State) (f : Flag) (b : Bool) : (s.setFlag f b).lines = s.lines := rfl
@[simp] theorem State.setFlag_pins (s : State) (f : Flag) (b : Bool) : (s.setFlag f b).pins = s.pins := rfl
@[simp] theorem State.setFlag_grants (s : State) (f : Flag) (b : Bool) : (s.setFlag f b).grants = s.grants := rfl
@[simp] theorem State.setFlag_shown (s : State) (f : Flag) (b : Bool) : (s.setFlag f b).shown = s.shown := rfl
@[simp] theorem State.setFlag_tick (s : State) (f : Flag) (b : Bool) : (s.setFlag f b).tick = s.tick := rfl

/-! `State.showCode`. -/

@[simp] theorem State.showCode_A (s : State) (c : Bool × Bool) : (s.showCode c).A = s.A := rfl
@[simp] theorem State.showCode_B (s : State) (c : Bool × Bool) : (s.showCode c).B = s.B := rfl
@[simp] theorem State.showCode_X (s : State) (c : Bool × Bool) : (s.showCode c).X = s.X := rfl
@[simp] theorem State.showCode_Y (s : State) (c : Bool × Bool) : (s.showCode c).Y = s.Y := rfl
@[simp] theorem State.showCode_U (s : State) (c : Bool × Bool) : (s.showCode c).U = s.U := rfl
@[simp] theorem State.showCode_S (s : State) (c : Bool × Bool) : (s.showCode c).S = s.S := rfl
@[simp] theorem State.showCode_PC (s : State) (c : Bool × Bool) : (s.showCode c).PC = s.PC := rfl
@[simp] theorem State.showCode_DP (s : State) (c : Bool × Bool) : (s.showCode c).DP = s.DP := rfl
@[simp] theorem State.showCode_CC (s : State) (c : Bool × Bool) : (s.showCode c).CC = s.CC := rfl
@[simp] theorem State.showCode_temp (s : State) (c : Bool × Bool) : (s.showCode c).temp = s.temp := rfl
@[simp] theorem State.showCode_nmiArmed (s : State) (c : Bool × Bool) : (s.showCode c).nmiArmed = s.nmiArmed := rfl
@[simp] theorem State.showCode_nmiPending (s : State) (c : Bool × Bool) : (s.showCode c).nmiPending = s.nmiPending := rfl
@[simp] theorem State.showCode_run (s : State) (c : Bool × Bool) : (s.showCode c).run = s.run := rfl
@[simp] theorem State.showCode_resume (s : State) (c : Bool × Bool) : (s.showCode c).resume = s.resume := rfl
@[simp] theorem State.showCode_mem (s : State) (c : Bool × Bool) : (s.showCode c).mem = s.mem := rfl
@[simp] theorem State.showCode_memMap (s : State) (c : Bool × Bool) : (s.showCode c).memMap = s.memMap := rfl
@[simp] theorem State.showCode_lines (s : State) (c : Bool × Bool) : (s.showCode c).lines = s.lines := rfl
@[simp] theorem State.showCode_pins (s : State) (c : Bool × Bool) : (s.showCode c).pins = s.pins := rfl
@[simp] theorem State.showCode_grants (s : State) (c : Bool × Bool) : (s.showCode c).grants = s.grants := rfl
@[simp] theorem State.showCode_shown (s : State) (c : Bool × Bool) : (s.showCode c).shown = s.shown ++ [c] := rfl
@[simp] theorem State.showCode_tick (s : State) (c : Bool × Bool) : (s.showCode c).tick = s.tick := rfl

end Sys2Proof.Machine
end

