-- ==== Sys2Proof/Laws/Ops.lean ====
section
/-! SUPPORT. What each shared operation can do, said once. -/

namespace Sys2Proof.Machine

/-! Memory. -/

@[simp] theorem State.writeByte_A (s : State) (a : Word) (v : Byte) : (s.writeByte a v).A = s.A := by
  unfold State.writeByte; split <;> rfl
@[simp] theorem State.writeByte_B (s : State) (a : Word) (v : Byte) : (s.writeByte a v).B = s.B := by
  unfold State.writeByte; split <;> rfl
@[simp] theorem State.writeByte_X (s : State) (a : Word) (v : Byte) : (s.writeByte a v).X = s.X := by
  unfold State.writeByte; split <;> rfl
@[simp] theorem State.writeByte_Y (s : State) (a : Word) (v : Byte) : (s.writeByte a v).Y = s.Y := by
  unfold State.writeByte; split <;> rfl
@[simp] theorem State.writeByte_U (s : State) (a : Word) (v : Byte) : (s.writeByte a v).U = s.U := by
  unfold State.writeByte; split <;> rfl
@[simp] theorem State.writeByte_S (s : State) (a : Word) (v : Byte) : (s.writeByte a v).S = s.S := by
  unfold State.writeByte; split <;> rfl
@[simp] theorem State.writeByte_PC (s : State) (a : Word) (v : Byte) : (s.writeByte a v).PC = s.PC := by
  unfold State.writeByte; split <;> rfl
@[simp] theorem State.writeByte_DP (s : State) (a : Word) (v : Byte) : (s.writeByte a v).DP = s.DP := by
  unfold State.writeByte; split <;> rfl
@[simp] theorem State.writeByte_CC (s : State) (a : Word) (v : Byte) : (s.writeByte a v).CC = s.CC := by
  unfold State.writeByte; split <;> rfl
@[simp] theorem State.writeByte_temp (s : State) (a : Word) (v : Byte) : (s.writeByte a v).temp = s.temp := by
  unfold State.writeByte; split <;> rfl
@[simp] theorem State.writeByte_nmiArmed (s : State) (a : Word) (v : Byte) : (s.writeByte a v).nmiArmed = s.nmiArmed := by
  unfold State.writeByte; split <;> rfl
@[simp] theorem State.writeByte_nmiPending (s : State) (a : Word) (v : Byte) : (s.writeByte a v).nmiPending = s.nmiPending := by
  unfold State.writeByte; split <;> rfl
@[simp] theorem State.writeByte_run (s : State) (a : Word) (v : Byte) : (s.writeByte a v).run = s.run := by
  unfold State.writeByte; split <;> rfl
@[simp] theorem State.writeByte_resume (s : State) (a : Word) (v : Byte) : (s.writeByte a v).resume = s.resume := by
  unfold State.writeByte; split <;> rfl
@[simp] theorem State.writeByte_memMap (s : State) (a : Word) (v : Byte) : (s.writeByte a v).memMap = s.memMap := by
  unfold State.writeByte; split <;> rfl
@[simp] theorem State.writeByte_lines (s : State) (a : Word) (v : Byte) : (s.writeByte a v).lines = s.lines := by
  unfold State.writeByte; split <;> rfl
@[simp] theorem State.writeByte_pins (s : State) (a : Word) (v : Byte) : (s.writeByte a v).pins = s.pins := by
  unfold State.writeByte; split <;> rfl
@[simp] theorem State.writeByte_grants (s : State) (a : Word) (v : Byte) : (s.writeByte a v).grants = s.grants := by
  unfold State.writeByte; split <;> rfl
@[simp] theorem State.writeByte_shown (s : State) (a : Word) (v : Byte) : (s.writeByte a v).shown = s.shown := by
  unfold State.writeByte; split <;> rfl
@[simp] theorem State.writeByte_tick (s : State) (a : Word) (v : Byte) : (s.writeByte a v).tick = s.tick := by
  unfold State.writeByte; split <;> rfl

/-- A byte write changes memory only, and memory only where there is RAM. -/
theorem State.writeByte_eq (s : State) (a : Word) (v : Byte) :
    s.writeByte a v = { s with mem := if s.kindAt a = .ram then s.mem.write a.toNat v else s.mem } := by
  unfold State.writeByte; split <;> rename_i h <;> simp [h]

@[simp] theorem State.kindAt_writeByte (s : State) (a b : Word) (v : Byte) :
    (s.writeByte a v).kindAt b = s.kindAt b := by
  simp [State.kindAt]

/-- A byte read after a byte write (20_memory.md R62, R75). -/
theorem State.readByte_writeByte (s : State) (a b : Word) (v : Byte) :
    (s.writeByte a v).readByte b = if a = b ∧ s.kindAt a = .ram then v else s.readByte b := by
  unfold State.readByte
  rw [State.kindAt_writeByte, State.writeByte_eq]
  by_cases hab : a = b
  · subst hab
    cases s.kindAt a <;> simp [Memory.read_write]
  · have : a.toNat ≠ b.toNat := fun h => hab (BitVec.eq_of_toNat_eq h)
    by_cases hk : s.kindAt a = .ram <;> simp [hab, hk, Memory.read_write, this]

/-- Reads look only at memory, its map and the tick. -/
theorem State.readByte_congr {s t : State} (hm : t.mem = s.mem) (hk : t.memMap = s.memMap) (ht : t.tick = s.tick)
    (a : Word) : t.readByte a = s.readByte a := by
  simp [State.readByte, State.kindAt, hm, hk, ht]

theorem State.readWord_congr {s t : State} (hm : t.mem = s.mem) (hk : t.memMap = s.memMap) (ht : t.tick = s.tick)
    (a : Word) : t.readWord a = s.readWord a := by
  simp [State.readWord, State.readByte_congr hm hk ht]

/-- A byte write keeps the canonical form. -/
theorem State.writeByte_wf {s : State} (h : s.mem.wf = true) (a : Word) (v : Byte) :
    (s.writeByte a v).mem.wf = true := by
  rw [State.writeByte_eq]
  dsimp only
  split
  · exact Memory.wf_write v h a.isLt
  · exact h

/-! The bus. -/

/-- Another master's writes change memory only. -/
theorem State.otherWrites_eq (s : State) (ws : List (Word × Byte)) :
    s.otherWrites ws = { s with mem := (s.otherWrites ws).mem } := by
  unfold State.otherWrites
  induction ws generalizing s with
  | nil => rfl
  | cons w ws ih => rw [List.foldl_cons, ih, State.writeByte_eq]

theorem State.otherWrites_wf {s : State} (h : s.mem.wf = true) (ws : List (Word × Byte)) :
    (s.otherWrites ws).mem.wf = true := by
  unfold State.otherWrites
  induction ws generalizing s with
  | nil => exact h
  | cons w ws ih => exact ih (State.writeByte_wf h _ _)

/-- What another master writes depends on memory and its map alone. -/
theorem State.otherWrites_mem_congr {s t : State} (hm : t.mem = s.mem) (hk : t.memMap = s.memMap)
    (ws : List (Word × Byte)) : (t.otherWrites ws).mem = (s.otherWrites ws).mem := by
  unfold State.otherWrites
  induction ws generalizing s t with
  | nil => exact hm
  | cons w ws ih =>
    rw [List.foldl_cons, List.foldl_cons]
    refine ih ?_ (by simp [hk])
    have h : t.kindAt w.1 = s.kindAt w.1 := by rw [State.kindAt, hk]; rfl
    unfold State.writeByte
    rw [h]
    split <;> simp [hm]

/-- A bus grant changes memory, the grants to come and the codes shown, and nothing else (60_exceptions.md R422). -/
theorem State.grant_eq (s : State) :
    s.grant = { s with mem := s.grant.mem, grants := s.grant.grants, shown := s.grant.shown } := by
  unfold State.grant
  split
  · rfl
  · rfl
  · rw [State.otherWrites_eq]; rfl

/-- With no grant to come the MPU keeps the bus. -/
theorem State.grant_of_nil {s : State} (h : s.grants = []) : s.grant = s := by
  unfold State.grant; rw [h]

theorem State.grant_wf {s : State} (h : s.mem.wf = true) : s.grant.mem.wf = true := by
  unfold State.grant
  split
  · exact h
  · exact h
  · apply State.otherWrites_wf; exact h

/-- What a grant does depends on memory, its map, the grants and the codes alone. -/
theorem State.grant_mem_congr {s t : State} (hm : t.mem = s.mem) (hk : t.memMap = s.memMap)
    (hg : t.grants = s.grants) : t.grant.mem = s.grant.mem := by
  unfold State.grant
  rw [hg]
  split
  · exact hm
  · exact hm
  · apply State.otherWrites_mem_congr
    · exact hm
    · exact hk


@[simp] theorem State.grant_A (s : State) : s.grant.A = s.A := by rw [State.grant_eq]
@[simp] theorem State.grant_B (s : State) : s.grant.B = s.B := by rw [State.grant_eq]
@[simp] theorem State.grant_X (s : State) : s.grant.X = s.X := by rw [State.grant_eq]
@[simp] theorem State.grant_Y (s : State) : s.grant.Y = s.Y := by rw [State.grant_eq]
@[simp] theorem State.grant_U (s : State) : s.grant.U = s.U := by rw [State.grant_eq]
@[simp] theorem State.grant_S (s : State) : s.grant.S = s.S := by rw [State.grant_eq]
@[simp] theorem State.grant_PC (s : State) : s.grant.PC = s.PC := by rw [State.grant_eq]
@[simp] theorem State.grant_DP (s : State) : s.grant.DP = s.DP := by rw [State.grant_eq]
@[simp] theorem State.grant_CC (s : State) : s.grant.CC = s.CC := by rw [State.grant_eq]
@[simp] theorem State.grant_temp (s : State) : s.grant.temp = s.temp := by rw [State.grant_eq]
@[simp] theorem State.grant_nmiArmed (s : State) : s.grant.nmiArmed = s.nmiArmed := by rw [State.grant_eq]
@[simp] theorem State.grant_nmiPending (s : State) : s.grant.nmiPending = s.nmiPending := by rw [State.grant_eq]
@[simp] theorem State.grant_run (s : State) : s.grant.run = s.run := by rw [State.grant_eq]
@[simp] theorem State.grant_resume (s : State) : s.grant.resume = s.resume := by rw [State.grant_eq]
@[simp] theorem State.grant_memMap (s : State) : s.grant.memMap = s.memMap := by rw [State.grant_eq]
@[simp] theorem State.grant_lines (s : State) : s.grant.lines = s.lines := by rw [State.grant_eq]
@[simp] theorem State.grant_pins (s : State) : s.grant.pins = s.pins := by rw [State.grant_eq]
@[simp] theorem State.grant_tick (s : State) : s.grant.tick = s.tick := by rw [State.grant_eq]

/-- Every grant before `n` reads changes memory, the grants to come and the codes shown, and nothing else. -/
theorem State.grantN_eq (n : Nat) (s : State) :
    State.grantN n s =
      { s with
        mem := (State.grantN n s).mem, grants := (State.grantN n s).grants, shown := (State.grantN n s).shown } := by
  induction n generalizing s with
  | zero => rfl
  | succ n ih => rw [State.grantN, ih, State.grant_eq]

theorem State.grantN_of_nil {s : State} (h : s.grants = []) (n : Nat) : State.grantN n s = s := by
  induction n with
  | zero => rfl
  | succ n ih => rw [State.grantN, State.grant_of_nil h, ih]

theorem State.grantN_wf {s : State} (h : s.mem.wf = true) (n : Nat) : (State.grantN n s).mem.wf = true := by
  induction n generalizing s with
  | zero => exact h
  | succ n ih => exact ih (State.grant_wf h)

theorem State.grantN_add (m n : Nat) (s : State) : State.grantN (m + n) s = State.grantN n (State.grantN m s) := by
  induction m generalizing s with
  | zero => rw [Nat.zero_add]; rfl
  | succ m ih => rw [Nat.succ_add, State.grantN, ih]; rfl

@[simp] theorem State.grantN_A (n : Nat) (s : State) : (State.grantN n s).A = s.A := by rw [State.grantN_eq]
@[simp] theorem State.grantN_B (n : Nat) (s : State) : (State.grantN n s).B = s.B := by rw [State.grantN_eq]
@[simp] theorem State.grantN_X (n : Nat) (s : State) : (State.grantN n s).X = s.X := by rw [State.grantN_eq]
@[simp] theorem State.grantN_Y (n : Nat) (s : State) : (State.grantN n s).Y = s.Y := by rw [State.grantN_eq]
@[simp] theorem State.grantN_U (n : Nat) (s : State) : (State.grantN n s).U = s.U := by rw [State.grantN_eq]
@[simp] theorem State.grantN_S (n : Nat) (s : State) : (State.grantN n s).S = s.S := by rw [State.grantN_eq]
@[simp] theorem State.grantN_PC (n : Nat) (s : State) : (State.grantN n s).PC = s.PC := by rw [State.grantN_eq]
@[simp] theorem State.grantN_DP (n : Nat) (s : State) : (State.grantN n s).DP = s.DP := by rw [State.grantN_eq]
@[simp] theorem State.grantN_CC (n : Nat) (s : State) : (State.grantN n s).CC = s.CC := by rw [State.grantN_eq]
@[simp] theorem State.grantN_temp (n : Nat) (s : State) : (State.grantN n s).temp = s.temp := by rw [State.grantN_eq]
@[simp] theorem State.grantN_nmiArmed (n : Nat) (s : State) : (State.grantN n s).nmiArmed = s.nmiArmed := by rw [State.grantN_eq]
@[simp] theorem State.grantN_nmiPending (n : Nat) (s : State) : (State.grantN n s).nmiPending = s.nmiPending := by rw [State.grantN_eq]
@[simp] theorem State.grantN_run (n : Nat) (s : State) : (State.grantN n s).run = s.run := by rw [State.grantN_eq]
@[simp] theorem State.grantN_resume (n : Nat) (s : State) : (State.grantN n s).resume = s.resume := by rw [State.grantN_eq]
@[simp] theorem State.grantN_memMap (n : Nat) (s : State) : (State.grantN n s).memMap = s.memMap := by rw [State.grantN_eq]
@[simp] theorem State.grantN_lines (n : Nat) (s : State) : (State.grantN n s).lines = s.lines := by rw [State.grantN_eq]
@[simp] theorem State.grantN_pins (n : Nat) (s : State) : (State.grantN n s).pins = s.pins := by rw [State.grantN_eq]
@[simp] theorem State.grantN_tick (n : Nat) (s : State) : (State.grantN n s).tick = s.tick := by rw [State.grantN_eq]

/-! With no grant to come, every access is one of the memory as it stands. -/

theorem State.busRead_of_nil {s : State} (h : s.grants = []) (a : Word) : s.busRead a = (s.readByte a, s) := by
  rw [State.busRead, State.grant_of_nil h]

theorem State.busReadWord_of_nil {s : State} (h : s.grants = []) (a : Word) : s.busReadWord a = (s.readWord a, s) := by
  simp [State.busReadWord, State.readWord, State.grant_of_nil h]

theorem State.busWrite_of_nil {s : State} (h : s.grants = []) (a : Word) (v : Byte) :
    s.busWrite a v = s.writeByte a v := by
  rw [State.busWrite, State.grant_of_nil h]

theorem State.busWriteWord_of_nil {s : State} (h : s.grants = []) (a v : Word) :
    s.busWriteWord a v = (s.writeByte a (hiByte v)).writeByte (a + 1) (loByte v) := by
  rw [State.busWriteWord, State.busWrite_of_nil h, State.busWrite_of_nil (by simpa using h)]

/-! A bus write changes memory, the grants to come and the codes shown, and nothing else. -/

theorem State.busWrite_eq (s : State) (a : Word) (v : Byte) :
    s.busWrite a v =
      { s with mem := (s.busWrite a v).mem, grants := (s.busWrite a v).grants, shown := (s.busWrite a v).shown } := by
  unfold State.busWrite; rw [State.writeByte_eq, State.grant_eq]

theorem State.busWrite_wf {s : State} (h : s.mem.wf = true) (a : Word) (v : Byte) : (s.busWrite a v).mem.wf = true :=
  State.writeByte_wf (State.grant_wf h) a v

/-- A byte read after a bus write: the byte written, else what the grant before the write left. -/
theorem State.readByte_busWrite (s : State) (a b : Word) (v : Byte) :
    (s.busWrite a v).readByte b = if a = b ∧ s.kindAt a = .ram then v else s.grant.readByte b := by
  have h : s.grant.kindAt a = s.kindAt a := by simp [State.kindAt]
  rw [State.busWrite, State.readByte_writeByte, h]

theorem State.busWriteWord_wf {s : State} (h : s.mem.wf = true) (a v : Word) : (s.busWriteWord a v).mem.wf = true :=
  State.busWrite_wf (State.busWrite_wf h _ _) _ _

@[simp] theorem State.busWrite_A (s : State) (a : Word) (v : Byte) : (s.busWrite a v).A = s.A := by rw [State.busWrite_eq]
@[simp] theorem State.busWrite_B (s : State) (a : Word) (v : Byte) : (s.busWrite a v).B = s.B := by rw [State.busWrite_eq]
@[simp] theorem State.busWrite_X (s : State) (a : Word) (v : Byte) : (s.busWrite a v).X = s.X := by rw [State.busWrite_eq]
@[simp] theorem State.busWrite_Y (s : State) (a : Word) (v : Byte) : (s.busWrite a v).Y = s.Y := by rw [State.busWrite_eq]
@[simp] theorem State.busWrite_U (s : State) (a : Word) (v : Byte) : (s.busWrite a v).U = s.U := by rw [State.busWrite_eq]
@[simp] theorem State.busWrite_S (s : State) (a : Word) (v : Byte) : (s.busWrite a v).S = s.S := by rw [State.busWrite_eq]
@[simp] theorem State.busWrite_PC (s : State) (a : Word) (v : Byte) : (s.busWrite a v).PC = s.PC := by rw [State.busWrite_eq]
@[simp] theorem State.busWrite_DP (s : State) (a : Word) (v : Byte) : (s.busWrite a v).DP = s.DP := by rw [State.busWrite_eq]
@[simp] theorem State.busWrite_CC (s : State) (a : Word) (v : Byte) : (s.busWrite a v).CC = s.CC := by rw [State.busWrite_eq]
@[simp] theorem State.busWrite_temp (s : State) (a : Word) (v : Byte) : (s.busWrite a v).temp = s.temp := by rw [State.busWrite_eq]
@[simp] theorem State.busWrite_nmiArmed (s : State) (a : Word) (v : Byte) : (s.busWrite a v).nmiArmed = s.nmiArmed := by rw [State.busWrite_eq]
@[simp] theorem State.busWrite_nmiPending (s : State) (a : Word) (v : Byte) : (s.busWrite a v).nmiPending = s.nmiPending := by rw [State.busWrite_eq]
@[simp] theorem State.busWrite_run (s : State) (a : Word) (v : Byte) : (s.busWrite a v).run = s.run := by rw [State.busWrite_eq]
@[simp] theorem State.busWrite_resume (s : State) (a : Word) (v : Byte) : (s.busWrite a v).resume = s.resume := by rw [State.busWrite_eq]
@[simp] theorem State.busWrite_memMap (s : State) (a : Word) (v : Byte) : (s.busWrite a v).memMap = s.memMap := by rw [State.busWrite_eq]
@[simp] theorem State.busWrite_lines (s : State) (a : Word) (v : Byte) : (s.busWrite a v).lines = s.lines := by rw [State.busWrite_eq]
@[simp] theorem State.busWrite_pins (s : State) (a : Word) (v : Byte) : (s.busWrite a v).pins = s.pins := by rw [State.busWrite_eq]
@[simp] theorem State.busWrite_tick (s : State) (a : Word) (v : Byte) : (s.busWrite a v).tick = s.tick := by rw [State.busWrite_eq]

/-- A word write changes memory, the grants to come and the codes shown, and nothing else. -/
theorem State.busWriteWord_eq (s : State) (a v : Word) :
    s.busWriteWord a v =
      { s with
        mem := (s.busWriteWord a v).mem, grants := (s.busWriteWord a v).grants, shown := (s.busWriteWord a v).shown } := by
  unfold State.busWriteWord; rw [State.busWrite_eq, State.busWrite_eq s]

/-! Stacks. -/

theorem State.setSp_wf {s : State} (h : s.mem.wf = true) (k : Stack) (v : Word) : (s.setSp k v).mem.wf = true := by
  cases k <;> exact h

/-- A push moves its stack pointer and writes the bus, and changes nothing else. -/
theorem State.push8_eq (s : State) (k : Stack) (v : Byte) :
    s.push8 k v =
      { s with
        S := (s.push8 k v).S, U := (s.push8 k v).U, mem := (s.push8 k v).mem, grants := (s.push8 k v).grants,
        shown := (s.push8 k v).shown } := by
  unfold State.push8; rw [State.busWrite_eq]; cases k <;> rfl

@[simp] theorem State.push8_A (s : State) (k : Stack) (v : Byte) : (s.push8 k v).A = s.A := by rw [State.push8_eq]
@[simp] theorem State.push8_B (s : State) (k : Stack) (v : Byte) : (s.push8 k v).B = s.B := by rw [State.push8_eq]
@[simp] theorem State.push8_X (s : State) (k : Stack) (v : Byte) : (s.push8 k v).X = s.X := by rw [State.push8_eq]
@[simp] theorem State.push8_Y (s : State) (k : Stack) (v : Byte) : (s.push8 k v).Y = s.Y := by rw [State.push8_eq]
@[simp] theorem State.push8_PC (s : State) (k : Stack) (v : Byte) : (s.push8 k v).PC = s.PC := by rw [State.push8_eq]
@[simp] theorem State.push8_DP (s : State) (k : Stack) (v : Byte) : (s.push8 k v).DP = s.DP := by rw [State.push8_eq]
@[simp] theorem State.push8_CC (s : State) (k : Stack) (v : Byte) : (s.push8 k v).CC = s.CC := by rw [State.push8_eq]
@[simp] theorem State.push8_temp (s : State) (k : Stack) (v : Byte) : (s.push8 k v).temp = s.temp := by rw [State.push8_eq]
@[simp] theorem State.push8_nmiArmed (s : State) (k : Stack) (v : Byte) : (s.push8 k v).nmiArmed = s.nmiArmed := by rw [State.push8_eq]
@[simp] theorem State.push8_nmiPending (s : State) (k : Stack) (v : Byte) : (s.push8 k v).nmiPending = s.nmiPending := by rw [State.push8_eq]
@[simp] theorem State.push8_run (s : State) (k : Stack) (v : Byte) : (s.push8 k v).run = s.run := by rw [State.push8_eq]
@[simp] theorem State.push8_resume (s : State) (k : Stack) (v : Byte) : (s.push8 k v).resume = s.resume := by rw [State.push8_eq]
@[simp] theorem State.push8_memMap (s : State) (k : Stack) (v : Byte) : (s.push8 k v).memMap = s.memMap := by rw [State.push8_eq]
@[simp] theorem State.push8_lines (s : State) (k : Stack) (v : Byte) : (s.push8 k v).lines = s.lines := by rw [State.push8_eq]
@[simp] theorem State.push8_pins (s : State) (k : Stack) (v : Byte) : (s.push8 k v).pins = s.pins := by rw [State.push8_eq]
@[simp] theorem State.push8_tick (s : State) (k : Stack) (v : Byte) : (s.push8 k v).tick = s.tick := by rw [State.push8_eq]

@[simp] theorem State.push8_s_U (s : State) (v : Byte) : (s.push8 .s v).U = s.U := by simp [State.push8, State.setSp]
@[simp] theorem State.push8_s_S (s : State) (v : Byte) : (s.push8 .s v).S = s.S - 1 := by
  simp [State.push8, State.setSp, State.sp]
@[simp] theorem State.push8_u_S (s : State) (v : Byte) : (s.push8 .u v).S = s.S := by simp [State.push8, State.setSp]
@[simp] theorem State.push8_u_U (s : State) (v : Byte) : (s.push8 .u v).U = s.U - 1 := by
  simp [State.push8, State.setSp, State.sp]

@[simp] theorem State.push8_sp (s : State) (k : Stack) (v : Byte) : (s.push8 k v).sp k = s.sp k - 1 := by
  cases k <;> simp [State.push8, State.sp, State.setSp]

theorem State.push8_wf {s : State} (h : s.mem.wf = true) (k : Stack) (v : Byte) : (s.push8 k v).mem.wf = true :=
  State.busWrite_wf (State.setSp_wf h k _) _ _

theorem State.push16_eq (s : State) (k : Stack) (v : Word) :
    s.push16 k v =
      { s with
        S := (s.push16 k v).S, U := (s.push16 k v).U, mem := (s.push16 k v).mem, grants := (s.push16 k v).grants,
        shown := (s.push16 k v).shown } := by
  unfold State.push16; rw [State.push8_eq (s.push8 k _), State.push8_eq s]

@[simp] theorem State.push16_A (s : State) (k : Stack) (v : Word) : (s.push16 k v).A = s.A := by rw [State.push16_eq]
@[simp] theorem State.push16_B (s : State) (k : Stack) (v : Word) : (s.push16 k v).B = s.B := by rw [State.push16_eq]
@[simp] theorem State.push16_X (s : State) (k : Stack) (v : Word) : (s.push16 k v).X = s.X := by rw [State.push16_eq]
@[simp] theorem State.push16_Y (s : State) (k : Stack) (v : Word) : (s.push16 k v).Y = s.Y := by rw [State.push16_eq]
@[simp] theorem State.push16_PC (s : State) (k : Stack) (v : Word) : (s.push16 k v).PC = s.PC := by rw [State.push16_eq]
@[simp] theorem State.push16_DP (s : State) (k : Stack) (v : Word) : (s.push16 k v).DP = s.DP := by rw [State.push16_eq]
@[simp] theorem State.push16_CC (s : State) (k : Stack) (v : Word) : (s.push16 k v).CC = s.CC := by rw [State.push16_eq]
@[simp] theorem State.push16_temp (s : State) (k : Stack) (v : Word) : (s.push16 k v).temp = s.temp := by rw [State.push16_eq]
@[simp] theorem State.push16_nmiArmed (s : State) (k : Stack) (v : Word) : (s.push16 k v).nmiArmed = s.nmiArmed := by rw [State.push16_eq]
@[simp] theorem State.push16_nmiPending (s : State) (k : Stack) (v : Word) : (s.push16 k v).nmiPending = s.nmiPending := by rw [State.push16_eq]
@[simp] theorem State.push16_run (s : State) (k : Stack) (v : Word) : (s.push16 k v).run = s.run := by rw [State.push16_eq]
@[simp] theorem State.push16_resume (s : State) (k : Stack) (v : Word) : (s.push16 k v).resume = s.resume := by rw [State.push16_eq]
@[simp] theorem State.push16_memMap (s : State) (k : Stack) (v : Word) : (s.push16 k v).memMap = s.memMap := by rw [State.push16_eq]
@[simp] theorem State.push16_lines (s : State) (k : Stack) (v : Word) : (s.push16 k v).lines = s.lines := by rw [State.push16_eq]
@[simp] theorem State.push16_pins (s : State) (k : Stack) (v : Word) : (s.push16 k v).pins = s.pins := by rw [State.push16_eq]
@[simp] theorem State.push16_tick (s : State) (k : Stack) (v : Word) : (s.push16 k v).tick = s.tick := by rw [State.push16_eq]

@[simp] theorem State.push16_s_U (s : State) (v : Word) : (s.push16 .s v).U = s.U := by simp [State.push16]
@[simp] theorem State.push16_u_S (s : State) (v : Word) : (s.push16 .u v).S = s.S := by simp [State.push16]
@[simp] theorem State.push16_s_S (s : State) (v : Word) : (s.push16 .s v).S = s.S - 2 := by
  simp [State.push16, BitVec.sub_sub]
@[simp] theorem State.push16_u_U (s : State) (v : Word) : (s.push16 .u v).U = s.U - 2 := by
  simp [State.push16, BitVec.sub_sub]

@[simp] theorem State.push16_sp (s : State) (k : Stack) (v : Word) : (s.push16 k v).sp k = s.sp k - 2 := by
  unfold State.push16; rw [State.push8_sp, State.push8_sp, BitVec.sub_sub]; rfl

theorem State.push16_wf {s : State} (h : s.mem.wf = true) (k : Stack) (v : Word) : (s.push16 k v).mem.wf = true :=
  State.push8_wf (State.push8_wf h k _) k _

/-- A push leaves the bytes outside the one it stores to as the grant before it left them. -/
theorem State.readByte_push8 (s : State) (k : Stack) (v : Byte) (b : Word) :
    (s.push8 k v).readByte b = if s.sp k - 1 = b ∧ s.kindAt (s.sp k - 1) = .ram then v else s.grant.readByte b := by
  have hg : (s.setSp k (s.sp k - 1)).grant.readByte b = s.grant.readByte b := by
    refine State.readByte_congr (State.grant_mem_congr ?_ ?_ ?_) ?_ ?_ b <;> cases k <;> simp [State.setSp]
  unfold State.push8
  rw [State.readByte_busWrite, hg]
  cases k <;> rfl

theorem State.drop8_wf {s : State} (h : s.mem.wf = true) (k : Stack) : (s.drop8 k).mem.wf = true := State.setSp_wf h k _

@[simp] theorem State.setReg8_mem (s : State) (r : Reg8) (v : Byte) : (s.setReg8 r v).mem = s.mem := by cases r <;> rfl
@[simp] theorem State.loadReg16_mem (s : State) (r : Reg16) (v : Word) : (s.loadReg16 r v).mem = s.mem := by
  cases r <;> rfl
@[simp] theorem State.drop8_mem (s : State) (k : Stack) : (s.drop8 k).mem = s.mem := by cases k <;> rfl
@[simp] theorem State.drop8_grants (s : State) (k : Stack) : (s.drop8 k).grants = s.grants := by cases k <;> rfl

theorem State.pull8_wf {s : State} (h : s.mem.wf = true) (k : Stack) (r : Reg8) : (s.pull8 k r).mem.wf = true := by
  simpa [State.pull8] using State.grant_wf h

theorem State.pull16_wf {s : State} (h : s.mem.wf = true) (k : Stack) (r : Reg16) : (s.pull16 k r).mem.wf = true := by
  simpa [State.pull16] using State.grant_wf (State.drop8_wf (State.grant_wf h) k)

/-- With no grant to come, a byte pulled is the top of the stack. -/
theorem State.pull8_of_nil {s : State} (h : s.grants = []) (k : Stack) (r : Reg8) :
    s.pull8 k r = (s.setReg8 r (s.readByte (s.sp k))).drop8 k := by
  rw [State.pull8, State.grant_of_nil h]; rfl

/-- With no grant to come, a word pulled is the one at the top of the stack. -/
theorem State.pull16_of_nil {s : State} (h : s.grants = []) (k : Stack) (r : Reg16) :
    s.pull16 k r = ((s.drop8 k).loadReg16 r (s.readWord (s.sp k))).drop8 k := by
  rw [State.pull16, State.grant_of_nil h, State.grant_of_nil (by simpa using h)]
  cases k <;> rfl

/-! Interrupts. -/

theorem State.stackEntire_wf {s : State} (h : s.mem.wf = true) : s.stackEntire.mem.wf = true := by
  unfold State.stackEntire
  exact State.push8_wf (State.push8_wf (State.push8_wf (State.push8_wf (State.push16_wf (State.push16_wf
    (State.push16_wf (State.push16_wf h .s _) .s _) .s _) .s _) .s _) .s _) .s _) .s _

theorem State.stackSubset_wf {s : State} (h : s.mem.wf = true) : s.stackSubset.mem.wf = true :=
  State.push8_wf (State.push16_wf h .s _) .s _

theorem State.stackFor_wf {s : State} (h : s.mem.wf = true) (k : IntKind) : (s.stackFor k).mem.wf = true := by
  cases k with
  | firq => exact State.stackSubset_wf (s := s.setFlag .E false) h
  | _ => exact State.stackEntire_wf (s := s.setFlag .E true) h

@[simp] theorem State.stackEntire_A (s : State) : s.stackEntire.A = s.A := by simp [State.stackEntire]
@[simp] theorem State.stackEntire_B (s : State) : s.stackEntire.B = s.B := by simp [State.stackEntire]
@[simp] theorem State.stackEntire_X (s : State) : s.stackEntire.X = s.X := by simp [State.stackEntire]
@[simp] theorem State.stackEntire_Y (s : State) : s.stackEntire.Y = s.Y := by simp [State.stackEntire]
@[simp] theorem State.stackEntire_PC (s : State) : s.stackEntire.PC = s.PC := by simp [State.stackEntire]
@[simp] theorem State.stackEntire_DP (s : State) : s.stackEntire.DP = s.DP := by simp [State.stackEntire]
@[simp] theorem State.stackEntire_CC (s : State) : s.stackEntire.CC = s.CC := by simp [State.stackEntire]
@[simp] theorem State.stackEntire_temp (s : State) : s.stackEntire.temp = s.temp := by simp [State.stackEntire]
@[simp] theorem State.stackEntire_nmiArmed (s : State) : s.stackEntire.nmiArmed = s.nmiArmed := by simp [State.stackEntire]
@[simp] theorem State.stackEntire_nmiPending (s : State) : s.stackEntire.nmiPending = s.nmiPending := by simp [State.stackEntire]
@[simp] theorem State.stackEntire_run (s : State) : s.stackEntire.run = s.run := by simp [State.stackEntire]
@[simp] theorem State.stackEntire_resume (s : State) : s.stackEntire.resume = s.resume := by simp [State.stackEntire]
@[simp] theorem State.stackEntire_memMap (s : State) : s.stackEntire.memMap = s.memMap := by simp [State.stackEntire]
@[simp] theorem State.stackEntire_lines (s : State) : s.stackEntire.lines = s.lines := by simp [State.stackEntire]
@[simp] theorem State.stackEntire_pins (s : State) : s.stackEntire.pins = s.pins := by simp [State.stackEntire]
@[simp] theorem State.stackEntire_tick (s : State) : s.stackEntire.tick = s.tick := by simp [State.stackEntire]
@[simp] theorem State.stackEntire_U (s : State) : s.stackEntire.U = s.U := by simp [State.stackEntire]
@[simp] theorem State.stackSubset_A (s : State) : s.stackSubset.A = s.A := by simp [State.stackSubset]
@[simp] theorem State.stackSubset_B (s : State) : s.stackSubset.B = s.B := by simp [State.stackSubset]
@[simp] theorem State.stackSubset_X (s : State) : s.stackSubset.X = s.X := by simp [State.stackSubset]
@[simp] theorem State.stackSubset_Y (s : State) : s.stackSubset.Y = s.Y := by simp [State.stackSubset]
@[simp] theorem State.stackSubset_PC (s : State) : s.stackSubset.PC = s.PC := by simp [State.stackSubset]
@[simp] theorem State.stackSubset_DP (s : State) : s.stackSubset.DP = s.DP := by simp [State.stackSubset]
@[simp] theorem State.stackSubset_CC (s : State) : s.stackSubset.CC = s.CC := by simp [State.stackSubset]
@[simp] theorem State.stackSubset_temp (s : State) : s.stackSubset.temp = s.temp := by simp [State.stackSubset]
@[simp] theorem State.stackSubset_nmiArmed (s : State) : s.stackSubset.nmiArmed = s.nmiArmed := by simp [State.stackSubset]
@[simp] theorem State.stackSubset_nmiPending (s : State) : s.stackSubset.nmiPending = s.nmiPending := by simp [State.stackSubset]
@[simp] theorem State.stackSubset_run (s : State) : s.stackSubset.run = s.run := by simp [State.stackSubset]
@[simp] theorem State.stackSubset_resume (s : State) : s.stackSubset.resume = s.resume := by simp [State.stackSubset]
@[simp] theorem State.stackSubset_memMap (s : State) : s.stackSubset.memMap = s.memMap := by simp [State.stackSubset]
@[simp] theorem State.stackSubset_lines (s : State) : s.stackSubset.lines = s.lines := by simp [State.stackSubset]
@[simp] theorem State.stackSubset_pins (s : State) : s.stackSubset.pins = s.pins := by simp [State.stackSubset]
@[simp] theorem State.stackSubset_tick (s : State) : s.stackSubset.tick = s.tick := by simp [State.stackSubset]
@[simp] theorem State.stackSubset_U (s : State) : s.stackSubset.U = s.U := by simp [State.stackSubset]

@[simp] theorem State.stackEntire_S (s : State) : s.stackEntire.S = s.S - 12 := by
  simp [State.stackEntire, BitVec.sub_sub]
@[simp] theorem State.stackSubset_S (s : State) : s.stackSubset.S = s.S - 3 := by
  simp [State.stackSubset, BitVec.sub_sub]

@[simp] theorem State.maskFor_mem (s : State) (k : IntKind) : (s.maskFor k).mem = s.mem := by cases k <;> rfl

theorem State.showCode_wf {s : State} (h : s.mem.wf = true) (c : Bool × Bool) : (s.showCode c).mem.wf = true := h

/-- A vector fetch changes PC, memory, the grants to come and the codes shown, and nothing else. -/
theorem State.vectorFetch_eq (s : State) (v : Word) :
    s.vectorFetch v =
      { s with
        PC := (s.vectorFetch v).PC, mem := (s.vectorFetch v).mem, grants := (s.vectorFetch v).grants,
        shown := (s.vectorFetch v).shown } := by
  simp only [State.vectorFetch, State.setPC, State.showCode]
  rw [State.grant_eq ({ s.grant with shown := _ }), State.grant_eq s]

theorem State.vectorFetch_wf {s : State} (h : s.mem.wf = true) (v : Word) : (s.vectorFetch v).mem.wf = true :=
  State.grant_wf (State.showCode_wf (State.grant_wf h) _)

/-- With no grant to come, a vector fetch gives the word at the vector, or the one a device supplies, and shows the
acknowledge code twice (60_exceptions.md R429). -/
theorem State.vectorFetch_of_nil {s : State} (h : s.grants = []) (v : Word) :
    s.vectorFetch v =
      { s with
        PC := s.pins.iack.getD (s.readWord v), shown := s.shown ++ [acknowledgeCode, acknowledgeCode] } := by
  simp only [State.vectorFetch, State.setPC, State.showCode, State.grant_of_nil h]
  rw [State.grant_of_nil (by exact h)]
  simp [State.readWord, State.readByte, State.kindAt]

@[simp] theorem State.vectorFetch_run (s : State) (v : Word) : (s.vectorFetch v).run = s.run := by
  rw [State.vectorFetch_eq]

/-- An entry keeps the canonical form of memory. -/
theorem State.interrupt_wf {s : State} (h : s.mem.wf = true) (k : IntKind) : (s.interrupt k).mem.wf = true := by
  unfold State.interrupt
  refine State.vectorFetch_wf ?_ _
  split
  · simpa using h
  · simpa using State.stackFor_wf h k

/-- After an entry the MPU runs. -/
@[simp] theorem State.interrupt_run (s : State) (k : IntKind) : (s.interrupt k).run = .running := by
  simp [State.interrupt]

/-! Operands. -/

/-- The last step of an address: `temp`, and for an indirect form the two reads of the pointer. -/
theorem State.finishEA_eq (s : State) (ea : Word) (ind : Bool) :
    (s.finishEA ea ind).2 =
      { s with
        temp := (s.finishEA ea ind).2.temp, mem := (s.finishEA ea ind).2.mem,
        grants := (s.finishEA ea ind).2.grants, shown := (s.finishEA ea ind).2.shown } := by
  cases ind with
  | false => rfl
  | true =>
    simp only [State.finishEA, if_true, State.busReadWord, State.setTemp]
    rw [State.grant_eq (State.grant _), State.grant_eq { s with temp := ea }]

/-- With no grant to come, an address is computed in memory as it stands. -/
theorem State.finishEA_of_nil {s : State} (h : s.grants = []) (ea : Word) (ind : Bool) :
    s.finishEA ea ind = (if ind then s.readWord ea else ea, s.setTemp ea) := by
  cases ind with
  | false => rfl
  | true => exact State.busReadWord_of_nil (s := s.setTemp ea) h ea

theorem State.finishEA_wf {s : State} (h : s.mem.wf = true) (ea : Word) (ind : Bool) :
    (s.finishEA ea ind).2.mem.wf = true := by
  cases ind with
  | false => exact h
  | true => exact State.grant_wf (State.grant_wf h)

/-- Moving a pointer register changes the four of them only. -/
theorem State.setPtr_eq (s : State) (r : Ptr) (v : Word) :
    s.setPtr r v =
      { s with X := (s.setPtr r v).X, Y := (s.setPtr r v).Y, U := (s.setPtr r v).U, S := (s.setPtr r v).S } := by
  cases r <;> rfl

theorem State.setPtr_wf {s : State} (h : s.mem.wf = true) (r : Ptr) (v : Word) : (s.setPtr r v).mem.wf = true := by
  cases r <;> exact h

/-- Computing an indexed address changes the pointer registers and `temp`, and what the bus changes for an indirect
form. -/
theorem State.indexedEA_eq (s : State) (x : Indexed) :
    (s.indexedEA x).2 =
      { s with
        X := (s.indexedEA x).2.X, Y := (s.indexedEA x).2.Y, U := (s.indexedEA x).2.U, S := (s.indexedEA x).2.S,
        temp := (s.indexedEA x).2.temp, mem := (s.indexedEA x).2.mem, grants := (s.indexedEA x).2.grants,
        shown := (s.indexedEA x).2.shown } := by
  cases x <;> simp only [State.indexedEA] <;> rw [State.finishEA_eq] <;> first | rfl | rw [State.setPtr_eq]

theorem State.indexedEA_wf {s : State} (h : s.mem.wf = true) (x : Indexed) : (s.indexedEA x).2.mem.wf = true := by
  cases x with
  | inc1 r => exact State.finishEA_wf (State.setPtr_wf h r _) _ _
  | inc2 r ind => exact State.finishEA_wf (State.setPtr_wf h r _) _ _
  | dec1 r => exact State.finishEA_wf (State.setPtr_wf h r _) _ _
  | dec2 r ind => exact State.finishEA_wf (State.setPtr_wf h r _) _ _
  | _ => exact State.finishEA_wf h _ _

/-- Computing any address changes the pointer registers and `temp`, and what the bus changes for an indirect form. -/
theorem State.resolve_eq (s : State) (o : Mem) :
    (s.resolve o).2 =
      { s with
        X := (s.resolve o).2.X, Y := (s.resolve o).2.Y, U := (s.resolve o).2.U, S := (s.resolve o).2.S,
        temp := (s.resolve o).2.temp, mem := (s.resolve o).2.mem, grants := (s.resolve o).2.grants,
        shown := (s.resolve o).2.shown } := by
  cases o with
  | dir dd => rfl
  | idx x => exact State.indexedEA_eq s x
  | ext a => rfl

theorem State.resolve_wf {s : State} (h : s.mem.wf = true) (o : Mem) : (s.resolve o).2.mem.wf = true := by
  cases o with
  | dir dd => exact h
  | idx x => exact State.indexedEA_wf h x
  | ext a => exact h

/-- Reading an operand changes the pointer registers and `temp`, and what the bus changes. -/
theorem State.operand8_eq (s : State) (o : Src8) :
    (s.operand8 o).2 =
      { s with
        X := (s.operand8 o).2.X, Y := (s.operand8 o).2.Y, U := (s.operand8 o).2.U, S := (s.operand8 o).2.S,
        temp := (s.operand8 o).2.temp, mem := (s.operand8 o).2.mem, grants := (s.operand8 o).2.grants,
        shown := (s.operand8 o).2.shown } := by
  cases o with
  | imm m => rfl
  | mem o =>
    simp only [State.operand8, State.busRead]
    rw [State.grant_eq, State.resolve_eq]

theorem State.operand8_wf {s : State} (h : s.mem.wf = true) (o : Src8) : (s.operand8 o).2.mem.wf = true := by
  cases o with
  | imm m => exact h
  | mem o => exact State.grant_wf (State.resolve_wf h o)

theorem State.operand16_eq (s : State) (o : Src16) :
    (s.operand16 o).2 =
      { s with
        X := (s.operand16 o).2.X, Y := (s.operand16 o).2.Y, U := (s.operand16 o).2.U, S := (s.operand16 o).2.S,
        temp := (s.operand16 o).2.temp, mem := (s.operand16 o).2.mem, grants := (s.operand16 o).2.grants,
        shown := (s.operand16 o).2.shown } := by
  cases o with
  | imm m => rfl
  | mem o =>
    simp only [State.operand16, State.busReadWord]
    rw [State.grant_eq (State.grant _), State.grant_eq (s.resolve o).2, State.resolve_eq]

theorem State.operand16_wf {s : State} (h : s.mem.wf = true) (o : Src16) : (s.operand16 o).2.mem.wf = true := by
  cases o with
  | imm m => exact h
  | mem o => exact State.grant_wf (State.grant_wf (State.resolve_wf h o))

/-! With no grant to come, computing an address and reading an operand leave memory, the grants and the codes alone. -/

theorem State.indexedEA_quiet {s : State} (h : s.grants = []) (x : Indexed) :
    (s.indexedEA x).2.mem = s.mem ∧ (s.indexedEA x).2.grants = [] ∧ (s.indexedEA x).2.shown = s.shown := by
  cases x with
  | inc1 r => rw [State.indexedEA, State.finishEA_of_nil (by cases r <;> exact h)]; cases r <;> exact ⟨rfl, h, rfl⟩
  | inc2 r ind => rw [State.indexedEA, State.finishEA_of_nil (by cases r <;> exact h)]; cases r <;> exact ⟨rfl, h, rfl⟩
  | dec1 r => rw [State.indexedEA, State.finishEA_of_nil (by cases r <;> exact h)]; cases r <;> exact ⟨rfl, h, rfl⟩
  | dec2 r ind => rw [State.indexedEA, State.finishEA_of_nil (by cases r <;> exact h)]; cases r <;> exact ⟨rfl, h, rfl⟩
  | off5 r n => exact ⟨rfl, h, rfl⟩
  | _ => rw [State.indexedEA, State.finishEA_of_nil h]; exact ⟨rfl, h, rfl⟩

theorem State.resolve_quiet {s : State} (h : s.grants = []) (o : Mem) :
    (s.resolve o).2.mem = s.mem ∧ (s.resolve o).2.grants = [] ∧ (s.resolve o).2.shown = s.shown := by
  cases o with
  | dir dd => exact ⟨rfl, h, rfl⟩
  | idx x => exact State.indexedEA_quiet h x
  | ext a => exact ⟨rfl, h, rfl⟩

theorem State.operand8_quiet {s : State} (h : s.grants = []) (o : Src8) :
    (s.operand8 o).2.mem = s.mem ∧ (s.operand8 o).2.grants = [] ∧ (s.operand8 o).2.shown = s.shown := by
  cases o with
  | imm m => exact ⟨rfl, h, rfl⟩
  | mem o => rw [State.operand8, State.busRead_of_nil (State.resolve_quiet h o).2.1]; exact State.resolve_quiet h o

theorem State.operand16_quiet {s : State} (h : s.grants = []) (o : Src16) :
    (s.operand16 o).2.mem = s.mem ∧ (s.operand16 o).2.grants = [] ∧ (s.operand16 o).2.shown = s.shown := by
  cases o with
  | imm m => exact ⟨rfl, h, rfl⟩
  | mem o => rw [State.operand16, State.busReadWord_of_nil (State.resolve_quiet h o).2.1]; exact State.resolve_quiet h o

@[simp] theorem State.indexedEA_A (s : State) (x : Indexed) : (s.indexedEA x).2.A = s.A := by rw [State.indexedEA_eq]
@[simp] theorem State.indexedEA_B (s : State) (x : Indexed) : (s.indexedEA x).2.B = s.B := by rw [State.indexedEA_eq]
@[simp] theorem State.indexedEA_PC (s : State) (x : Indexed) : (s.indexedEA x).2.PC = s.PC := by rw [State.indexedEA_eq]
@[simp] theorem State.indexedEA_DP (s : State) (x : Indexed) : (s.indexedEA x).2.DP = s.DP := by rw [State.indexedEA_eq]
@[simp] theorem State.indexedEA_CC (s : State) (x : Indexed) : (s.indexedEA x).2.CC = s.CC := by rw [State.indexedEA_eq]
@[simp] theorem State.indexedEA_nmiArmed (s : State) (x : Indexed) : (s.indexedEA x).2.nmiArmed = s.nmiArmed := by rw [State.indexedEA_eq]
@[simp] theorem State.indexedEA_nmiPending (s : State) (x : Indexed) : (s.indexedEA x).2.nmiPending = s.nmiPending := by rw [State.indexedEA_eq]
@[simp] theorem State.indexedEA_run (s : State) (x : Indexed) : (s.indexedEA x).2.run = s.run := by rw [State.indexedEA_eq]
@[simp] theorem State.indexedEA_resume (s : State) (x : Indexed) : (s.indexedEA x).2.resume = s.resume := by rw [State.indexedEA_eq]
@[simp] theorem State.indexedEA_memMap (s : State) (x : Indexed) : (s.indexedEA x).2.memMap = s.memMap := by rw [State.indexedEA_eq]
@[simp] theorem State.indexedEA_lines (s : State) (x : Indexed) : (s.indexedEA x).2.lines = s.lines := by rw [State.indexedEA_eq]
@[simp] theorem State.indexedEA_pins (s : State) (x : Indexed) : (s.indexedEA x).2.pins = s.pins := by rw [State.indexedEA_eq]
@[simp] theorem State.indexedEA_tick (s : State) (x : Indexed) : (s.indexedEA x).2.tick = s.tick := by rw [State.indexedEA_eq]

@[simp] theorem State.resolve_A (s : State) (o : Mem) : (s.resolve o).2.A = s.A := by rw [State.resolve_eq]
@[simp] theorem State.resolve_B (s : State) (o : Mem) : (s.resolve o).2.B = s.B := by rw [State.resolve_eq]
@[simp] theorem State.resolve_PC (s : State) (o : Mem) : (s.resolve o).2.PC = s.PC := by rw [State.resolve_eq]
@[simp] theorem State.resolve_DP (s : State) (o : Mem) : (s.resolve o).2.DP = s.DP := by rw [State.resolve_eq]
@[simp] theorem State.resolve_CC (s : State) (o : Mem) : (s.resolve o).2.CC = s.CC := by rw [State.resolve_eq]
@[simp] theorem State.resolve_nmiArmed (s : State) (o : Mem) : (s.resolve o).2.nmiArmed = s.nmiArmed := by rw [State.resolve_eq]
@[simp] theorem State.resolve_nmiPending (s : State) (o : Mem) : (s.resolve o).2.nmiPending = s.nmiPending := by rw [State.resolve_eq]
@[simp] theorem State.resolve_run (s : State) (o : Mem) : (s.resolve o).2.run = s.run := by rw [State.resolve_eq]
@[simp] theorem State.resolve_resume (s : State) (o : Mem) : (s.resolve o).2.resume = s.resume := by rw [State.resolve_eq]
@[simp] theorem State.resolve_memMap (s : State) (o : Mem) : (s.resolve o).2.memMap = s.memMap := by rw [State.resolve_eq]
@[simp] theorem State.resolve_lines (s : State) (o : Mem) : (s.resolve o).2.lines = s.lines := by rw [State.resolve_eq]
@[simp] theorem State.resolve_pins (s : State) (o : Mem) : (s.resolve o).2.pins = s.pins := by rw [State.resolve_eq]
@[simp] theorem State.resolve_tick (s : State) (o : Mem) : (s.resolve o).2.tick = s.tick := by rw [State.resolve_eq]

@[simp] theorem State.operand8_A (s : State) (o : Src8) : (s.operand8 o).2.A = s.A := by rw [State.operand8_eq]
@[simp] theorem State.operand8_B (s : State) (o : Src8) : (s.operand8 o).2.B = s.B := by rw [State.operand8_eq]
@[simp] theorem State.operand8_PC (s : State) (o : Src8) : (s.operand8 o).2.PC = s.PC := by rw [State.operand8_eq]
@[simp] theorem State.operand8_DP (s : State) (o : Src8) : (s.operand8 o).2.DP = s.DP := by rw [State.operand8_eq]
@[simp] theorem State.operand8_CC (s : State) (o : Src8) : (s.operand8 o).2.CC = s.CC := by rw [State.operand8_eq]
@[simp] theorem State.operand8_nmiArmed (s : State) (o : Src8) : (s.operand8 o).2.nmiArmed = s.nmiArmed := by rw [State.operand8_eq]
@[simp] theorem State.operand8_nmiPending (s : State) (o : Src8) : (s.operand8 o).2.nmiPending = s.nmiPending := by rw [State.operand8_eq]
@[simp] theorem State.operand8_run (s : State) (o : Src8) : (s.operand8 o).2.run = s.run := by rw [State.operand8_eq]
@[simp] theorem State.operand8_resume (s : State) (o : Src8) : (s.operand8 o).2.resume = s.resume := by rw [State.operand8_eq]
@[simp] theorem State.operand8_memMap (s : State) (o : Src8) : (s.operand8 o).2.memMap = s.memMap := by rw [State.operand8_eq]
@[simp] theorem State.operand8_lines (s : State) (o : Src8) : (s.operand8 o).2.lines = s.lines := by rw [State.operand8_eq]
@[simp] theorem State.operand8_pins (s : State) (o : Src8) : (s.operand8 o).2.pins = s.pins := by rw [State.operand8_eq]
@[simp] theorem State.operand8_tick (s : State) (o : Src8) : (s.operand8 o).2.tick = s.tick := by rw [State.operand8_eq]

@[simp] theorem State.operand16_A (s : State) (o : Src16) : (s.operand16 o).2.A = s.A := by rw [State.operand16_eq]
@[simp] theorem State.operand16_B (s : State) (o : Src16) : (s.operand16 o).2.B = s.B := by rw [State.operand16_eq]
@[simp] theorem State.operand16_PC (s : State) (o : Src16) : (s.operand16 o).2.PC = s.PC := by rw [State.operand16_eq]
@[simp] theorem State.operand16_DP (s : State) (o : Src16) : (s.operand16 o).2.DP = s.DP := by rw [State.operand16_eq]
@[simp] theorem State.operand16_CC (s : State) (o : Src16) : (s.operand16 o).2.CC = s.CC := by rw [State.operand16_eq]
@[simp] theorem State.operand16_nmiArmed (s : State) (o : Src16) : (s.operand16 o).2.nmiArmed = s.nmiArmed := by rw [State.operand16_eq]
@[simp] theorem State.operand16_nmiPending (s : State) (o : Src16) : (s.operand16 o).2.nmiPending = s.nmiPending := by rw [State.operand16_eq]
@[simp] theorem State.operand16_run (s : State) (o : Src16) : (s.operand16 o).2.run = s.run := by rw [State.operand16_eq]
@[simp] theorem State.operand16_resume (s : State) (o : Src16) : (s.operand16 o).2.resume = s.resume := by rw [State.operand16_eq]
@[simp] theorem State.operand16_memMap (s : State) (o : Src16) : (s.operand16 o).2.memMap = s.memMap := by rw [State.operand16_eq]
@[simp] theorem State.operand16_lines (s : State) (o : Src16) : (s.operand16 o).2.lines = s.lines := by rw [State.operand16_eq]
@[simp] theorem State.operand16_pins (s : State) (o : Src16) : (s.operand16 o).2.pins = s.pins := by rw [State.operand16_eq]
@[simp] theorem State.operand16_tick (s : State) (o : Src16) : (s.operand16 o).2.tick = s.tick := by rw [State.operand16_eq]

/-! Push and pull. -/

theorem State.push8If_wf {s : State} (h : s.mem.wf = true) (k : Stack) (b : Bool) (v : Byte) :
    (s.push8If k b v).mem.wf = true := by
  cases b
  · exact h
  · exact State.push8_wf h k v

theorem State.push16If_wf {s : State} (h : s.mem.wf = true) (k : Stack) (b : Bool) (v : Word) :
    (s.push16If k b v).mem.wf = true := by
  cases b
  · exact h
  · exact State.push16_wf h k v

theorem State.pushList_wf {s : State} (h : s.mem.wf = true) (k : Stack) (l : RegList) :
    (s.pushList k l).mem.wf = true := by
  unfold State.pushList
  exact State.push8If_wf (State.push8If_wf (State.push8If_wf (State.push8If_wf (State.push16If_wf (State.push16If_wf
    (State.push16If_wf (State.push16If_wf h k _ _) k _ _) k _ _) k _ _) k _ _) k _ _) k _ _) k _ _

theorem State.pull8If_wf {s : State} (h : s.mem.wf = true) (k : Stack) (b : Bool) (r : Reg8) :
    (s.pull8If k b r).mem.wf = true := by
  cases b
  · exact h
  · exact State.pull8_wf h k r

theorem State.pull16If_wf {s : State} (h : s.mem.wf = true) (k : Stack) (b : Bool) (r : Reg16) :
    (s.pull16If k b r).mem.wf = true := by
  cases b
  · exact h
  · exact State.pull16_wf h k r

theorem State.pullList_wf {s : State} (h : s.mem.wf = true) (k : Stack) (l : RegList) :
    (s.pullList k l).mem.wf = true := by
  unfold State.pullList
  exact State.pull16If_wf (State.pull16If_wf (State.pull16If_wf (State.pull16If_wf (State.pull8If_wf (State.pull8If_wf
    (State.pull8If_wf (State.pull8If_wf h k _ _) k _ _) k _ _) k _ _) k _ _) k _ _) k _ _) k _ _

/-! Fetching. -/

/-- With no grant to come, a fetch reads the bytes at PC as they stand. -/
theorem State.fetchByte_of_nil {s : State} (h : s.grants = []) (n : Nat) :
    s.fetchByte n = s.readByte (s.PC + BitVec.ofNat 16 n) := by
  rw [State.fetchByte, State.grantN_of_nil h]

/-- With no grant to come, fetching moves PC and nothing else. -/
theorem State.fetched_of_nil {s : State} (h : s.grants = []) (n : Nat) :
    s.fetched n = s.setPC (s.PC + BitVec.ofNat 16 n) := by
  rw [State.fetched, State.grantN_of_nil h]

theorem State.fetched_wf {s : State} (h : s.mem.wf = true) (n : Nat) : (s.fetched n).mem.wf = true := State.grantN_wf h n

/-! Between instructions. -/

/-- Sampling the pins changes the pins, the stream, the grants to come, the codes shown, the tick and the NMI latch only. -/
theorem State.sample_eq (s : State) :
    s.sample =
      { s with
        pins := s.nextPins, grants := s.nextPins.grants, shown := [], lines := s.lines.tail, tick := s.tick + 1,
        nmiPending := s.nmiPending || (s.nextPins.nmiEdge && s.nmiArmed) } := rfl

theorem State.masterWrites_eq (s : State) : s.masterWrites = { s with mem := s.masterWrites.mem } :=
  State.otherWrites_eq s _

theorem State.masterWrites_wf {s : State} (h : s.mem.wf = true) : s.masterWrites.mem.wf = true :=
  State.otherWrites_wf h _

theorem State.allGrants_wf {s : State} (h : s.mem.wf = true) : s.allGrants.mem.wf = true := State.grantN_wf h _

/-- An abandoned instruction leaves memory in canonical form. -/
theorem mergeWrites_wf (p : Nat → Bool) {before after : Memory} (hb : before.wf = true) (ha : after.wf = true) :
    (mergeWrites p before after).wf = true := by
  have hbound : ∀ a ∈ (before ++ after).map Prod.fst, a < 65536 := by
    intro a h
    obtain ⟨c, hc, rfl⟩ := List.mem_map.mp h
    rcases List.mem_append.mp hc with hc | hc
    · exact Memory.wf_bound hb c hc
    · exact Memory.wf_bound ha c hc
  unfold mergeWrites
  generalize (before ++ after).map Prod.fst = as at hbound
  suffices ∀ m : Memory, m.wf = true →
      (as.foldl (fun m a => if p a then m.write a (after.read a) else m) m).wf = true from this before hb
  induction as with
  | nil => exact fun m h => h
  | cons a as ih =>
    intro m h
    refine ih (fun b hb => hbound b (by simp [hb])) _ ?_
    dsimp only
    split
    · exact Memory.wf_write _ h (hbound a (by simp))
    · exact h

end Sys2Proof.Machine
end

