-- ==== Sys2Proof/Laws/PerInstr.lean ====
section
/-! SUPPORT. Statements about the instruction as syntax, one lemma per constructor. -/

namespace Sys2Proof

/-- An indexed operand takes one to three bytes (30_encoding.md R102). -/
theorem encodeIndexed_length (x : Indexed) : 1 ≤ (encodeIndexed x).length ∧ (encodeIndexed x).length ≤ 3 := by
  cases x <;> simp [encodeIndexed, wordBytes]

theorem encodeMem_length (d i e : Byte) (o : Mem) :
    2 ≤ (encodeMem d i e o).length ∧ (encodeMem d i e o).length ≤ 4 := by
  cases o with
  | dir dd => simp [encodeMem]
  | idx x => have := encodeIndexed_length x; simp only [encodeMem, List.length_cons]; omega
  | ext a => simp [encodeMem, wordBytes]

theorem encodeSrc8_length (op : Byte) (o : Src8) :
    2 ≤ (encodeSrc8 op o).length ∧ (encodeSrc8 op o).length ≤ 4 := by
  cases o with
  | imm m => simp [encodeSrc8]
  | mem o => exact encodeMem_length _ _ _ o

theorem encodeSrc16_length (op : Byte) (o : Src16) :
    2 ≤ (encodeSrc16 op o).length ∧ (encodeSrc16 op o).length ≤ 4 := by
  cases o with
  | imm m => simp [encodeSrc16, wordBytes]
  | mem o => exact encodeMem_length _ _ _ o

/-- Every instruction has one to five bytes (30_encoding.md R90). -/
def Laws.Length.Statement (i : Instr) : Prop := 1 ≤ (encode i).length ∧ (encode i).length ≤ 5

namespace Laws.Length

theorem adca (o : Src8) : Statement (.adca o) :=
  ⟨Nat.le_of_succ_le (encodeSrc8_length _ o).1, Nat.le_succ_of_le (encodeSrc8_length _ o).2⟩

theorem adcb (o : Src8) : Statement (.adcb o) :=
  ⟨Nat.le_of_succ_le (encodeSrc8_length _ o).1, Nat.le_succ_of_le (encodeSrc8_length _ o).2⟩

theorem adda (o : Src8) : Statement (.adda o) :=
  ⟨Nat.le_of_succ_le (encodeSrc8_length _ o).1, Nat.le_succ_of_le (encodeSrc8_length _ o).2⟩

theorem addb (o : Src8) : Statement (.addb o) :=
  ⟨Nat.le_of_succ_le (encodeSrc8_length _ o).1, Nat.le_succ_of_le (encodeSrc8_length _ o).2⟩

theorem anda (o : Src8) : Statement (.anda o) :=
  ⟨Nat.le_of_succ_le (encodeSrc8_length _ o).1, Nat.le_succ_of_le (encodeSrc8_length _ o).2⟩

theorem andb (o : Src8) : Statement (.andb o) :=
  ⟨Nat.le_of_succ_le (encodeSrc8_length _ o).1, Nat.le_succ_of_le (encodeSrc8_length _ o).2⟩

theorem bita (o : Src8) : Statement (.bita o) :=
  ⟨Nat.le_of_succ_le (encodeSrc8_length _ o).1, Nat.le_succ_of_le (encodeSrc8_length _ o).2⟩

theorem bitb (o : Src8) : Statement (.bitb o) :=
  ⟨Nat.le_of_succ_le (encodeSrc8_length _ o).1, Nat.le_succ_of_le (encodeSrc8_length _ o).2⟩

theorem cmpa (o : Src8) : Statement (.cmpa o) :=
  ⟨Nat.le_of_succ_le (encodeSrc8_length _ o).1, Nat.le_succ_of_le (encodeSrc8_length _ o).2⟩

theorem cmpb (o : Src8) : Statement (.cmpb o) :=
  ⟨Nat.le_of_succ_le (encodeSrc8_length _ o).1, Nat.le_succ_of_le (encodeSrc8_length _ o).2⟩

theorem eora (o : Src8) : Statement (.eora o) :=
  ⟨Nat.le_of_succ_le (encodeSrc8_length _ o).1, Nat.le_succ_of_le (encodeSrc8_length _ o).2⟩

theorem eorb (o : Src8) : Statement (.eorb o) :=
  ⟨Nat.le_of_succ_le (encodeSrc8_length _ o).1, Nat.le_succ_of_le (encodeSrc8_length _ o).2⟩

theorem lda (o : Src8) : Statement (.lda o) :=
  ⟨Nat.le_of_succ_le (encodeSrc8_length _ o).1, Nat.le_succ_of_le (encodeSrc8_length _ o).2⟩

theorem ldb (o : Src8) : Statement (.ldb o) :=
  ⟨Nat.le_of_succ_le (encodeSrc8_length _ o).1, Nat.le_succ_of_le (encodeSrc8_length _ o).2⟩

theorem ora (o : Src8) : Statement (.ora o) :=
  ⟨Nat.le_of_succ_le (encodeSrc8_length _ o).1, Nat.le_succ_of_le (encodeSrc8_length _ o).2⟩

theorem orb (o : Src8) : Statement (.orb o) :=
  ⟨Nat.le_of_succ_le (encodeSrc8_length _ o).1, Nat.le_succ_of_le (encodeSrc8_length _ o).2⟩

theorem sbca (o : Src8) : Statement (.sbca o) :=
  ⟨Nat.le_of_succ_le (encodeSrc8_length _ o).1, Nat.le_succ_of_le (encodeSrc8_length _ o).2⟩

theorem sbcb (o : Src8) : Statement (.sbcb o) :=
  ⟨Nat.le_of_succ_le (encodeSrc8_length _ o).1, Nat.le_succ_of_le (encodeSrc8_length _ o).2⟩

theorem suba (o : Src8) : Statement (.suba o) :=
  ⟨Nat.le_of_succ_le (encodeSrc8_length _ o).1, Nat.le_succ_of_le (encodeSrc8_length _ o).2⟩

theorem subb (o : Src8) : Statement (.subb o) :=
  ⟨Nat.le_of_succ_le (encodeSrc8_length _ o).1, Nat.le_succ_of_le (encodeSrc8_length _ o).2⟩

theorem sta (o : Mem) : Statement (.sta o) :=
  ⟨Nat.le_of_succ_le (encodeMem_length _ _ _ o).1, Nat.le_succ_of_le (encodeMem_length _ _ _ o).2⟩

theorem stb (o : Mem) : Statement (.stb o) :=
  ⟨Nat.le_of_succ_le (encodeMem_length _ _ _ o).1, Nat.le_succ_of_le (encodeMem_length _ _ _ o).2⟩

theorem asl (o : Mem) : Statement (.asl o) :=
  ⟨Nat.le_of_succ_le (encodeMem_length _ _ _ o).1, Nat.le_succ_of_le (encodeMem_length _ _ _ o).2⟩

theorem asla : Statement .asla :=
  ⟨Nat.le_of_ble_eq_true rfl, Nat.le_of_ble_eq_true rfl⟩

theorem aslb : Statement .aslb :=
  ⟨Nat.le_of_ble_eq_true rfl, Nat.le_of_ble_eq_true rfl⟩

theorem asr (o : Mem) : Statement (.asr o) :=
  ⟨Nat.le_of_succ_le (encodeMem_length _ _ _ o).1, Nat.le_succ_of_le (encodeMem_length _ _ _ o).2⟩

theorem asra : Statement .asra :=
  ⟨Nat.le_of_ble_eq_true rfl, Nat.le_of_ble_eq_true rfl⟩

theorem asrb : Statement .asrb :=
  ⟨Nat.le_of_ble_eq_true rfl, Nat.le_of_ble_eq_true rfl⟩

theorem clr (o : Mem) : Statement (.clr o) :=
  ⟨Nat.le_of_succ_le (encodeMem_length _ _ _ o).1, Nat.le_succ_of_le (encodeMem_length _ _ _ o).2⟩

theorem clra : Statement .clra :=
  ⟨Nat.le_of_ble_eq_true rfl, Nat.le_of_ble_eq_true rfl⟩

theorem clrb : Statement .clrb :=
  ⟨Nat.le_of_ble_eq_true rfl, Nat.le_of_ble_eq_true rfl⟩

theorem com (o : Mem) : Statement (.com o) :=
  ⟨Nat.le_of_succ_le (encodeMem_length _ _ _ o).1, Nat.le_succ_of_le (encodeMem_length _ _ _ o).2⟩

theorem coma : Statement .coma :=
  ⟨Nat.le_of_ble_eq_true rfl, Nat.le_of_ble_eq_true rfl⟩

theorem comb : Statement .comb :=
  ⟨Nat.le_of_ble_eq_true rfl, Nat.le_of_ble_eq_true rfl⟩

theorem dec (o : Mem) : Statement (.dec o) :=
  ⟨Nat.le_of_succ_le (encodeMem_length _ _ _ o).1, Nat.le_succ_of_le (encodeMem_length _ _ _ o).2⟩

theorem deca : Statement .deca :=
  ⟨Nat.le_of_ble_eq_true rfl, Nat.le_of_ble_eq_true rfl⟩

theorem decb : Statement .decb :=
  ⟨Nat.le_of_ble_eq_true rfl, Nat.le_of_ble_eq_true rfl⟩

theorem inc (o : Mem) : Statement (.inc o) :=
  ⟨Nat.le_of_succ_le (encodeMem_length _ _ _ o).1, Nat.le_succ_of_le (encodeMem_length _ _ _ o).2⟩

theorem inca : Statement .inca :=
  ⟨Nat.le_of_ble_eq_true rfl, Nat.le_of_ble_eq_true rfl⟩

theorem incb : Statement .incb :=
  ⟨Nat.le_of_ble_eq_true rfl, Nat.le_of_ble_eq_true rfl⟩

theorem lsr (o : Mem) : Statement (.lsr o) :=
  ⟨Nat.le_of_succ_le (encodeMem_length _ _ _ o).1, Nat.le_succ_of_le (encodeMem_length _ _ _ o).2⟩

theorem lsra : Statement .lsra :=
  ⟨Nat.le_of_ble_eq_true rfl, Nat.le_of_ble_eq_true rfl⟩

theorem lsrb : Statement .lsrb :=
  ⟨Nat.le_of_ble_eq_true rfl, Nat.le_of_ble_eq_true rfl⟩

theorem neg (o : Mem) : Statement (.neg o) :=
  ⟨Nat.le_of_succ_le (encodeMem_length _ _ _ o).1, Nat.le_succ_of_le (encodeMem_length _ _ _ o).2⟩

theorem nega : Statement .nega :=
  ⟨Nat.le_of_ble_eq_true rfl, Nat.le_of_ble_eq_true rfl⟩

theorem negb : Statement .negb :=
  ⟨Nat.le_of_ble_eq_true rfl, Nat.le_of_ble_eq_true rfl⟩

theorem rol (o : Mem) : Statement (.rol o) :=
  ⟨Nat.le_of_succ_le (encodeMem_length _ _ _ o).1, Nat.le_succ_of_le (encodeMem_length _ _ _ o).2⟩

theorem rola : Statement .rola :=
  ⟨Nat.le_of_ble_eq_true rfl, Nat.le_of_ble_eq_true rfl⟩

theorem rolb : Statement .rolb :=
  ⟨Nat.le_of_ble_eq_true rfl, Nat.le_of_ble_eq_true rfl⟩

theorem ror (o : Mem) : Statement (.ror o) :=
  ⟨Nat.le_of_succ_le (encodeMem_length _ _ _ o).1, Nat.le_succ_of_le (encodeMem_length _ _ _ o).2⟩

theorem rora : Statement .rora :=
  ⟨Nat.le_of_ble_eq_true rfl, Nat.le_of_ble_eq_true rfl⟩

theorem rorb : Statement .rorb :=
  ⟨Nat.le_of_ble_eq_true rfl, Nat.le_of_ble_eq_true rfl⟩

theorem tst (o : Mem) : Statement (.tst o) :=
  ⟨Nat.le_of_succ_le (encodeMem_length _ _ _ o).1, Nat.le_succ_of_le (encodeMem_length _ _ _ o).2⟩

theorem tsta : Statement .tsta :=
  ⟨Nat.le_of_ble_eq_true rfl, Nat.le_of_ble_eq_true rfl⟩

theorem tstb : Statement .tstb :=
  ⟨Nat.le_of_ble_eq_true rfl, Nat.le_of_ble_eq_true rfl⟩

theorem daa : Statement .daa :=
  ⟨Nat.le_of_ble_eq_true rfl, Nat.le_of_ble_eq_true rfl⟩

theorem mul : Statement .mul :=
  ⟨Nat.le_of_ble_eq_true rfl, Nat.le_of_ble_eq_true rfl⟩

theorem addd (o : Src16) : Statement (.addd o) :=
  ⟨Nat.le_of_succ_le (encodeSrc16_length _ o).1, Nat.le_succ_of_le (encodeSrc16_length _ o).2⟩

theorem cmpd (o : Src16) : Statement (.cmpd o) :=
  ⟨Nat.le_add_left 1 _, Nat.succ_le_succ (encodeSrc16_length _ o).2⟩

theorem ldd (o : Src16) : Statement (.ldd o) :=
  ⟨Nat.le_of_succ_le (encodeSrc16_length _ o).1, Nat.le_succ_of_le (encodeSrc16_length _ o).2⟩

theorem subd (o : Src16) : Statement (.subd o) :=
  ⟨Nat.le_of_succ_le (encodeSrc16_length _ o).1, Nat.le_succ_of_le (encodeSrc16_length _ o).2⟩

theorem std (o : Mem) : Statement (.std o) :=
  ⟨Nat.le_of_succ_le (encodeMem_length _ _ _ o).1, Nat.le_succ_of_le (encodeMem_length _ _ _ o).2⟩

theorem sex : Statement .sex :=
  ⟨Nat.le_of_ble_eq_true rfl, Nat.le_of_ble_eq_true rfl⟩

theorem cmps (o : Src16) : Statement (.cmps o) :=
  ⟨Nat.le_add_left 1 _, Nat.succ_le_succ (encodeSrc16_length _ o).2⟩

theorem cmpu (o : Src16) : Statement (.cmpu o) :=
  ⟨Nat.le_add_left 1 _, Nat.succ_le_succ (encodeSrc16_length _ o).2⟩

theorem cmpx (o : Src16) : Statement (.cmpx o) :=
  ⟨Nat.le_of_succ_le (encodeSrc16_length _ o).1, Nat.le_succ_of_le (encodeSrc16_length _ o).2⟩

theorem cmpy (o : Src16) : Statement (.cmpy o) :=
  ⟨Nat.le_add_left 1 _, Nat.succ_le_succ (encodeSrc16_length _ o).2⟩

theorem lds (o : Src16) : Statement (.lds o) :=
  ⟨Nat.le_add_left 1 _, Nat.succ_le_succ (encodeSrc16_length _ o).2⟩

theorem ldu (o : Src16) : Statement (.ldu o) :=
  ⟨Nat.le_of_succ_le (encodeSrc16_length _ o).1, Nat.le_succ_of_le (encodeSrc16_length _ o).2⟩

theorem ldx (o : Src16) : Statement (.ldx o) :=
  ⟨Nat.le_of_succ_le (encodeSrc16_length _ o).1, Nat.le_succ_of_le (encodeSrc16_length _ o).2⟩

theorem ldy (o : Src16) : Statement (.ldy o) :=
  ⟨Nat.le_add_left 1 _, Nat.succ_le_succ (encodeSrc16_length _ o).2⟩

theorem sts (o : Mem) : Statement (.sts o) :=
  ⟨Nat.le_add_left 1 _, Nat.succ_le_succ (encodeMem_length _ _ _ o).2⟩

theorem stu (o : Mem) : Statement (.stu o) :=
  ⟨Nat.le_of_succ_le (encodeMem_length _ _ _ o).1, Nat.le_succ_of_le (encodeMem_length _ _ _ o).2⟩

theorem stx (o : Mem) : Statement (.stx o) :=
  ⟨Nat.le_of_succ_le (encodeMem_length _ _ _ o).1, Nat.le_succ_of_le (encodeMem_length _ _ _ o).2⟩

theorem sty (o : Mem) : Statement (.sty o) :=
  ⟨Nat.le_add_left 1 _, Nat.succ_le_succ (encodeMem_length _ _ _ o).2⟩

theorem leas (o : Indexed) : Statement (.leas o) :=
  ⟨Nat.le_add_left 1 _, Nat.le_succ_of_le (Nat.succ_le_succ (encodeIndexed_length o).2)⟩

theorem leau (o : Indexed) : Statement (.leau o) :=
  ⟨Nat.le_add_left 1 _, Nat.le_succ_of_le (Nat.succ_le_succ (encodeIndexed_length o).2)⟩

theorem leax (o : Indexed) : Statement (.leax o) :=
  ⟨Nat.le_add_left 1 _, Nat.le_succ_of_le (Nat.succ_le_succ (encodeIndexed_length o).2)⟩

theorem leay (o : Indexed) : Statement (.leay o) :=
  ⟨Nat.le_add_left 1 _, Nat.le_succ_of_le (Nat.succ_le_succ (encodeIndexed_length o).2)⟩

theorem pshs (l : RegList) : Statement (.pshs l) :=
  ⟨Nat.le_of_ble_eq_true rfl, Nat.le_of_ble_eq_true rfl⟩

theorem pshu (l : RegList) : Statement (.pshu l) :=
  ⟨Nat.le_of_ble_eq_true rfl, Nat.le_of_ble_eq_true rfl⟩

theorem puls (l : RegList) : Statement (.puls l) :=
  ⟨Nat.le_of_ble_eq_true rfl, Nat.le_of_ble_eq_true rfl⟩

theorem pulu (l : RegList) : Statement (.pulu l) :=
  ⟨Nat.le_of_ble_eq_true rfl, Nat.le_of_ble_eq_true rfl⟩

theorem exg (r1 : Reg) (r2 : Reg) : Statement (.exg r1 r2) :=
  ⟨Nat.le_of_ble_eq_true rfl, Nat.le_of_ble_eq_true rfl⟩

theorem tfr (r1 : Reg) (r2 : Reg) : Statement (.tfr r1 r2) :=
  ⟨Nat.le_of_ble_eq_true rfl, Nat.le_of_ble_eq_true rfl⟩

theorem abx : Statement .abx :=
  ⟨Nat.le_of_ble_eq_true rfl, Nat.le_of_ble_eq_true rfl⟩

theorem bra (d : Byte) : Statement (.bra d) :=
  ⟨Nat.le_of_ble_eq_true rfl, Nat.le_of_ble_eq_true rfl⟩

theorem brn (d : Byte) : Statement (.brn d) :=
  ⟨Nat.le_of_ble_eq_true rfl, Nat.le_of_ble_eq_true rfl⟩

theorem bhi (d : Byte) : Statement (.bhi d) :=
  ⟨Nat.le_of_ble_eq_true rfl, Nat.le_of_ble_eq_true rfl⟩

theorem bls (d : Byte) : Statement (.bls d) :=
  ⟨Nat.le_of_ble_eq_true rfl, Nat.le_of_ble_eq_true rfl⟩

theorem bhs (d : Byte) : Statement (.bhs d) :=
  ⟨Nat.le_of_ble_eq_true rfl, Nat.le_of_ble_eq_true rfl⟩

theorem blo (d : Byte) : Statement (.blo d) :=
  ⟨Nat.le_of_ble_eq_true rfl, Nat.le_of_ble_eq_true rfl⟩

theorem bne (d : Byte) : Statement (.bne d) :=
  ⟨Nat.le_of_ble_eq_true rfl, Nat.le_of_ble_eq_true rfl⟩

theorem beq (d : Byte) : Statement (.beq d) :=
  ⟨Nat.le_of_ble_eq_true rfl, Nat.le_of_ble_eq_true rfl⟩

theorem bvc (d : Byte) : Statement (.bvc d) :=
  ⟨Nat.le_of_ble_eq_true rfl, Nat.le_of_ble_eq_true rfl⟩

theorem bvs (d : Byte) : Statement (.bvs d) :=
  ⟨Nat.le_of_ble_eq_true rfl, Nat.le_of_ble_eq_true rfl⟩

theorem bpl (d : Byte) : Statement (.bpl d) :=
  ⟨Nat.le_of_ble_eq_true rfl, Nat.le_of_ble_eq_true rfl⟩

theorem bmi (d : Byte) : Statement (.bmi d) :=
  ⟨Nat.le_of_ble_eq_true rfl, Nat.le_of_ble_eq_true rfl⟩

theorem bge (d : Byte) : Statement (.bge d) :=
  ⟨Nat.le_of_ble_eq_true rfl, Nat.le_of_ble_eq_true rfl⟩

theorem blt (d : Byte) : Statement (.blt d) :=
  ⟨Nat.le_of_ble_eq_true rfl, Nat.le_of_ble_eq_true rfl⟩

theorem bgt (d : Byte) : Statement (.bgt d) :=
  ⟨Nat.le_of_ble_eq_true rfl, Nat.le_of_ble_eq_true rfl⟩

theorem ble (d : Byte) : Statement (.ble d) :=
  ⟨Nat.le_of_ble_eq_true rfl, Nat.le_of_ble_eq_true rfl⟩

theorem bsr (d : Byte) : Statement (.bsr d) :=
  ⟨Nat.le_of_ble_eq_true rfl, Nat.le_of_ble_eq_true rfl⟩

theorem lbra (d : Word) : Statement (.lbra d) :=
  ⟨Nat.le_of_ble_eq_true rfl, Nat.le_of_ble_eq_true rfl⟩

theorem lbrn (d : Word) : Statement (.lbrn d) :=
  ⟨Nat.le_of_ble_eq_true rfl, Nat.le_of_ble_eq_true rfl⟩

theorem lbhi (d : Word) : Statement (.lbhi d) :=
  ⟨Nat.le_of_ble_eq_true rfl, Nat.le_of_ble_eq_true rfl⟩

theorem lbls (d : Word) : Statement (.lbls d) :=
  ⟨Nat.le_of_ble_eq_true rfl, Nat.le_of_ble_eq_true rfl⟩

theorem lbhs (d : Word) : Statement (.lbhs d) :=
  ⟨Nat.le_of_ble_eq_true rfl, Nat.le_of_ble_eq_true rfl⟩

theorem lblo (d : Word) : Statement (.lblo d) :=
  ⟨Nat.le_of_ble_eq_true rfl, Nat.le_of_ble_eq_true rfl⟩

theorem lbne (d : Word) : Statement (.lbne d) :=
  ⟨Nat.le_of_ble_eq_true rfl, Nat.le_of_ble_eq_true rfl⟩

theorem lbeq (d : Word) : Statement (.lbeq d) :=
  ⟨Nat.le_of_ble_eq_true rfl, Nat.le_of_ble_eq_true rfl⟩

theorem lbvc (d : Word) : Statement (.lbvc d) :=
  ⟨Nat.le_of_ble_eq_true rfl, Nat.le_of_ble_eq_true rfl⟩

theorem lbvs (d : Word) : Statement (.lbvs d) :=
  ⟨Nat.le_of_ble_eq_true rfl, Nat.le_of_ble_eq_true rfl⟩

theorem lbpl (d : Word) : Statement (.lbpl d) :=
  ⟨Nat.le_of_ble_eq_true rfl, Nat.le_of_ble_eq_true rfl⟩

theorem lbmi (d : Word) : Statement (.lbmi d) :=
  ⟨Nat.le_of_ble_eq_true rfl, Nat.le_of_ble_eq_true rfl⟩

theorem lbge (d : Word) : Statement (.lbge d) :=
  ⟨Nat.le_of_ble_eq_true rfl, Nat.le_of_ble_eq_true rfl⟩

theorem lblt (d : Word) : Statement (.lblt d) :=
  ⟨Nat.le_of_ble_eq_true rfl, Nat.le_of_ble_eq_true rfl⟩

theorem lbgt (d : Word) : Statement (.lbgt d) :=
  ⟨Nat.le_of_ble_eq_true rfl, Nat.le_of_ble_eq_true rfl⟩

theorem lble (d : Word) : Statement (.lble d) :=
  ⟨Nat.le_of_ble_eq_true rfl, Nat.le_of_ble_eq_true rfl⟩

theorem lbsr (d : Word) : Statement (.lbsr d) :=
  ⟨Nat.le_of_ble_eq_true rfl, Nat.le_of_ble_eq_true rfl⟩

theorem andcc (m : Byte) : Statement (.andcc m) :=
  ⟨Nat.le_of_ble_eq_true rfl, Nat.le_of_ble_eq_true rfl⟩

theorem orcc (m : Byte) : Statement (.orcc m) :=
  ⟨Nat.le_of_ble_eq_true rfl, Nat.le_of_ble_eq_true rfl⟩

theorem cwai (m : Byte) : Statement (.cwai m) :=
  ⟨Nat.le_of_ble_eq_true rfl, Nat.le_of_ble_eq_true rfl⟩

theorem nop : Statement .nop :=
  ⟨Nat.le_of_ble_eq_true rfl, Nat.le_of_ble_eq_true rfl⟩

theorem jmp (o : Mem) : Statement (.jmp o) :=
  ⟨Nat.le_of_succ_le (encodeMem_length _ _ _ o).1, Nat.le_succ_of_le (encodeMem_length _ _ _ o).2⟩

theorem jsr (o : Mem) : Statement (.jsr o) :=
  ⟨Nat.le_of_succ_le (encodeMem_length _ _ _ o).1, Nat.le_succ_of_le (encodeMem_length _ _ _ o).2⟩

theorem rti : Statement .rti :=
  ⟨Nat.le_of_ble_eq_true rfl, Nat.le_of_ble_eq_true rfl⟩

theorem rts : Statement .rts :=
  ⟨Nat.le_of_ble_eq_true rfl, Nat.le_of_ble_eq_true rfl⟩

theorem swi : Statement .swi :=
  ⟨Nat.le_of_ble_eq_true rfl, Nat.le_of_ble_eq_true rfl⟩

theorem swi2 : Statement .swi2 :=
  ⟨Nat.le_of_ble_eq_true rfl, Nat.le_of_ble_eq_true rfl⟩

theorem swi3 : Statement .swi3 :=
  ⟨Nat.le_of_ble_eq_true rfl, Nat.le_of_ble_eq_true rfl⟩

theorem sync : Statement .sync :=
  ⟨Nat.le_of_ble_eq_true rfl, Nat.le_of_ble_eq_true rfl⟩

end Laws.Length

end Sys2Proof
end

