-- ==== Sys2Proof/Tests/Slice0.lean ====
section
/-! SUPPORT. Tests: the smoke test of WellFormed, words of every opcode written out from the spec's tables, small steps
from its vectors, and a witness for the hypotheses of every statement that has some. -/

namespace Sys2Proof.Tests

open Sys2Proof.Machine

/-! WellFormed refuses the ill-formed terms (30_encoding.md R105). -/

theorem test_wellFormed_tfr_unlike_width_refused :
    Instr.wellFormed (.tfr (.r8 .a) (.r16 .x)) = false ∧ Instr.wellFormed (.tfr (.r16 .d) (.r8 .dp)) = false := by decide

theorem test_wellFormed_exg_unlike_width_refused :
    Instr.wellFormed (.exg (.r8 .b) (.r16 .pc)) = false ∧ Instr.wellFormed (.exg (.r16 .s) (.r8 .cc)) = false := by decide

theorem test_wellFormed_like_width_accepted :
    Instr.wellFormed (.exg (.r8 .a) (.r8 .b)) = true ∧ Instr.wellFormed (.tfr (.r16 .x) (.r16 .x)) = true := by decide

/-! Every opcode of spec/opcode_table.json, with operand bytes laid out by 30_encoding.md R94, R102, R104 and R106, decodes to
its instruction and is its encoding. -/

/-- The bytes decode to the instruction and all of them are used. -/
def reads (bs : List Byte) (i : Instr) : Bool := decide (decodeBytes bs = .ok ⟨i, bs.length⟩)

/-- The bytes decode to the instruction and are its encoding. -/
def agrees (c : List Byte × Instr) : Bool := reads c.1 c.2 && decide (encode c.2 = c.1)

theorem test_decode_one_byte_memory_and_accumulator_0 : List.all [
    ([0x00, 0x40], .neg (.dir 0x40)),
    ([0x03, 0x40], .com (.dir 0x40)),
    ([0x04, 0x40], .lsr (.dir 0x40)),
    ([0x06, 0x40], .ror (.dir 0x40)),
    ([0x07, 0x40], .asr (.dir 0x40)),
    ([0x08, 0x40], .asl (.dir 0x40)),
    ([0x09, 0x40], .rol (.dir 0x40)),
    ([0x0A, 0x40], .dec (.dir 0x40)),
    ([0x0C, 0x40], .inc (.dir 0x40)),
    ([0x0D, 0x40], .tst (.dir 0x40)),
    ([0x0E, 0x40], .jmp (.dir 0x40)),
    ([0x0F, 0x40], .clr (.dir 0x40)),
    ([0x40], .nega),
    ([0x43], .coma),
    ([0x44], .lsra),
    ([0x46], .rora),
    ([0x47], .asra),
    ([0x48], .asla),
    ([0x49], .rola),
    ([0x4A], .deca)] agrees = true := by decide

theorem test_decode_one_byte_memory_and_accumulator_1 : List.all [
    ([0x4C], .inca),
    ([0x4D], .tsta),
    ([0x4F], .clra),
    ([0x50], .negb),
    ([0x53], .comb),
    ([0x54], .lsrb),
    ([0x56], .rorb),
    ([0x57], .asrb),
    ([0x58], .aslb),
    ([0x59], .rolb),
    ([0x5A], .decb),
    ([0x5C], .incb),
    ([0x5D], .tstb),
    ([0x5F], .clrb),
    ([0x60, 0xA1], .neg (.idx (.inc2 .y false))),
    ([0x63, 0xF1], .com (.idx (.inc2 .s true))),
    ([0x64, 0xC2], .lsr (.idx (.dec1 .u))),
    ([0x66, 0xE3], .ror (.idx (.dec2 .s false))),
    ([0x67, 0x93], .asr (.idx (.dec2 .x true))),
    ([0x68, 0x84], .asl (.idx (.zero .x false)))] agrees = true := by decide

theorem test_decode_one_byte_memory_and_accumulator_2 : List.all [
    ([0x69, 0xB4], .rol (.idx (.zero .y true))),
    ([0x6A, 0xA5], .dec (.idx (.offB .y false))),
    ([0x6C, 0xD6], .inc (.idx (.offA .u true))),
    ([0x6D, 0x88, 0x80], .tst (.idx (.off8 .x 0x80 false))),
    ([0x6E, 0xF8, 0x10], .jmp (.idx (.off8 .s 0x10 true))),
    ([0x6F, 0xA9, 0x01, 0x2C], .clr (.idx (.off16 .y 0x012C false))),
    ([0x70, 0xA0, 0x01], .neg (.ext 0xA001)),
    ([0x73, 0xA0, 0x01], .com (.ext 0xA001)),
    ([0x74, 0xA0, 0x01], .lsr (.ext 0xA001)),
    ([0x76, 0xA0, 0x01], .ror (.ext 0xA001)),
    ([0x77, 0xA0, 0x01], .asr (.ext 0xA001)),
    ([0x78, 0xA0, 0x01], .asl (.ext 0xA001)),
    ([0x79, 0xA0, 0x01], .rol (.ext 0xA001)),
    ([0x7A, 0xA0, 0x01], .dec (.ext 0xA001)),
    ([0x7C, 0xA0, 0x01], .inc (.ext 0xA001)),
    ([0x7D, 0xA0, 0x01], .tst (.ext 0xA001)),
    ([0x7E, 0xA0, 0x01], .jmp (.ext 0xA001)),
    ([0x7F, 0xA0, 0x01], .clr (.ext 0xA001))] agrees = true := by decide

theorem test_decode_miscellaneous_0 : List.all [
    ([0x12], .nop),
    ([0x13], .sync),
    ([0x16, 0x1F, 0xFD], .lbra 0x1FFD),
    ([0x17, 0x1F, 0xFD], .lbsr 0x1FFD),
    ([0x19], .daa),
    ([0x1A, 0x5A], .orcc 0x5A),
    ([0x1C, 0x5A], .andcc 0x5A),
    ([0x1D], .sex),
    ([0x1E, 0x89], .exg (.r8 .a) (.r8 .b)),
    ([0x1F, 0x12], .tfr (.r16 .x) (.r16 .y)),
    ([0x30, 0x1F], .leax (.off5 .x (-1))),
    ([0x31, 0x2F], .leay (.off5 .y 15)),
    ([0x32, 0x50], .leas (.off5 .u (-16))),
    ([0x33, 0x80], .leau (.inc1 .x)),
    ([0x34, 0x36], .pshs ⟨false, false, true, true, false, true, true, false⟩),
    ([0x35, 0x82], .puls ⟨true, false, false, false, false, false, true, false⟩),
    ([0x36, 0x49], .pshu ⟨false, true, false, false, true, false, false, true⟩),
    ([0x37, 0xFF], .pulu ⟨true, true, true, true, true, true, true, true⟩),
    ([0x39], .rts),
    ([0x3A], .abx)] agrees = true := by decide

theorem test_decode_miscellaneous_1 : List.all [
    ([0x3B], .rti),
    ([0x3C, 0x5A], .cwai 0x5A),
    ([0x3D], .mul),
    ([0x3F], .swi)] agrees = true := by decide

theorem test_decode_short_branches_0 : List.all [
    ([0x20, 0xFB], .bra 0xFB),
    ([0x21, 0xFB], .brn 0xFB),
    ([0x22, 0xFB], .bhi 0xFB),
    ([0x23, 0xFB], .bls 0xFB),
    ([0x24, 0xFB], .bhs 0xFB),
    ([0x25, 0xFB], .blo 0xFB),
    ([0x26, 0xFB], .bne 0xFB),
    ([0x27, 0xFB], .beq 0xFB),
    ([0x28, 0xFB], .bvc 0xFB),
    ([0x29, 0xFB], .bvs 0xFB),
    ([0x2A, 0xFB], .bpl 0xFB),
    ([0x2B, 0xFB], .bmi 0xFB),
    ([0x2C, 0xFB], .bge 0xFB),
    ([0x2D, 0xFB], .blt 0xFB),
    ([0x2E, 0xFB], .bgt 0xFB),
    ([0x2F, 0xFB], .ble 0xFB)] agrees = true := by decide

theorem test_decode_accumulator_A_group_0 : List.all [
    ([0x80, 0x5A], .suba (.imm 0x5A)),
    ([0x81, 0x5A], .cmpa (.imm 0x5A)),
    ([0x82, 0x5A], .sbca (.imm 0x5A)),
    ([0x83, 0x12, 0x34], .subd (.imm 0x1234)),
    ([0x84, 0x5A], .anda (.imm 0x5A)),
    ([0x85, 0x5A], .bita (.imm 0x5A)),
    ([0x86, 0x5A], .lda (.imm 0x5A)),
    ([0x88, 0x5A], .eora (.imm 0x5A)),
    ([0x89, 0x5A], .adca (.imm 0x5A)),
    ([0x8A, 0x5A], .ora (.imm 0x5A)),
    ([0x8B, 0x5A], .adda (.imm 0x5A)),
    ([0x8C, 0x12, 0x34], .cmpx (.imm 0x1234)),
    ([0x8D, 0xFB], .bsr 0xFB),
    ([0x8E, 0x12, 0x34], .ldx (.imm 0x1234)),
    ([0x90, 0x40], .suba (.mem (.dir 0x40))),
    ([0x91, 0x40], .cmpa (.mem (.dir 0x40))),
    ([0x92, 0x40], .sbca (.mem (.dir 0x40))),
    ([0x93, 0x40], .subd (.mem (.dir 0x40))),
    ([0x94, 0x40], .anda (.mem (.dir 0x40))),
    ([0x95, 0x40], .bita (.mem (.dir 0x40)))] agrees = true := by decide

theorem test_decode_accumulator_A_group_1 : List.all [
    ([0x96, 0x40], .lda (.mem (.dir 0x40))),
    ([0x97, 0x40], .sta (.dir 0x40)),
    ([0x98, 0x40], .eora (.mem (.dir 0x40))),
    ([0x99, 0x40], .adca (.mem (.dir 0x40))),
    ([0x9A, 0x40], .ora (.mem (.dir 0x40))),
    ([0x9B, 0x40], .adda (.mem (.dir 0x40))),
    ([0x9C, 0x40], .cmpx (.mem (.dir 0x40))),
    ([0x9D, 0x40], .jsr (.dir 0x40)),
    ([0x9E, 0x40], .ldx (.mem (.dir 0x40))),
    ([0x9F, 0x40], .stx (.dir 0x40)),
    ([0xA0, 0x99, 0xFF, 0xFE], .suba (.mem (.idx (.off16 .x 0xFFFE true)))),
    ([0xA1, 0xEB], .cmpa (.mem (.idx (.offD .s false)))),
    ([0xA2, 0x9B], .sbca (.mem (.idx (.offD .x true)))),
    ([0xA3, 0x8C, 0x7F], .subd (.mem (.idx (.pcr8 0x7F false)))),
    ([0xA6, 0x9D, 0xFF, 0x00], .lda (.mem (.idx (.pcr16 0xFF00 true)))),
    ([0xA7, 0x9F, 0xFF, 0xFE], .sta (.idx (.extInd 0xFFFE))),
    ([0xA8, 0x1F], .eora (.mem (.idx (.off5 .x (-1))))),
    ([0xA9, 0x2F], .adca (.mem (.idx (.off5 .y 15)))),
    ([0xAA, 0x50], .ora (.mem (.idx (.off5 .u (-16))))),
    ([0xAB, 0x80], .adda (.mem (.idx (.inc1 .x))))] agrees = true := by decide

theorem test_decode_accumulator_A_group_2 : List.all [
    ([0xAC, 0xA1], .cmpx (.mem (.idx (.inc2 .y false)))),
    ([0xAD, 0xF1], .jsr (.idx (.inc2 .s true))),
    ([0xAE, 0xC2], .ldx (.mem (.idx (.dec1 .u)))),
    ([0xAF, 0xE3], .stx (.idx (.dec2 .s false))),
    ([0xB0, 0xA0, 0x01], .suba (.mem (.ext 0xA001))),
    ([0xB1, 0xA0, 0x01], .cmpa (.mem (.ext 0xA001))),
    ([0xB2, 0xA0, 0x01], .sbca (.mem (.ext 0xA001))),
    ([0xB3, 0xA0, 0x01], .subd (.mem (.ext 0xA001))),
    ([0xB4, 0xA0, 0x01], .anda (.mem (.ext 0xA001))),
    ([0xB5, 0xA0, 0x01], .bita (.mem (.ext 0xA001))),
    ([0xB6, 0xA0, 0x01], .lda (.mem (.ext 0xA001))),
    ([0xB7, 0xA0, 0x01], .sta (.ext 0xA001)),
    ([0xB8, 0xA0, 0x01], .eora (.mem (.ext 0xA001))),
    ([0xB9, 0xA0, 0x01], .adca (.mem (.ext 0xA001))),
    ([0xBA, 0xA0, 0x01], .ora (.mem (.ext 0xA001))),
    ([0xBB, 0xA0, 0x01], .adda (.mem (.ext 0xA001))),
    ([0xBC, 0xA0, 0x01], .cmpx (.mem (.ext 0xA001))),
    ([0xBD, 0xA0, 0x01], .jsr (.ext 0xA001)),
    ([0xBE, 0xA0, 0x01], .ldx (.mem (.ext 0xA001))),
    ([0xBF, 0xA0, 0x01], .stx (.ext 0xA001))] agrees = true := by decide

theorem test_decode_accumulator_B_group_0 : List.all [
    ([0xC0, 0x5A], .subb (.imm 0x5A)),
    ([0xC1, 0x5A], .cmpb (.imm 0x5A)),
    ([0xC2, 0x5A], .sbcb (.imm 0x5A)),
    ([0xC3, 0x12, 0x34], .addd (.imm 0x1234)),
    ([0xC4, 0x5A], .andb (.imm 0x5A)),
    ([0xC5, 0x5A], .bitb (.imm 0x5A)),
    ([0xC6, 0x5A], .ldb (.imm 0x5A)),
    ([0xC8, 0x5A], .eorb (.imm 0x5A)),
    ([0xC9, 0x5A], .adcb (.imm 0x5A)),
    ([0xCA, 0x5A], .orb (.imm 0x5A)),
    ([0xCB, 0x5A], .addb (.imm 0x5A)),
    ([0xCC, 0x12, 0x34], .ldd (.imm 0x1234)),
    ([0xCE, 0x12, 0x34], .ldu (.imm 0x1234)),
    ([0xD0, 0x40], .subb (.mem (.dir 0x40))),
    ([0xD1, 0x40], .cmpb (.mem (.dir 0x40))),
    ([0xD2, 0x40], .sbcb (.mem (.dir 0x40))),
    ([0xD3, 0x40], .addd (.mem (.dir 0x40))),
    ([0xD4, 0x40], .andb (.mem (.dir 0x40))),
    ([0xD5, 0x40], .bitb (.mem (.dir 0x40))),
    ([0xD6, 0x40], .ldb (.mem (.dir 0x40)))] agrees = true := by decide

theorem test_decode_accumulator_B_group_1 : List.all [
    ([0xD7, 0x40], .stb (.dir 0x40)),
    ([0xD8, 0x40], .eorb (.mem (.dir 0x40))),
    ([0xD9, 0x40], .adcb (.mem (.dir 0x40))),
    ([0xDA, 0x40], .orb (.mem (.dir 0x40))),
    ([0xDB, 0x40], .addb (.mem (.dir 0x40))),
    ([0xDC, 0x40], .ldd (.mem (.dir 0x40))),
    ([0xDD, 0x40], .std (.dir 0x40)),
    ([0xDE, 0x40], .ldu (.mem (.dir 0x40))),
    ([0xDF, 0x40], .stu (.dir 0x40)),
    ([0xE0, 0x93], .subb (.mem (.idx (.dec2 .x true)))),
    ([0xE1, 0x84], .cmpb (.mem (.idx (.zero .x false)))),
    ([0xE2, 0xB4], .sbcb (.mem (.idx (.zero .y true)))),
    ([0xE3, 0xA5], .addd (.mem (.idx (.offB .y false)))),
    ([0xE4, 0xD6], .andb (.mem (.idx (.offA .u true)))),
    ([0xE5, 0x88, 0x80], .bitb (.mem (.idx (.off8 .x 0x80 false)))),
    ([0xE6, 0xF8, 0x10], .ldb (.mem (.idx (.off8 .s 0x10 true)))),
    ([0xE7, 0xA9, 0x01, 0x2C], .stb (.idx (.off16 .y 0x012C false))),
    ([0xE8, 0x99, 0xFF, 0xFE], .eorb (.mem (.idx (.off16 .x 0xFFFE true)))),
    ([0xE9, 0xEB], .adcb (.mem (.idx (.offD .s false)))),
    ([0xEA, 0x9B], .orb (.mem (.idx (.offD .x true))))] agrees = true := by decide

theorem test_decode_accumulator_B_group_2 : List.all [
    ([0xEB, 0x8C, 0x7F], .addb (.mem (.idx (.pcr8 0x7F false)))),
    ([0xEE, 0x9D, 0xFF, 0x00], .ldu (.mem (.idx (.pcr16 0xFF00 true)))),
    ([0xEF, 0x9F, 0xFF, 0xFE], .stu (.idx (.extInd 0xFFFE))),
    ([0xF0, 0xA0, 0x01], .subb (.mem (.ext 0xA001))),
    ([0xF1, 0xA0, 0x01], .cmpb (.mem (.ext 0xA001))),
    ([0xF2, 0xA0, 0x01], .sbcb (.mem (.ext 0xA001))),
    ([0xF3, 0xA0, 0x01], .addd (.mem (.ext 0xA001))),
    ([0xF4, 0xA0, 0x01], .andb (.mem (.ext 0xA001))),
    ([0xF5, 0xA0, 0x01], .bitb (.mem (.ext 0xA001))),
    ([0xF6, 0xA0, 0x01], .ldb (.mem (.ext 0xA001))),
    ([0xF7, 0xA0, 0x01], .stb (.ext 0xA001)),
    ([0xF8, 0xA0, 0x01], .eorb (.mem (.ext 0xA001))),
    ([0xF9, 0xA0, 0x01], .adcb (.mem (.ext 0xA001))),
    ([0xFA, 0xA0, 0x01], .orb (.mem (.ext 0xA001))),
    ([0xFB, 0xA0, 0x01], .addb (.mem (.ext 0xA001))),
    ([0xFC, 0xA0, 0x01], .ldd (.mem (.ext 0xA001))),
    ([0xFD, 0xA0, 0x01], .std (.ext 0xA001)),
    ([0xFE, 0xA0, 0x01], .ldu (.mem (.ext 0xA001))),
    ([0xFF, 0xA0, 0x01], .stu (.ext 0xA001))] agrees = true := by decide

theorem test_decode_page_2_0 : List.all [
    ([0x10, 0x21, 0x1F, 0xFD], .lbrn 0x1FFD),
    ([0x10, 0x22, 0x1F, 0xFD], .lbhi 0x1FFD),
    ([0x10, 0x23, 0x1F, 0xFD], .lbls 0x1FFD),
    ([0x10, 0x24, 0x1F, 0xFD], .lbhs 0x1FFD),
    ([0x10, 0x25, 0x1F, 0xFD], .lblo 0x1FFD),
    ([0x10, 0x26, 0x1F, 0xFD], .lbne 0x1FFD),
    ([0x10, 0x27, 0x1F, 0xFD], .lbeq 0x1FFD),
    ([0x10, 0x28, 0x1F, 0xFD], .lbvc 0x1FFD),
    ([0x10, 0x29, 0x1F, 0xFD], .lbvs 0x1FFD),
    ([0x10, 0x2A, 0x1F, 0xFD], .lbpl 0x1FFD),
    ([0x10, 0x2B, 0x1F, 0xFD], .lbmi 0x1FFD),
    ([0x10, 0x2C, 0x1F, 0xFD], .lbge 0x1FFD),
    ([0x10, 0x2D, 0x1F, 0xFD], .lblt 0x1FFD),
    ([0x10, 0x2E, 0x1F, 0xFD], .lbgt 0x1FFD),
    ([0x10, 0x2F, 0x1F, 0xFD], .lble 0x1FFD),
    ([0x10, 0x3F], .swi2),
    ([0x10, 0x83, 0x12, 0x34], .cmpd (.imm 0x1234)),
    ([0x10, 0x8C, 0x12, 0x34], .cmpy (.imm 0x1234)),
    ([0x10, 0x8E, 0x12, 0x34], .ldy (.imm 0x1234)),
    ([0x10, 0x93, 0x40], .cmpd (.mem (.dir 0x40)))] agrees = true := by decide

theorem test_decode_page_2_1 : List.all [
    ([0x10, 0x9C, 0x40], .cmpy (.mem (.dir 0x40))),
    ([0x10, 0x9E, 0x40], .ldy (.mem (.dir 0x40))),
    ([0x10, 0x9F, 0x40], .sty (.dir 0x40)),
    ([0x10, 0xA3, 0x1F], .cmpd (.mem (.idx (.off5 .x (-1))))),
    ([0x10, 0xAC, 0x2F], .cmpy (.mem (.idx (.off5 .y 15)))),
    ([0x10, 0xAE, 0x50], .ldy (.mem (.idx (.off5 .u (-16))))),
    ([0x10, 0xAF, 0x80], .sty (.idx (.inc1 .x))),
    ([0x10, 0xB3, 0xA0, 0x01], .cmpd (.mem (.ext 0xA001))),
    ([0x10, 0xBC, 0xA0, 0x01], .cmpy (.mem (.ext 0xA001))),
    ([0x10, 0xBE, 0xA0, 0x01], .ldy (.mem (.ext 0xA001))),
    ([0x10, 0xBF, 0xA0, 0x01], .sty (.ext 0xA001)),
    ([0x10, 0xCE, 0x12, 0x34], .lds (.imm 0x1234)),
    ([0x10, 0xDE, 0x40], .lds (.mem (.dir 0x40))),
    ([0x10, 0xDF, 0x40], .sts (.dir 0x40)),
    ([0x10, 0xEE, 0xA1], .lds (.mem (.idx (.inc2 .y false)))),
    ([0x10, 0xEF, 0xF1], .sts (.idx (.inc2 .s true))),
    ([0x10, 0xFE, 0xA0, 0x01], .lds (.mem (.ext 0xA001))),
    ([0x10, 0xFF, 0xA0, 0x01], .sts (.ext 0xA001))] agrees = true := by decide

theorem test_decode_page_3_0 : List.all [
    ([0x11, 0x3F], .swi3),
    ([0x11, 0x83, 0x12, 0x34], .cmpu (.imm 0x1234)),
    ([0x11, 0x8C, 0x12, 0x34], .cmps (.imm 0x1234)),
    ([0x11, 0x93, 0x40], .cmpu (.mem (.dir 0x40))),
    ([0x11, 0x9C, 0x40], .cmps (.mem (.dir 0x40))),
    ([0x11, 0xA3, 0xC2], .cmpu (.mem (.idx (.dec1 .u)))),
    ([0x11, 0xAC, 0xE3], .cmps (.mem (.idx (.dec2 .s false)))),
    ([0x11, 0xB3, 0xA0, 0x01], .cmpu (.mem (.ext 0xA001))),
    ([0x11, 0xBC, 0xA0, 0x01], .cmps (.mem (.ext 0xA001)))] agrees = true := by decide

/-- The don't-care bits of the PC relative postbytes (40_addressing_modes.md R158): these words decode, and encode with the bits
0. -/
theorem test_decode_dont_care_bits :
    reads [0xA4, 0xFC, 0x80] (.anda (.mem (.idx (.pcr8 0x80 true)))) = true ∧
    reads [0xA5, 0xAD, 0x12, 0x34] (.bita (.mem (.idx (.pcr16 0x1234 false)))) = true ∧
    reads [0xEC, 0xFC, 0x80] (.ldd (.mem (.idx (.pcr8 0x80 true)))) = true ∧
    reads [0xED, 0xAD, 0x12, 0x34] (.std (.idx (.pcr16 0x1234 false))) = true := by decide

/-! Undefined encodings (95_test_vectors.md, 2.7). -/

theorem test_decode_unused_opcodes :
    decodeBytes [0x01] = .error .opcode ∧ decodeBytes [0x10, 0x20] = .error .opcode ∧
    decodeBytes [0x11, 0x10] = .error .opcode ∧ decodeBytes [0x87, 0x00] = .error .opcode := by
  refine ⟨?_, ?_, ?_, ?_⟩ <;> rfl

theorem test_decode_undefined_postbytes :
    decodeBytes [0xA6, 0x90] = .error .postbyte ∧ decodeBytes [0x30, 0x8F, 0x12, 0x34] = .error .postbyte ∧
    decodeBytes [0x1F, 0x81] = .error .postbyte ∧ decodeBytes [0x1E, 0x66] = .error .postbyte := by
  refine ⟨?_, ?_, ?_, ?_⟩ <;> rfl

/-- The table's numbering of two-byte opcodes, prefix in bits 15 to 8 (log 22), and of one-byte opcodes. -/
theorem test_decodeTableWord :
    decodeTableWord 16 0x1021 = some (.lbrn 0) ∧ decodeTableWord 16 0x113F = some .swi3 ∧
    decodeTableWord 8 0x3A = some .abx ∧ decodeTableWord 16 0x2A86 = some (.lda (.imm 0x2A)) ∧
    decodeTableWord 8 0x01 = none := by
  refine ⟨?_, ?_, ?_, ?_, ?_⟩ <;> rfl

/-! Single steps, from the vectors of 95_test_vectors.md (the number in each name), whose start state this is. -/

/-- The vectors' start state: S = 0x8000, PC = 0x1000, all else 0 (95_test_vectors.md, section 0). -/
def board : State := { State.reset with S := 0x8000, PC := 0x1000, CC := 0 }

/-- An instruction at PC and bytes in memory. -/
def loaded (s : State) (bs : List Byte) (cells : List (Nat × Byte)) : State :=
  { s with mem := cells.foldl (fun m c => m.write c.1 c.2) (placeBytes s.mem s.PC bs) }

/-- The step answers a next state of which `p` holds. -/
def stepGives (s : State) (p : State → Bool) : Bool :=
  match step s with
  | .next t => p t
  | .fault _ => false
  | .refused _ => false

theorem test_lda_T601 : stepGives (loaded { board with X := 0x2000 }
    [0xA6, 0x84] [(0x2000, 0x11)]) (fun t =>
      t.A == 0x11 && t.PC == 0x1002 && t.CC == 0x00) = true := by decide

theorem test_ldx_T607 : stepGives (loaded { board with S := 0x4002 }
    [0xAE, 0x7E] [(0x4000, 0x12), (0x4001, 0x34)]) (fun t =>
      t.X == 0x1234 && t.PC == 0x1002 && t.CC == 0x00) = true := by decide

theorem test_std_T614 : stepGives (loaded { board with A := 0x12, B := 0x34, Y := 0x2000 }
    [0xED, 0xA1] []) (fun t =>
      t.Y == 0x2002 && t.PC == 0x1002 && t.CC == 0x00 && t.readByte 0x2000 == 0x12 && t.readByte 0x2001 == 0x34) = true := by decide

theorem test_lda_T619 : stepGives (loaded { board with X := 0xF000, PC := 0x0100 }
    [0xA6, 0x98, 0x10] [(0xF010, 0xF1), (0xF011, 0x50), (0xF150, 0xAA)]) (fun t =>
      t.A == 0xAA && t.PC == 0x0103 && t.CC == 0x08) = true := by decide

theorem test_ldd_T621 : stepGives (loaded { board with S := 0x4000 }
    [0xEC, 0xF8, 0x0A] [(0x400A, 0x30), (0x400B, 0x00), (0x3000, 0x12), (0x3001, 0x34)]) (fun t =>
      t.A == 0x12 && t.B == 0x34 && t.PC == 0x1003 && t.CC == 0x00) = true := by decide

theorem test_leax_T630 : stepGives (loaded board
    [0x30, 0x8D, 0xFF, 0xFC] []) (fun t =>
      t.X == 0x1000 && t.PC == 0x1004 && t.CC == 0x00) = true := by decide

theorem test_adca_T1 : stepGives (loaded { board with A := 0x2F, CC := 0x01 }
    [0x89, 0x10] []) (fun t =>
      t.A == 0x40 && t.PC == 0x1002 && t.CC == 0x20) = true := by decide

theorem test_addb_T5 : stepGives (loaded { board with B := 0x80 }
    [0xCB, 0x80] []) (fun t =>
      t.B == 0x00 && t.PC == 0x1002 && t.CC == 0x07) = true := by decide

theorem test_anda_T8 : stepGives (loaded { board with A := 0xF5, CC := 0x01 }
    [0x84, 0x0F] []) (fun t =>
      t.A == 0x05 && t.PC == 0x1002 && t.CC == 0x01) = true := by decide

theorem test_bitb_T11 : stepGives (loaded { board with B := 0x80 }
    [0xC5, 0x80] []) (fun t =>
      t.PC == 0x1002 && t.CC == 0x08) = true := by decide

theorem test_asl_T12 : stepGives (loaded board
    [0x08, 0x20] [(0x0020, 0x81)]) (fun t =>
      t.PC == 0x1002 && t.readByte 0x0020 == 0x02) = true := by decide

theorem test_aslb_T14 : stepGives (loaded { board with B := 0x80 }
    [0x58] []) (fun t =>
      t.B == 0x00 && t.PC == 0x1001) = true := by decide

theorem test_asr_T16 : stepGives (loaded board
    [0x07, 0x20] [(0x0020, 0x81)]) (fun t =>
      t.PC == 0x1002 && t.readByte 0x0020 == 0xC0) = true := by decide

theorem test_clr_T19 : stepGives (loaded { board with CC := 0x0B }
    [0x7F, 0xA0, 0x00] [(0xA000, 0x80)]) (fun t =>
      t.PC == 0x1003 && t.CC == 0x04 && t.readByte 0xA000 == 0x00) = true := by decide

theorem test_cmpa_T22 : stepGives (loaded { board with A := 0x10 }
    [0x81, 0x20] []) (fun t =>
      t.PC == 0x1002) = true := by decide

theorem test_coma_T26 : stepGives (loaded { board with A := 0xFF }
    [0x43] []) (fun t =>
      t.A == 0x00 && t.PC == 0x1001 && t.CC == 0x05) = true := by decide

theorem test_daa_T28 : stepGives (loaded { board with A := 0x3C }
    [0x19] []) (fun t =>
      t.A == 0x42 && t.PC == 0x1001) = true := by decide

theorem test_dec_T33 : stepGives (loaded { board with CC := 0x01 }
    [0x7A, 0xA0, 0x00] [(0xA000, 0x80)]) (fun t =>
      t.PC == 0x1003 && t.CC == 0x03 && t.readByte 0xA000 == 0x7F) = true := by decide

theorem test_eorb_T37 : stepGives (loaded { board with B := 0x55 }
    [0xC8, 0x55] []) (fun t =>
      t.B == 0x00 && t.PC == 0x1002 && t.CC == 0x04) = true := by decide

theorem test_inc_T38 : stepGives (loaded board
    [0x0C, 0x40] [(0x0040, 0x7F)]) (fun t =>
      t.PC == 0x1002 && t.CC == 0x0A && t.readByte 0x0040 == 0x80) = true := by decide

theorem test_lsr_T44 : stepGives (loaded board
    [0x04, 0x20] [(0x0020, 0x01)]) (fun t =>
      t.PC == 0x1002 && t.CC == 0x05 && t.readByte 0x0020 == 0x00) = true := by decide

theorem test_mul_T47 : stepGives (loaded { board with A := 0xFF, B := 0xFF }
    [0x3D] []) (fun t =>
      t.A == 0xFE && t.B == 0x01 && t.PC == 0x1001 && t.CC == 0x00) = true := by decide

theorem test_nega_T51 : stepGives (loaded { board with A := 0x80 }
    [0x40] []) (fun t =>
      t.PC == 0x1001) = true := by decide

theorem test_ora_T53 : stepGives (loaded { board with A := 0xF0 }
    [0x8A, 0x0F] []) (fun t =>
      t.A == 0xFF && t.PC == 0x1002 && t.CC == 0x08) = true := by decide

theorem test_rol_T55 : stepGives (loaded board
    [0x09, 0x20] [(0x0020, 0x80)]) (fun t =>
      t.PC == 0x1002 && t.CC == 0x07 && t.readByte 0x0020 == 0x00) = true := by decide

theorem test_rora_T59 : stepGives (loaded { board with A := 0x00, CC := 0x01 }
    [0x46] []) (fun t =>
      t.A == 0x80 && t.PC == 0x1001 && t.CC == 0x08) = true := by decide

theorem test_sbca_T61 : stepGives (loaded { board with A := 0x00, CC := 0x01 }
    [0x82, 0x01] []) (fun t =>
      t.A == 0xFE && t.PC == 0x1002) = true := by decide

theorem test_sta_T64 : stepGives (loaded { board with A := 0x80, CC := 0x03 }
    [0x97, 0x20] []) (fun t =>
      t.PC == 0x1002 && t.CC == 0x09 && t.readByte 0x0020 == 0x80) = true := by decide

theorem test_subb_T67 : stepGives (loaded { board with B := 0x80 }
    [0xC0, 0x01] []) (fun t =>
      t.B == 0x7F && t.PC == 0x1002) = true := by decide

theorem test_tst_T69 : stepGives (loaded { board with CC := 0x03 }
    [0x0D, 0x20] [(0x0020, 0x80)]) (fun t =>
      t.PC == 0x1002 && t.CC == 0x09) = true := by decide

theorem test_addd_T101 : stepGives (loaded { board with A := 0xFF, B := 0xFF, CC := 0x20 }
    [0xC3, 0x00, 0x01] []) (fun t =>
      t.A == 0x00 && t.B == 0x00 && t.PC == 0x1003 && t.CC == 0x25) = true := by decide

theorem test_cmpd_T104 : stepGives (loaded { board with A := 0x12, B := 0x34 }
    [0x10, 0x83, 0x12, 0x34] []) (fun t =>
      t.PC == 0x1004 && t.CC == 0x04) = true := by decide

theorem test_sex_T108 : stepGives (loaded { board with B := 0x80 }
    [0x1D] []) (fun t =>
      t.A == 0xFF && t.PC == 0x1001) = true := by decide

theorem test_subd_T113 : stepGives (loaded { board with A := 0x00, B := 0x00, CC := 0x20 }
    [0x83, 0x00, 0x01] []) (fun t =>
      t.A == 0xFF && t.B == 0xFF && t.PC == 0x1003 && t.CC == 0x29) = true := by decide

theorem test_cmps_T201 : stepGives (loaded { board with S := 0xF000 }
    [0x11, 0x8C, 0xF0, 0x00] []) (fun t =>
      t.PC == 0x1004 && t.CC == 0x04) = true := by decide

theorem test_cmpx_T203 : stepGives (loaded { board with X := 0x0FFF }
    [0x8C, 0x10, 0x00] []) (fun t =>
      t.PC == 0x1003 && t.CC == 0x09) = true := by decide

theorem test_lds_T205 : stepGives (loaded board
    [0x10, 0xCE, 0xF0, 0x00] []) (fun t =>
      t.S == 0xF000 && t.PC == 0x1004 && t.CC == 0x08) = true := by decide

theorem test_stx_T212 : stepGives (loaded { board with X := 0x0000 }
    [0xAF, 0x81] []) (fun t =>
      t.X == 0x0002 && t.PC == 0x1002 && t.CC == 0x00 && t.readByte 0x0000 == 0x00 && t.readByte 0x0001 == 0x02) = true := by decide

theorem test_leay_T217 : stepGives (loaded { board with A := 0xFF, Y := 0x1000 }
    [0x31, 0xA6] []) (fun t =>
      t.Y == 0x0FFF && t.PC == 0x1002 && t.CC == 0x00) = true := by decide

theorem test_leas_T220 : stepGives (loaded { board with S := 0x8000 }
    [0x32, 0x76] []) (fun t =>
      t.S == 0x7FF6 && t.PC == 0x1002 && t.CC == 0x00) = true := by decide

theorem test_leax_T224 : stepGives (loaded { board with X := 0x1234 }
    [0x30, 0x80] []) (fun t =>
      t.PC == 0x1002 && t.CC == 0x00) = true := by decide

theorem test_leax_T225 : stepGives (loaded { board with X := 0x1234 }
    [0x30, 0x82] []) (fun t =>
      t.X == 0x1233 && t.PC == 0x1002 && t.CC == 0x00) = true := by decide

theorem test_pshs_T229 : stepGives (loaded { board with A := 0x11, B := 0x22, X := 0x3344, Y := 0x5566, S := 0xF000 }
    [0x34, 0x36] []) (fun t =>
      t.S == 0xEFFA && t.PC == 0x1002 && t.CC == 0x00 && t.readByte 0xEFFF == 0x66 && t.readByte 0xEFFE == 0x55 &&
      t.readByte 0xEFFD == 0x44 && t.readByte 0xEFFC == 0x33 && t.readByte 0xEFFB == 0x22 && t.readByte 0xEFFA == 0x11) = true := by decide

theorem test_pshu_T232 : stepGives (loaded { board with A := 0xAB, B := 0xCD, U := 0x1000 }
    [0x36, 0x06] []) (fun t =>
      t.U == 0x0FFE && t.PC == 0x1002 && t.CC == 0x00 && t.readByte 0x0FFF == 0xCD && t.readByte 0x0FFE == 0xAB) = true := by decide

theorem test_puls_T234 : stepGives (loaded { board with S := 0xEFFE }
    [0x35, 0x06] [(0xEFFE, 0xAB), (0xEFFF, 0xCD)]) (fun t =>
      t.A == 0xAB && t.B == 0xCD && t.S == 0xF000 && t.PC == 0x1002 && t.CC == 0x00) = true := by decide

theorem test_pulu_T237 : stepGives (loaded { board with U := 0x1000, PC := 0x0100 }
    [0x37, 0x36] [(0x1000, 0x01), (0x1001, 0x02), (0x1002, 0x03), (0x1003, 0x04), (0x1004, 0x05), (0x1005, 0x06)]) (fun t =>
      t.A == 0x01 && t.B == 0x02 && t.X == 0x0304 && t.Y == 0x0506 && t.U == 0x1006 && t.PC == 0x0102 && t.CC == 0x00) = true := by decide

theorem test_exg_T240 : stepGives (loaded { board with A := 0x12, B := 0x34 }
    [0x1E, 0x89] []) (fun t =>
      t.A == 0x34 && t.B == 0x12 && t.PC == 0x1002 && t.CC == 0x00) = true := by decide

theorem test_tfr_T243 : stepGives (loaded { board with X := 0xF000 }
    [0x1F, 0x12] []) (fun t =>
      t.Y == 0xF000 && t.PC == 0x1002 && t.CC == 0x00) = true := by decide

theorem test_abx_T251 : stepGives (loaded { board with B := 0xFF, X := 0x00FF }
    [0x3A] []) (fun t =>
      t.X == 0x01FE && t.PC == 0x1001 && t.CC == 0x00) = true := by decide

theorem test_bra_T301 : stepGives (loaded board
    [0x20, 0xFE] []) (fun t =>
      t.PC == 0x1000 && t.CC == 0x00) = true := by decide

theorem test_bhi_T307 : stepGives (loaded board
    [0x22, 0x04] []) (fun t =>
      t.PC == 0x1006 && t.CC == 0x00) = true := by decide

theorem test_blt_T311 : stepGives (loaded { board with CC := 0x08 }
    [0x2D, 0x04] []) (fun t =>
      t.PC == 0x1006 && t.CC == 0x08) = true := by decide

theorem test_bgt_T312 : stepGives (loaded { board with CC := 0x04 }
    [0x2E, 0x04] []) (fun t =>
      t.PC == 0x1002 && t.CC == 0x04) = true := by decide

theorem test_bsr_T314 : stepGives (loaded { board with S := 0x8000 }
    [0x8D, 0x10] []) (fun t =>
      t.S == 0x7FFE && t.PC == 0x1012 && t.CC == 0x00 && t.readByte 0x7FFF == 0x02 && t.readByte 0x7FFE == 0x10) = true := by decide

theorem test_lbrn_T317 : stepGives (loaded board
    [0x10, 0x21, 0x12, 0x34] []) (fun t =>
      t.PC == 0x1004 && t.CC == 0x00) = true := by decide

theorem test_lbsr_T321 : stepGives (loaded { board with S := 0xF000, PC := 0x8000 }
    [0x17, 0x1F, 0xFD] []) (fun t =>
      t.S == 0xEFFE && t.PC == 0xA000 && t.CC == 0x00 && t.readByte 0xEFFF == 0x03 && t.readByte 0xEFFE == 0x80) = true := by decide

theorem test_andcc_T401 : stepGives (loaded { board with CC := 0xD5 }
    [0x1C, 0xEF] []) (fun t =>
      t.PC == 0x1002 && t.CC == 0xC5) = true := by decide

theorem test_nop_T404 : stepGives (loaded { board with CC := 0xA5 }
    [0x12] []) (fun t =>
      t.PC == 0x1001 && t.CC == 0xA5) = true := by decide

theorem test_jmp_T405 : stepGives (loaded board
    [0x7E, 0xA0, 0x00] []) (fun t =>
      t.PC == 0xA000 && t.CC == 0x00) = true := by decide

theorem test_jsr_T409 : stepGives (loaded { board with S := 0xF000, PC := 0x8000 }
    [0xBD, 0xA0, 0x00] []) (fun t =>
      t.S == 0xEFFE && t.PC == 0xA000 && t.CC == 0x00 && t.readByte 0xEFFF == 0x03 && t.readByte 0xEFFE == 0x80) = true := by decide

theorem test_rts_T412 : stepGives (loaded { board with S := 0xEFFE }
    [0x39] [(0xEFFE, 0x80), (0xEFFF, 0x03)]) (fun t =>
      t.S == 0xF000 && t.PC == 0x8003 && t.CC == 0x00) = true := by decide

theorem test_rti_T413 : stepGives (loaded { board with S := 0x7FFD, CC := 0x50 }
    [0x3B] [(0x7FFD, 0x04), (0x7FFE, 0x10), (0x7FFF, 0x02)]) (fun t =>
      t.S == 0x8000 && t.PC == 0x1002 && t.CC == 0x04) = true := by decide

theorem test_swi_T415 : stepGives (loaded { board with A := 0x01, B := 0x02, X := 0x0405, Y := 0x0607, U := 0x0809, S := 0x8000, DP := 0x03 }
    [0x3F] [(0xFFFA, 0x20), (0xFFFB, 0x00)]) (fun t =>
      t.S == 0x7FF4 && t.PC == 0x2000 && t.CC == 0xD0 && t.readByte 0x7FFF == 0x01 && t.readByte 0x7FFE == 0x10 &&
      t.readByte 0x7FFD == 0x09 && t.readByte 0x7FFC == 0x08 && t.readByte 0x7FFB == 0x07 && t.readByte 0x7FFA == 0x06 &&
      t.readByte 0x7FF9 == 0x05 && t.readByte 0x7FF8 == 0x04 && t.readByte 0x7FF7 == 0x03 && t.readByte 0x7FF6 == 0x02 &&
      t.readByte 0x7FF5 == 0x01 && t.readByte 0x7FF4 == 0x80) = true := by decide

theorem test_swi2_T416 : stepGives (loaded { board with A := 0x01, B := 0x02, X := 0x0405, Y := 0x0607, U := 0x0809, S := 0x8000, DP := 0x03 }
    [0x10, 0x3F] [(0xFFF4, 0x30), (0xFFF5, 0x00)]) (fun t =>
      t.S == 0x7FF4 && t.PC == 0x3000 && t.CC == 0x80 && t.readByte 0x7FFF == 0x02 && t.readByte 0x7FFE == 0x10 &&
      t.readByte 0x7FFD == 0x09 && t.readByte 0x7FFC == 0x08 && t.readByte 0x7FFB == 0x07 && t.readByte 0x7FFA == 0x06 &&
      t.readByte 0x7FF9 == 0x05 && t.readByte 0x7FF8 == 0x04 && t.readByte 0x7FF7 == 0x03 && t.readByte 0x7FF6 == 0x02 &&
      t.readByte 0x7FF5 == 0x01 && t.readByte 0x7FF4 == 0x80) = true := by decide

theorem test_cwai_T418 : stepGives (loaded { board with S := 0x8000, CC := 0x50 }
    [0x3C, 0xEF] []) (fun t =>
      t.S == 0x7FF4 && t.PC == 0x1002 && t.CC == 0xC0 && t.run == .wait && t.readByte 0x7FFF == 0x02 &&
      t.readByte 0x7FFE == 0x10 && t.readByte 0x7FFD == 0x00 && t.readByte 0x7FFC == 0x00 && t.readByte 0x7FFB == 0x00 &&
      t.readByte 0x7FFA == 0x00 && t.readByte 0x7FF9 == 0x00 && t.readByte 0x7FF8 == 0x00 && t.readByte 0x7FF7 == 0x00 &&
      t.readByte 0x7FF6 == 0x00 && t.readByte 0x7FF5 == 0x00 && t.readByte 0x7FF4 == 0xC0) = true := by decide

theorem test_sync_T419 : stepGives (loaded board
    [0x13] []) (fun t =>
      t.PC == 0x1001 && t.CC == 0x00 && t.run == .sync) = true := by decide

/-- `[-1,X]` has no 5-bit form: it is 98 FF, and 1F, bit 4 set, is the direct `-1,X` (30_encoding.md R122). -/
theorem test_five_bit_offset_has_no_indirect_form :
    encodeIndexed (.off8 .x 0xFF true) = [0x98, 0xFF] ∧ decodeIndexed 0x98 0xFF 0 = some (.off8 .x 0xFF true, 2) ∧
    encodeIndexed (.off5 .x (-1)) = [0x1F] ∧ decodeIndexed 0x1F 0xFF 0 = some (.off5 .x (-1), 1) := by decide

/-! The flags the spec defines beside one it leaves undefined, for either value of that one (95_test_vectors.md, 2.2, 2.3). -/

theorem test_asl_flags : ∀ d : Bool, (aslByte 0x81 0x00 d).2 &&& 0xDF = 0x03 := by decide

theorem test_asr_flags : ∀ d : Bool, (asrByte 0x81 0x00 d).2 &&& 0xDF = 0x09 := by decide

theorem test_neg_flags : ∀ d : Bool, (negByte 0x80 0x00 d).2 &&& 0xDF = 0x0B := by decide

theorem test_sub_flags : ∀ d : Bool, arithFlags8 0x00 (sub8 0x00 0x01 true d) &&& 0xDF = 0x09 := by decide

theorem test_daa_flags : ∀ d : Bool, (daaByte 0x9A 0x00 d).1 = 0x00 ∧ (daaByte 0x9A 0x00 d).2 &&& 0xFD = 0x05 := by decide

theorem test_sex_flags : ∀ d : Bool, (sexByte 0x80 0x00 d).1 = 0xFF ∧ (sexByte 0x80 0x00 d).2 &&& 0xFD = 0x08 := by decide

/-! The truth table of the conditions (95_test_vectors.md, 2.5): for N Z V C from 0000 to 1111. -/

/-- Where a branch takes PC, for each value of N Z V C. -/
def branchRow (i : Instr) : List Nat :=
  (List.range 16).map fun n =>
    match exec i { board with CC := BitVec.ofNat 8 n } with
    | .next t => if t.PC == 0x1004 then 1 else 0
    | .fault _ => 2
    | .refused _ => 2

theorem test_short_branch_table :
    branchRow (.bra 4) = [1, 1, 1, 1, 1, 1, 1, 1, 1, 1, 1, 1, 1, 1, 1, 1] ∧
    branchRow (.brn 4) = [0, 0, 0, 0, 0, 0, 0, 0, 0, 0, 0, 0, 0, 0, 0, 0] ∧
    branchRow (.bhi 4) = [1, 0, 1, 0, 0, 0, 0, 0, 1, 0, 1, 0, 0, 0, 0, 0] ∧
    branchRow (.bls 4) = [0, 1, 0, 1, 1, 1, 1, 1, 0, 1, 0, 1, 1, 1, 1, 1] ∧
    branchRow (.bhs 4) = [1, 0, 1, 0, 1, 0, 1, 0, 1, 0, 1, 0, 1, 0, 1, 0] ∧
    branchRow (.blo 4) = [0, 1, 0, 1, 0, 1, 0, 1, 0, 1, 0, 1, 0, 1, 0, 1] ∧
    branchRow (.bne 4) = [1, 1, 1, 1, 0, 0, 0, 0, 1, 1, 1, 1, 0, 0, 0, 0] ∧
    branchRow (.beq 4) = [0, 0, 0, 0, 1, 1, 1, 1, 0, 0, 0, 0, 1, 1, 1, 1] ∧
    branchRow (.bvc 4) = [1, 1, 0, 0, 1, 1, 0, 0, 1, 1, 0, 0, 1, 1, 0, 0] ∧
    branchRow (.bvs 4) = [0, 0, 1, 1, 0, 0, 1, 1, 0, 0, 1, 1, 0, 0, 1, 1] ∧
    branchRow (.bpl 4) = [1, 1, 1, 1, 1, 1, 1, 1, 0, 0, 0, 0, 0, 0, 0, 0] ∧
    branchRow (.bmi 4) = [0, 0, 0, 0, 0, 0, 0, 0, 1, 1, 1, 1, 1, 1, 1, 1] ∧
    branchRow (.bge 4) = [1, 1, 0, 0, 1, 1, 0, 0, 0, 0, 1, 1, 0, 0, 1, 1] ∧
    branchRow (.blt 4) = [0, 0, 1, 1, 0, 0, 1, 1, 1, 1, 0, 0, 1, 1, 0, 0] ∧
    branchRow (.bgt 4) = [1, 1, 0, 0, 0, 0, 0, 0, 0, 0, 1, 1, 0, 0, 0, 0] ∧
    branchRow (.ble 4) = [0, 0, 1, 1, 1, 1, 1, 1, 1, 1, 0, 0, 1, 1, 1, 1] := by decide

theorem test_long_branch_table :
    branchRow (.lbra 4) = [1, 1, 1, 1, 1, 1, 1, 1, 1, 1, 1, 1, 1, 1, 1, 1] ∧
    branchRow (.lbrn 4) = [0, 0, 0, 0, 0, 0, 0, 0, 0, 0, 0, 0, 0, 0, 0, 0] ∧
    branchRow (.lbhi 4) = [1, 0, 1, 0, 0, 0, 0, 0, 1, 0, 1, 0, 0, 0, 0, 0] ∧
    branchRow (.lbls 4) = [0, 1, 0, 1, 1, 1, 1, 1, 0, 1, 0, 1, 1, 1, 1, 1] ∧
    branchRow (.lbhs 4) = [1, 0, 1, 0, 1, 0, 1, 0, 1, 0, 1, 0, 1, 0, 1, 0] ∧
    branchRow (.lblo 4) = [0, 1, 0, 1, 0, 1, 0, 1, 0, 1, 0, 1, 0, 1, 0, 1] ∧
    branchRow (.lbne 4) = [1, 1, 1, 1, 0, 0, 0, 0, 1, 1, 1, 1, 0, 0, 0, 0] ∧
    branchRow (.lbeq 4) = [0, 0, 0, 0, 1, 1, 1, 1, 0, 0, 0, 0, 1, 1, 1, 1] ∧
    branchRow (.lbvc 4) = [1, 1, 0, 0, 1, 1, 0, 0, 1, 1, 0, 0, 1, 1, 0, 0] ∧
    branchRow (.lbvs 4) = [0, 0, 1, 1, 0, 0, 1, 1, 0, 0, 1, 1, 0, 0, 1, 1] ∧
    branchRow (.lbpl 4) = [1, 1, 1, 1, 1, 1, 1, 1, 0, 0, 0, 0, 0, 0, 0, 0] ∧
    branchRow (.lbmi 4) = [0, 0, 0, 0, 0, 0, 0, 0, 1, 1, 1, 1, 1, 1, 1, 1] ∧
    branchRow (.lbge 4) = [1, 1, 0, 0, 1, 1, 0, 0, 0, 0, 1, 1, 0, 0, 1, 1] ∧
    branchRow (.lblt 4) = [0, 0, 1, 1, 0, 0, 1, 1, 1, 1, 0, 0, 1, 1, 0, 0] ∧
    branchRow (.lbgt 4) = [1, 1, 0, 0, 0, 0, 0, 0, 0, 0, 1, 1, 0, 0, 0, 0] ∧
    branchRow (.lble 4) = [0, 0, 1, 1, 1, 1, 1, 1, 1, 1, 0, 0, 1, 1, 1, 1] := by decide

/-! Interrupts, SYNC, CWAI and reset, from the vectors I1 to I12 of 95_test_vectors.md, section 3. -/

/-- The vectors' start state, with the pins of the next step and the bytes at 0x1234. -/
def field (cc : Byte) (p : Pins) (bs : List Byte) : State :=
  loaded { State.reset with
    A := 0x11, B := 0x22, DP := 0x33, X := 0x4455, Y := 0x6677, U := 0x8899, S := 0x8000, PC := 0x1234, CC := cc,
    nmiArmed := true, lines := [p] } bs
    [(0xFFF6, 0x28), (0xFFF8, 0x20), (0xFFFC, 0x2C), (0xFFFE, 0x10)]

/-- IRQ low. -/
def irqLow : Pins := { Pins.idle with irq := true }
/-- FIRQ low. -/
def firqLow : Pins := { Pins.idle with firq := true }
/-- A falling edge on NMI. -/
def nmiEdge : Pins := { Pins.idle with nmiEdge := true }
/-- RES low. -/
def resLow : Pins := { Pins.idle with res := true }
/-- HALT low. -/
def haltLow : Pins := { Pins.idle with halt := true }
/-- DMA/BREQ low. -/
def dmaLow : Pins := { Pins.idle with dma := true }

/-- CC, S, PC, the run state, and the bytes from S up. -/
def shows (cc : Byte) (sp pc : Word) (r : Run) (stack : List Byte) (t : State) : Bool :=
  t.CC == cc && t.S == sp && t.PC == pc && t.run == r &&
    (List.range stack.length).map (fun n => t.readByte (t.S + BitVec.ofNat 16 n)) == stack

theorem test_I1_irq : stepGives (field 0x01 irqLow [0x12]) (shows 0x91 0x7FF4 0x2000 .running
    [0x81, 0x11, 0x22, 0x33, 0x44, 0x55, 0x66, 0x77, 0x88, 0x99, 0x12, 0x34]) = true := by decide

theorem test_I2_irq_masked : stepGives (field 0x11 irqLow [0x12]) (shows 0x11 0x8000 0x1235 .running []) = true := by
  decide

theorem test_I3_firq : stepGives (field 0x01 firqLow [0x12])
    (shows 0x51 0x7FFD 0x2800 .running [0x01, 0x12, 0x34]) = true := by decide

theorem test_I4_firq_masked_irq_taken : stepGives (field 0x41 { firqLow with irq := true } [0x12])
    (shows 0xD1 0x7FF4 0x2000 .running [0xC1, 0x11]) = true := by decide

theorem test_I5_nmi : stepGives (field 0x51 nmiEdge [0x12]) (fun t =>
    shows 0xD1 0x7FF4 0x2C00 .running [0xD1, 0x11] t && !t.nmiPending) = true := by decide

theorem test_I6_nmi_unarmed : stepGives { field 0x51 nmiEdge [0x12] with nmiArmed := false } (fun t =>
    shows 0x51 0x8000 0x1235 .running [] t && !t.nmiPending) = true := by decide

theorem test_I7_nmi_first : stepGives (field 0x00 { nmiEdge with firq := true, irq := true } [0x12])
    (shows 0xD0 0x7FF4 0x2C00 .running [0x80]) = true := by decide

theorem test_I8_firq_before_irq : stepGives (field 0x00 { firqLow with irq := true } [0x12])
    (shows 0x50 0x7FFD 0x2800 .running [0x00, 0x12, 0x34]) = true := by decide

theorem test_I9_sync : stepGives (field 0x50 Pins.idle [0x13]) (shows 0x50 0x8000 0x1235 .sync []) = true ∧
    stepGives { field 0x50 irqLow [0x13] with run := .sync, PC := 0x1235 }
      (shows 0x50 0x8000 0x1235 .running []) = true := by decide

theorem test_I10_sync_irq : stepGives { field 0x40 irqLow [0x13] with run := .sync, PC := 0x1235 }
    (shows 0xD0 0x7FF4 0x2000 .running [0xC0, 0x11, 0x22, 0x33, 0x44, 0x55, 0x66, 0x77, 0x88, 0x99, 0x12, 0x35]) = true := by
  decide

theorem test_I12_cwai : stepGives (field 0x50 Pins.idle [0x3C, 0xBF]) (shows 0x90 0x7FF4 0x1236 .wait
    [0x90, 0x11, 0x22, 0x33, 0x44, 0x55, 0x66, 0x77, 0x88, 0x99, 0x12, 0x36]) = true := by decide

theorem test_I12_wait : stepGives { field 0x90 irqLow [] with run := .wait } (shows 0x90 0x8000 0x1234 .wait []) = true ∧
    stepGives { field 0x90 firqLow [] with run := .wait } (shows 0xD0 0x8000 0x2800 .running []) = true := by decide

theorem test_reset_release : stepGives { field 0x00 Pins.idle [] with run := .reset } (fun t =>
    t.PC == 0x1000 && t.run == .running && t.busCodes == [(false, true), (false, true), (false, false)]) = true := by decide

theorem test_irq_acknowledge : stepGives (field 0x01 irqLow [0x12]) (fun t =>
    t.busCodes == [(false, true), (false, true), (false, false)]) = true := by decide

/-! DMA/BREQ inside an instruction (60_exceptions.md R422, R423; 20_memory.md R72). -/

/-- The other master's grants, one entry for each byte access of the next step. -/
def withGrants (s : State) (gs : List (Option (List (Word × Byte)))) : State :=
  { s with lines := [{ Pins.idle with grants := gs }] }

/-- INC 0x2000 with a write there between its read and its write: the write is lost. -/
theorem test_dma_inside_inc : stepGives
    (withGrants (loaded board [0x7C, 0x20, 0x00] [(0x2000, 0x10)]) [none, none, none, none, some [(0x2000, 0x55)]]) (fun t =>
      t.readByte 0x2000 == 0x11 && t.busCodes == [(true, true), (false, false)]) = true := by decide

/-- LDD 0x2000 with both bytes written between its two reads: the word is torn. -/
theorem test_dma_inside_ldd : stepGives
    (withGrants (loaded board [0xFC, 0x20, 0x00] [(0x2000, 0x12), (0x2001, 0x34)])
      [none, none, none, none, some [(0x2000, 0xAB), (0x2001, 0xCD)]]) (fun t =>
      t.A == 0x12 && t.B == 0xCD && t.readByte 0x2000 == 0xAB) = true := by decide

/-- LDA with its operand byte written after its opcode is fetched. -/
theorem test_dma_inside_fetch : stepGives
    (withGrants (loaded board [0x86, 0x01] []) [none, some [(0x1001, 0x02)]]) (fun t =>
      t.A == 0x02 && t.PC == 0x1002) = true := by decide

/-! The state at a fault (95_test_vectors.md, 2.7). -/

/-- The step stops at a fault whose state is the start with PC there. -/
def faultsAt (bs : List Byte) (f : State → Fault) (pc : Word) : Bool :=
  let s := loaded { board with X := 0x2000 } bs []
  match step s with
  | .next _ => false
  | .fault g => decide (g = f { s.sample with PC := pc })
  | .refused _ => false

theorem test_faults_T501_T508_T510 : faultsAt [0x01] .undefinedOpcode 0x1001 = true ∧
    faultsAt [0x10, 0x20] .undefinedOpcode 0x1002 = true ∧ faultsAt [0x11, 0x3E] .undefinedOpcode 0x1002 = true := by
  decide

theorem test_faults_T511_T517_T248 : faultsAt [0xA6, 0x90] .undefinedPostbyte 0x1002 = true ∧
    faultsAt [0xA6, 0xBF] .undefinedPostbyte 0x1002 = true ∧ faultsAt [0x1F, 0x81] .undefinedPostbyte 0x1002 = true := by
  decide

theorem test_reset_state : State.reset.DP = 0 ∧ State.reset.flag .I = true ∧ State.reset.flag .F = true ∧
    State.reset.PC = State.reset.readWord 0xFFFE ∧ State.reset.nmiArmed = false ∧ State.reset.nmiPending = false := by
  decide

/-- The first instruction after reset with a table word placed (logs 17 and 22). -/
theorem test_withFetchWord : stepGives (State.reset.withFetchWord 16 0x2A86) (fun t => t.A == 0x2A && t.PC == 2) = true := by
  decide

/-! The hypotheses of every statement that has some are met together: concrete states and operands. -/

theorem witness_DecodeEncodeAgree : Instr.wellFormed (.exg (.r8 .a) (.r8 .dp)) = true := by decide

theorem witness_DecodedIsWellFormed : decode 0x10 0xA3 0x89 0x01 0x2C = .ok ⟨.cmpd (.mem (.idx (.off16 .x 300 false))), 5⟩ := by
  rfl

theorem witness_UnusedOpcodesFault_page1 : (loaded board [0x01] []).RunsNext ∧
    isUnused ((loaded board [0x01] []).sample.fetchByte 0) ((loaded board [0x01] []).sample.fetchByte 1) = true := by
  decide

theorem witness_UnusedOpcodesFault_page2 : (loaded board [0x10, 0x20] []).RunsNext ∧
    isUnused ((loaded board [0x10, 0x20] []).sample.fetchByte 0)
      ((loaded board [0x10, 0x20] []).sample.fetchByte 1) = true := by decide

theorem witness_UnusedOpcodesFault_page3 : (loaded board [0x11, 0x10] []).RunsNext ∧
    isUnused ((loaded board [0x11, 0x10] []).sample.fetchByte 0)
      ((loaded board [0x11, 0x10] []).sample.fetchByte 1) = true := by decide

theorem witness_UndefinedPostbytesFault_lengths : decodeIndexed 0x84 0 0 = some (.zero .x false, 1) ∧
    decodeIndexed 0xFC 0 0 = some (.pcr8 0 true, 2) ∧ decodeIndexed 0x9F 0 0 = some (.extInd 0, 3) := by decide

theorem witness_UndefinedPostbytesFault_decode : isIdxOpcode 0x30 = true ∧ isIdxOpcode 0xEF = true ∧
    isIdxSecond 0x10 0xEF = true ∧ isIdxSecond 0x11 0xA3 = true ∧ isUndefinedPostbyte 0x87 = true ∧
    isUndefinedPostbyte 0xFF = true := by decide

theorem witness_UndefinedPostbytesFault_step : (loaded board [0xA6, 0x87] []).RunsNext ∧
    isIdxOpcode ((loaded board [0xA6, 0x87] []).sample.fetchByte 0) = true ∧
    isUndefinedPostbyte ((loaded board [0xA6, 0x87] []).sample.fetchByte 1) = true := by decide

theorem witness_UndefinedPostbytesFault_step2 : (loaded board [0x10, 0xAE, 0x8F] []).RunsNext ∧
    isIdxSecond ((loaded board [0x10, 0xAE, 0x8F] []).sample.fetchByte 0)
      ((loaded board [0x10, 0xAE, 0x8F] []).sample.fetchByte 1) = true ∧
    isUndefinedPostbyte ((loaded board [0x10, 0xAE, 0x8F] []).sample.fetchByte 2) = true := by decide

theorem witness_InvalidRegisterPairsFault_step : (loaded board [0x1F, 0x81] []).RunsNext ∧
    (loaded board [0x1F, 0x81] []).sample.fetchByte 0 = 0x1F ∧
    (loaded board [0x1F, 0x81] []).sample.fetch = .error .postbyte := ⟨by decide, by decide, rfl⟩

theorem witness_InvalidRegisterPairsFault : 0 < 16 ∧ 15 < 16 ∧ decodeReg 0x5 = some (.r16 .pc) ∧ decodeReg 0xF = none := by
  decide

theorem witness_StepRunsDecodedInstruction : (loaded board [0x12] []).RunsNext ∧
    (loaded board [0x12] []).sample.fetch = .ok ⟨.nop, 1⟩ ∧ (loaded board [0x12] []).sample.KeepsBus :=
  ⟨by decide, rfl, by decide⟩

theorem witness_StepKeepsInvariant : board.Inv ∧ ∃ t, step board = .next t := ⟨by decide, _, rfl⟩

theorem witness_ResetSequence_low : ∀ r ∈ [Run.reset, .running, .sync, .wait, .busGrant],
    { field 0 resLow [] with run := r }.nextPins.res = true ∧ { field 0 resLow [] with run := r }.run ≠ .halted := by decide

theorem witness_ResetSequence_release : { field 0 Pins.idle [] with run := .reset }.run = .reset ∧
    { field 0 Pins.idle [] with run := .reset }.nextPins.res = false ∧
    { field 0 Pins.idle [] with run := .reset }.nextPins.halt = false ∧
    { field 0 Pins.idle [] with run := .reset }.sample.KeepsBus := by decide

/-- The pins stop nothing at this boundary, and no other master takes the bus in the step. -/
abbrev unstopped (s : State) (r : Run) : Prop :=
  s.run = r ∧ s.sample.KeepsBus ∧ s.nextPins.res = false ∧ s.nextPins.dma = false ∧ s.nextPins.halt = false

theorem witness_HardwareInterrupts_nmi : unstopped (field 0x50 nmiEdge []) .running ∧ (field 0x50 nmiEdge []).nmiNow = true := by
  decide

theorem witness_HardwareInterrupts_firq : unstopped (field 0x10 firqLow []) .running ∧
    (field 0x10 firqLow []).nmiNow = false ∧ (field 0x10 firqLow []).firqNow = true := by decide

theorem witness_HardwareInterrupts_irq : unstopped (field 0x40 irqLow []) .running ∧ (field 0x40 irqLow []).nmiNow = false ∧
    (field 0x40 irqLow []).firqNow = false ∧ (field 0x40 irqLow []).irqNow = true := by decide

theorem witness_SoftwareInterrupts : (field 0 Pins.idle [0x3F]).run = .running ∧ (field 0 Pins.idle [0x3F]).KeepsBus := by
  decide

theorem witness_KeepsBus : board.KeepsBus := by decide

/-- A read-modify-write on memory through an indirect pointer, whose two reads come before the grant. -/
theorem witness_BusGrantsInsideInstructions_modify : memoryModifiers.length = 10 ∧
    ∀ gs ∈ [[none, some [((0x0000 : Word), (0x55 : Byte))]], [some [(0x0000, 0x55)]]],
      let s := { board with grants := none :: none :: gs }
      (s.resolve (.idx (.zero .x true))).1 = 0x0000 ∧ (s.resolve (.idx (.zero .x true))).2.grants = gs ∧
      s.kindAt 0x0000 = .ram := by decide

theorem witness_BusGrantsInsideInstructions : ∀ gs ∈ [[some [((0xFFFF : Word), (0x55 : Byte))]],
      [none, some [(0xFFFF, 0x55)]], [none, some [(0xFFFF, 0x55), (0x0000, 0xAA)]]],
    { board with grants := gs, S := 0x0000 }.grants = gs ∧ board.kindAt 0xFFFF = .ram ∧ board.kindAt (0xFFFF + 1) = .ram ∧
    { board with S := 0x0000 }.S = 0xFFFF + 1 ∧ board.run = .running ∧ Instr.wellFormed (.inc (.ext 0xFFFF)) = true := by
  decide

theorem witness_InterruptThenReturnRestores : ∀ k ∈ [IntKind.irq, .firq],
    board.run = .running ∧ board.KeepsBus ∧ (board.interrupt k).KeepsBus ∧ (∀ n : Nat, n < 12 → board.kindAt (board.S - 12 + BitVec.ofNat 16 n) = .ram) ∧
    (board.interrupt k).S = (board.interrupt k).S ∧ (board.interrupt k).mem = (board.interrupt k).mem ∧
    (board.interrupt k).memMap = board.memMap := by decide

theorem witness_WaitForInterrupt_res : { field 0 resLow [] with run := .wait }.run = .wait ∧
    { field 0 resLow [] with run := .wait }.sample.KeepsBus ∧ { field 0 resLow [] with run := .wait }.nextPins.res = true := by
  decide

theorem witness_WaitForInterrupt_nmi : unstopped { field 0x50 nmiEdge [] with run := .wait } .wait ∧
    { field 0x50 nmiEdge [] with run := .wait }.nmiNow = true := by decide

theorem witness_WaitForInterrupt_firq : unstopped { field 0x10 firqLow [] with run := .wait } .wait ∧
    { field 0x10 firqLow [] with run := .wait }.nmiNow = false ∧
    { field 0x10 firqLow [] with run := .wait }.firqNow = true := by decide

theorem witness_WaitForInterrupt_irq : unstopped { field 0x40 irqLow [] with run := .wait } .wait ∧
    { field 0x40 irqLow [] with run := .wait }.nmiNow = false ∧
    { field 0x40 irqLow [] with run := .wait }.firqNow = false ∧
    { field 0x40 irqLow [] with run := .wait }.irqNow = true := by decide

theorem witness_WaitForInterrupt_stay : unstopped { field 0x50 irqLow [] with run := .wait } .wait ∧
    { field 0x50 irqLow [] with run := .wait }.nmiNow = false ∧
    { field 0x50 irqLow [] with run := .wait }.firqNow = false ∧
    { field 0x50 irqLow [] with run := .wait }.irqNow = false := by decide

theorem witness_SyncInstructionAndState_res : { field 0 resLow [] with run := .sync }.run = .sync ∧
    { field 0 resLow [] with run := .sync }.sample.KeepsBus ∧ { field 0 resLow [] with run := .sync }.nextPins.res = true := by
  decide

theorem witness_SyncInstructionAndState_nmi : unstopped { field 0x50 nmiEdge [] with run := .sync } .sync ∧
    { field 0x50 nmiEdge [] with run := .sync }.nmiNow = true := by decide

theorem witness_SyncInstructionAndState_firq : ∀ b ∈ [false, true],
    unstopped { field 0x10 { firqLow with brief := b } [] with run := .sync } .sync ∧
    { field 0x10 { firqLow with brief := b } [] with run := .sync }.nmiNow = false ∧
    { field 0x10 { firqLow with brief := b } [] with run := .sync }.firqNow = true := by decide

theorem witness_SyncInstructionAndState_irq : ∀ b ∈ [false, true],
    unstopped { field 0x40 { irqLow with brief := b } [] with run := .sync } .sync ∧
    { field 0x40 { irqLow with brief := b } [] with run := .sync }.nmiNow = false ∧
    { field 0x40 { irqLow with brief := b } [] with run := .sync }.firqNow = false ∧
    { field 0x40 { irqLow with brief := b } [] with run := .sync }.irqNow = true := by decide

theorem witness_SyncInstructionAndState_masked : ∀ p ∈ [irqLow, firqLow, Pins.idle],
    unstopped { field 0x50 p [] with run := .sync } .sync ∧ { field 0x50 p [] with run := .sync }.nmiNow = false ∧
    { field 0x50 p [] with run := .sync }.firqNow = false ∧ { field 0x50 p [] with run := .sync }.irqNow = false := by
  decide

theorem witness_HaltAndBusGrant_running : ∀ p ∈ [haltLow, dmaLow],
    (field 0 p []).run = .running ∧ (field 0 p []).nextPins.res = false ∧
    ((field 0 p []).nextPins.dma = true ∨ ((field 0 p []).nextPins.dma = false ∧ (field 0 p []).nextPins.halt = true)) := by
  decide

theorem witness_HaltAndBusGrant_sync_wait : ∀ r ∈ [Run.sync, .wait],
    ({ field 0 dmaLow [] with run := r }.run = .sync ∨ { field 0 dmaLow [] with run := r }.run = .wait) ∧
    { field 0 dmaLow [] with run := r }.nextPins.res = false ∧ { field 0 dmaLow [] with run := r }.nextPins.dma = true := by
  decide

theorem witness_HaltAndBusGrant_halted : { field 0 haltLow [] with run := .halted }.run = .halted ∧
    { field 0 haltLow [] with run := .halted }.nextPins.halt = true ∧
    { field 0 Pins.idle [] with run := .halted }.nextPins.halt = false ∧
    { field 0 Pins.idle [] with run := .halted }.nextPins.res = false ∧
    { field 0 Pins.idle [] with run := .halted }.resume = .running ∧
    { field 0 Pins.idle [] with run := .halted, resume := .reset }.resume = .reset := by decide

theorem witness_HaltAndBusGrant_granted : ∀ p ∈ [dmaLow, Pins.idle],
    { field 0 p [] with run := .busGrant }.run = .busGrant ∧
    { field 0 p [] with run := .busGrant }.nextPins.res = false := by decide

theorem witness_HaltAndBusGrant_reset : { field 0 haltLow [] with run := .reset }.run = .reset ∧
    { field 0 haltLow [] with run := .reset }.nextPins.res = false ∧
    { field 0 haltLow [] with run := .reset }.nextPins.halt = true := by decide

theorem witness_NmiArmedByLoadsOfS : ∃ t, exec (.lds (.imm 0xF000)) board = .next t := ⟨_, rfl⟩

theorem witness_DirectPageWriters : exec .nop board = .next board ∧ mayWriteDP .nop = false := ⟨rfl, by decide⟩

theorem witness_OnlyStoringInstructionsChangeMemory :
    (∃ t, exec (.lda (.imm 0x80)) board = .next t) ∧ mayStore (.lda (.imm 0x80)) = false := ⟨⟨_, rfl⟩, by decide⟩

theorem witness_OnlySyncAndCwaiStopTheMpu :
    (∃ t, exec .sync board = .next t) ∧ (∃ t, exec (.cwai 0xEF) board = .next t) ∧ board.run = .running :=
  ⟨⟨_, rfl⟩, ⟨_, rfl⟩, by decide⟩

theorem witness_IndexedAutoAddresses : Ptr.y ≠ Ptr.x := by decide

theorem witness_DirectExtendedAndPcRelative : 0 < 4 ∧ 3 < 4 := by decide

theorem witness_DecimalAddition : 0 < 100 ∧ 99 < 100 ∧ { board with A := 0x99 }.A = bcd 99 ∧ board.A = bcd 0 := by decide

theorem witness_TransferInstruction : Reg8.b ≠ Reg8.a ∧ Reg16.pc ≠ Reg16.d := by decide

theorem witness_ExchangeInstruction : Reg8.cc ≠ Reg8.a ∧ Reg8.cc ≠ Reg8.b ∧ Reg16.s ≠ Reg16.x ∧ Reg16.s ≠ Reg16.pc := by decide

theorem witness_RotateLaws : 0 < 7 ∧ 6 < 7 := by decide

theorem witness_MixedWidthAccesses : board.KeepsBus ∧ board.kindAt 0x0000 = .ram ∧ board.kindAt 0xFFFF = .ram := by decide

theorem witness_BranchLaws : (0x80 : Byte) ≠ 0 ∧ (0x01 : Byte) ≠ 0 := by decide

end Sys2Proof.Tests
end

