-- ==== Sys2Proof/Proofs/DRegister.lean ====
section
/-! The bytes of a word as numbers, and D as the word A:B (10_state.md R22). -/

namespace Sys2Proof.Machine

theorem toNat_hiByte (w : Word) : (hiByte w).toNat = w.toNat / 256 := by
  have hw : w.toNat < 65536 := w.isLt
  simp only [hiByte, BitVec.extractLsb'_toNat, Nat.shiftRight_eq_div_pow]
  omega

theorem toNat_loByte (w : Word) : (loByte w).toNat = w.toNat % 256 := by
  simp [loByte, BitVec.extractLsb'_toNat]

theorem toNat_joinBytes (h l : Byte) : (joinBytes h l).toNat = 256 * h.toNat + l.toNat := by
  have hl : l.toNat < 2 ^ 8 := l.isLt
  rw [joinBytes, BitVec.toNat_append, ← Nat.shiftLeft_add_eq_or_of_lt hl, Nat.shiftLeft_eq, Nat.mul_comm]

/-- A word is its two bytes joined (20_memory.md R65). -/
@[simp] theorem joinBytes_hiByte_loByte (w : Word) : joinBytes (hiByte w) (loByte w) = w := by
  apply BitVec.eq_of_toNat_eq
  rw [toNat_joinBytes, toNat_hiByte, toNat_loByte]
  exact Nat.div_add_mod w.toNat 256

theorem State.toNat_D (s : State) : s.D.toNat = 256 * s.A.toNat + s.B.toNat := toNat_joinBytes s.A s.B

@[simp] theorem State.setD_D (s : State) (v : Word) : (s.setD v).D = v := joinBytes_hiByte_loByte v

/-- A write of D changes A and B and no other field. -/
theorem State.setD_frame (s : State) (v : Word) : s.setD v = { s with A := (s.setD v).A, B := (s.setD v).B } := rfl

/-- Settles O54: the bytes of a word are its quotient and remainder by 256, so joining them undoes the split. -/
theorem dRegisterIsAAndB : Obligations.DRegisterIsAAndB := by
  intro s v
  exact ⟨s.toNat_D, toNat_hiByte v, toNat_loByte v, s.setD_D v, s.setD_frame v⟩

end Sys2Proof.Machine
end

