-- ==== Sys2Proof/Proofs/ModifiedBytes.lean ====
section
/-! The byte that each read-modify-write operation makes, as a number (41_8bit_accumulator_memory.md). -/

namespace Sys2Proof.Machine

/-- Bit 7 put back over a logical shift makes the shift an arithmetic one. -/
theorem shiftRight_or_sign (m : Byte) : m >>> 1 ||| m &&& 0x80 = m.sshiftRight 1 := by
  ext i hi
  interval_cases i <;> simp [BitVec.getElem_sshiftRight, BitVec.msb_eq_getLsbD_last]

/-- C shifted in at bit 0 of a byte shifted left. -/
theorem shiftLeft_or_carry (m : Byte) (c : Bool) :
    (m <<< 1 ||| if c then 0x01 else 0x00) = BitVec.ofNat 8 (2 * m.toNat + c.toNat) := by
  apply BitVec.eq_of_toNat_eq
  have hshift : (m <<< 1).toNat = 2 ^ 1 * (m.toNat % 128) := by
    rw [BitVec.toNat_shiftLeft, Nat.shiftLeft_eq]; omega
  have hbit : (if c then 0x01 else 0x00 : Byte).toNat = c.toNat := by cases c <;> rfl
  have hc : c.toNat < 2 ^ 1 := c.toNat_lt
  rw [BitVec.toNat_or, hshift, hbit, ← Nat.two_pow_add_eq_or_of_lt hc, BitVec.toNat_ofNat]
  omega

/-- C shifted in at bit 7 of a byte shifted right. -/
theorem shiftRight_or_carry (m : Byte) (c : Bool) :
    (m >>> 1 ||| if c then 0x80 else 0x00) = BitVec.ofNat 8 (m.toNat / 2 + 128 * c.toNat) := by
  apply BitVec.eq_of_toNat_eq
  have hshift : (m >>> 1).toNat = m.toNat / 2 := Nat.shiftRight_eq_div_pow _ 1
  have hbit : (if c then 0x80 else 0x00 : Byte).toNat = 2 ^ 7 * c.toNat := by cases c <;> rfl
  have hm : m.toNat / 2 < 2 ^ 7 := by omega
  have hc : c.toNat < 2 := c.toNat_lt
  rw [BitVec.toNat_or, hshift, hbit, Nat.or_comm, ← Nat.two_pow_add_eq_or_of_lt hm, BitVec.toNat_ofNat]
  omega

theorem aslByte_result (m cc : Byte) (draw : Bool) : (aslByte m cc draw).1 = BitVec.ofNat 8 (2 * m.toNat) := by
  apply BitVec.eq_of_toNat_eq
  simp [aslByte, Nat.shiftLeft_eq, Nat.mul_comm]

theorem asrByte_result (m cc : Byte) (draw : Bool) : (asrByte m cc draw).1 = BitVec.ofInt 8 (m.toInt / 2) := by
  rw [asrByte, shiftRight_or_sign, BitVec.sshiftRight, Int.shiftRight_eq_div_pow, Nat.pow_one]
  rfl

theorem comByte_result (m cc : Byte) (draw : Bool) : (comByte m cc draw).1 = BitVec.ofNat 8 (255 - m.toNat) := by
  have hm : m ^^^ 0xFF = ~~~m := BitVec.xor_allOnes
  apply BitVec.eq_of_toNat_eq
  simp only [comByte, hm, BitVec.toNat_not, BitVec.toNat_ofNat]
  omega

theorem decByte_result (m cc : Byte) (draw : Bool) :
    (decByte m cc draw).1 = BitVec.ofInt 8 ((m.toNat : Int) - 1) := by
  have h1 : (1 : Byte).toNat = 1 := rfl
  apply BitVec.eq_of_toNat_eq
  simp only [decByte, BitVec.toNat_sub, BitVec.toNat_ofInt, h1]
  omega

theorem incByte_result (m cc : Byte) (draw : Bool) : (incByte m cc draw).1 = BitVec.ofNat 8 (m.toNat + 1) := by
  apply BitVec.eq_of_toNat_eq
  simp [incByte]

theorem lsrByte_result (m cc : Byte) (draw : Bool) : (lsrByte m cc draw).1 = BitVec.ofNat 8 (m.toNat / 2) := by
  apply BitVec.eq_of_toNat_eq
  simp only [lsrByte, BitVec.toNat_ushiftRight, Nat.shiftRight_eq_div_pow, BitVec.toNat_ofNat]
  omega

theorem negByte_result (m cc : Byte) (draw : Bool) : (negByte m cc draw).1 = BitVec.ofNat 8 (256 - m.toNat) := by
  have h0 : (0 : Byte).toNat = 0 := rfl
  apply BitVec.eq_of_toNat_eq
  simp only [negByte, sub8, BitVec.toNat_ofInt, BitVec.toNat_ofNat, Bool.toNat_false, h0]
  omega

theorem rolByte_result (m cc : Byte) (draw : Bool) :
    (rolByte m cc draw).1 = BitVec.ofNat 8 (2 * m.toNat + (flagOf cc .C).toNat) :=
  shiftLeft_or_carry m (flagOf cc .C)

theorem rorByte_result (m cc : Byte) (draw : Bool) :
    (rorByte m cc draw).1 = BitVec.ofNat 8 (m.toNat / 2 + 128 * (flagOf cc .C).toNat) :=
  shiftRight_or_carry m (flagOf cc .C)

/-- Every listed instruction is the one template `State.rmwMem`, at an operation that makes the listed byte whatever bit
is drawn. -/
theorem exec_memoryModifier {p : (Mem → Instr) × (Byte → Bool → Byte)} (hp : p ∈ memoryModifiers) :
    ∃ f : Byte → Byte → Bool → Byte × Byte,
      (∀ o s, exec (p.1 o) s = .next (s.rmwMem f o)) ∧ ∀ m cc draw, (f m cc draw).1 = p.2 m (flagOf cc .C) := by
  simp only [memoryModifiers, List.mem_cons, List.not_mem_nil, or_false] at hp
  rcases hp with rfl | rfl | rfl | rfl | rfl | rfl | rfl | rfl | rfl | rfl
  · exact ⟨aslByte, fun _ _ => rfl, aslByte_result⟩
  · exact ⟨asrByte, fun _ _ => rfl, asrByte_result⟩
  · exact ⟨clrByte, fun _ _ => rfl, fun _ _ _ => rfl⟩
  · exact ⟨comByte, fun _ _ => rfl, comByte_result⟩
  · exact ⟨decByte, fun _ _ => rfl, decByte_result⟩
  · exact ⟨incByte, fun _ _ => rfl, incByte_result⟩
  · exact ⟨lsrByte, fun _ _ => rfl, lsrByte_result⟩
  · exact ⟨negByte, fun _ _ => rfl, negByte_result⟩
  · exact ⟨rolByte, fun _ _ => rfl, rolByte_result⟩
  · exact ⟨rorByte, fun _ _ => rfl, rorByte_result⟩

end Sys2Proof.Machine
end

