-- ==== Sys2Proof/Proofs/Bus.lean ====
section
/-! What a bus grant does by the entry it takes, and what each access through the bus then reads or leaves
(60_exceptions.md R422, R423; 20_memory.md R72). -/

namespace Sys2Proof.Machine

/-! The bytes of a word. -/

@[simp] theorem hiByte_joinBytes (h l : Byte) : hiByte (joinBytes h l) = h := by
  apply BitVec.eq_of_toNat_eq
  rw [toNat_hiByte, toNat_joinBytes]
  omega

@[simp] theorem loByte_joinBytes (h l : Byte) : loByte (joinBytes h l) = l := by
  apply BitVec.eq_of_toNat_eq
  rw [toNat_loByte, toNat_joinBytes]
  omega

/-! What stands at an address is fixed by the map, which no operation of the MPU changes. -/

@[simp] theorem State.kindAt_grant (s : State) (a : Word) : s.grant.kindAt a = s.kindAt a := by
  simp [State.kindAt]

@[simp] theorem State.kindAt_setTemp (s : State) (v a : Word) : (s.setTemp v).kindAt a = s.kindAt a := rfl

@[simp] theorem State.kindAt_busWrite (s : State) (a b : Word) (v : Byte) : (s.busWrite a v).kindAt b = s.kindAt b := by
  simp [State.kindAt]

@[simp] theorem State.kindAt_resolve (s : State) (o : Mem) (a : Word) : (s.resolve o).2.kindAt a = s.kindAt a := by
  simp [State.kindAt]

@[simp] theorem State.kindAt_push8 (s : State) (k : Stack) (v : Byte) (a : Word) :
    (s.push8 k v).kindAt a = s.kindAt a := by
  simp [State.kindAt]

/-! A write of a register is no write of memory. -/

@[simp] theorem State.readByte_setTemp (s : State) (v a : Word) : (s.setTemp v).readByte a = s.readByte a := rfl
@[simp] theorem State.readByte_setCC (s : State) (v : Byte) (a : Word) : (s.setCC v).readByte a = s.readByte a := rfl

/-! A grant, by the first entry of the list. -/

theorem State.grant_of_none {s : State} {gs : List (Option (List (Word × Byte)))} (h : s.grants = none :: gs) :
    s.grant = { s with grants := gs } := by
  rw [State.grant, h]

/-- What the other master writes does not depend on the grants to come or on the codes shown. -/
theorem State.grant_of_some {s : State} {ws : List (Word × Byte)} {gs : List (Option (List (Word × Byte)))}
    (h : s.grants = some ws :: gs) :
    s.grant = { s with grants := gs, shown := s.shown ++ [busGrantCode], mem := (s.otherWrites ws).mem } := by
  have hmem : (({ s with grants := gs }.showCode busGrantCode).otherWrites ws).mem = (s.otherWrites ws).mem :=
    State.otherWrites_mem_congr (s := s) (t := { s with grants := gs }.showCode busGrantCode) rfl rfl ws
  rw [State.grant, h]
  dsimp only
  rw [State.otherWrites_eq, hmem]
  rfl

/-- Each access uses up one entry. -/
@[simp] theorem State.grant_grants (s : State) : s.grant.grants = s.grants.tail := by
  cases h : s.grants with
  | nil => rw [State.grant_of_nil h, h]; rfl
  | cons g gs =>
    cases g with
    | none => rw [State.grant_of_none h]; rfl
    | some ws => rw [State.grant_of_some h]; rfl

theorem State.readByte_grant_of_none {s : State} {gs : List (Option (List (Word × Byte)))} (h : s.grants = none :: gs)
    (a : Word) : s.grant.readByte a = s.readByte a := by
  rw [State.grant_of_none h]; rfl

theorem State.readByte_grant_of_some {s : State} {ws : List (Word × Byte)} {gs : List (Option (List (Word × Byte)))}
    (h : s.grants = some ws :: gs) (a : Word) : s.grant.readByte a = (s.otherWrites ws).readByte a := by
  rw [State.grant_of_some h, State.otherWrites_eq s ws]; rfl

/-- A byte that the other master alone writes in a grant. -/
theorem State.readByte_grant_of_write {s : State} {a : Word} {x : Byte} {gs : List (Option (List (Word × Byte)))}
    (h : s.grants = some [(a, x)] :: gs) (ha : s.kindAt a = .ram) : s.grant.readByte a = x := by
  rw [State.readByte_grant_of_some h]
  simp [State.otherWrites, State.readByte_writeByte, ha]

theorem State.shown_grant_of_none {s : State} {gs : List (Option (List (Word × Byte)))} (h : s.grants = none :: gs) :
    s.grant.shown = s.shown := by
  rw [State.grant_of_none h]

theorem State.shown_grant_of_some {s : State} {ws : List (Word × Byte)} {gs : List (Option (List (Word × Byte)))}
    (h : s.grants = some ws :: gs) : s.grant.shown = s.shown ++ [busGrantCode] := by
  rw [State.grant_of_some h]

/-! Accesses. -/

theorem add_one_ne_self (a : Word) : a + 1 ≠ a := by bv_omega

@[simp] theorem State.busWrite_grants (s : State) (a : Word) (v : Byte) : (s.busWrite a v).grants = s.grants.tail := by
  simp [State.busWrite]

@[simp] theorem State.busWrite_shown (s : State) (a : Word) (v : Byte) : (s.busWrite a v).shown = s.grant.shown := by
  simp [State.busWrite]

@[simp] theorem State.push8_grants (s : State) (k : Stack) (v : Byte) : (s.push8 k v).grants = s.grants.tail := by
  cases k <;> simp [State.push8, State.setSp]

/-- The first byte of a word write is stored before the second is, and a grant may come between (20_memory.md R72). -/
theorem State.readByte_busWriteWord_first (s : State) (a v : Word) :
    (s.busWriteWord a v).readByte a = (s.busWrite a (hiByte v)).grant.readByte a := by
  rw [State.busWriteWord, State.readByte_busWrite, if_neg (fun h => add_one_ne_self a h.1)]

/-- A read-modify-write leaves its result of the byte it read, whatever another master wrote there in between
(20_memory.md R72, R78). -/
theorem State.readByte_rmwMem (s : State) (f : Byte → Byte → Bool → Byte × Byte) (o : Mem)
    (h : s.kindAt (s.resolve o).1 = .ram) :
    (s.rmwMem f o).readByte (s.resolve o).1 =
      (f ((s.resolve o).2.grant.readByte (s.resolve o).1) s.CC s.undefFlag).1 := by
  simp [State.rmwMem, State.readByte_busWrite, State.undefFlag, h]

theorem State.readByte_storeAcc (s : State) (r : Acc) (o : Mem) (h : s.kindAt (s.resolve o).1 = .ram) :
    (s.storeAcc r o).readByte (s.resolve o).1 = (s.resolve o).2.acc r := by
  simp [State.storeAcc, State.readByte_busWrite, h]

theorem State.storeAcc_grants (s : State) (r : Acc) (o : Mem) :
    (s.storeAcc r o).grants = (s.resolve o).2.grants.tail := by
  simp [State.storeAcc]

end Sys2Proof.Machine
end

