-- ==== Sys2Proof/Proofs/MixedWidth.lean ====
section
/-! Bytes stored and words loaded at the same and at the next lower address (20_memory.md R68). -/

namespace Sys2Proof.Machine

/-- With no grant to come, LDD at an address has the byte there in A and the next one in B. -/
theorem exec_ldd_ext_of_nil {s : State} (h : s.grants = []) (a : Word) :
    Completes (.ldd (.mem (.ext a))) s fun t => t.A = s.readByte a ∧ t.B = s.readByte (a + 1) := by
  have hread : s.operand16 (.mem (.ext a)) = ((s.setTemp a).readWord a, s.setTemp a) :=
    State.busReadWord_of_nil (s := s.setTemp a) h a
  refine ⟨s.load16 .d (.mem (.ext a)), rfl, ?_, ?_⟩ <;>
    simp [State.load16, State.loadReg16, hread, State.readWord]

/-- Settles O59: STA leaves its byte at `a` and no grant to come, and LDD at `a` and at `a - 1` both read it. -/
theorem mixedWidthAccesses : Obligations.MixedWidthAccesses := by
  intro s a hbus hram
  have hbyte : (s.storeAcc .a (.ext a)).readByte a = s.A := State.readByte_storeAcc s .a (.ext a) hram
  have hgrants : (s.storeAcc .a (.ext a)).grants = [] := by
    rw [State.storeAcc_grants, (State.resolve_quiet hbus _).2.1]; rfl
  refine ⟨s.storeAcc .a (.ext a), rfl, ?_, ?_⟩
  · obtain ⟨u, hu, hA, -⟩ := exec_ldd_ext_of_nil hgrants a
    exact ⟨u, hu, hA.trans hbyte⟩
  · obtain ⟨u, hu, -, hB⟩ := exec_ldd_ext_of_nil hgrants (a - 1)
    rw [BitVec.sub_add_cancel] at hB
    exact ⟨u, hu, hB.trans hbyte⟩

end Sys2Proof.Machine
end

