-- ==== Sys2Proof/Proofs/BusGrants.lean ====
section
/-! Bus grants inside instructions: torn words, divisible read-modify-writes, and a byte of a stack frame changed while
the frame is stacked (20_memory.md R72, R76, R78; 60_exceptions.md R422, R423). -/

namespace Sys2Proof.Machine

/-! Completion: only TFR and EXG of unlike width have no next state. -/

theorem State.transfer_of_sameWidth (s : State) {r1 r2 : Reg} (h : r1.sameWidth r2 = true) :
    ∃ t, s.transfer r1 r2 = .next t := by
  cases r1 <;> cases r2
  case r8.r8 => exact ⟨_, rfl⟩
  case r16.r16 => exact ⟨_, rfl⟩
  all_goals cases h

theorem State.exchange_of_sameWidth (s : State) {r1 r2 : Reg} (h : r1.sameWidth r2 = true) :
    ∃ t, s.exchange r1 r2 = .next t := by
  cases r1 <;> cases r2
  case r8.r8 => exact ⟨_, rfl⟩
  case r16.r16 => exact ⟨_, rfl⟩
  all_goals cases h

theorem exec_completes (i : Instr) (s : State) (h : i.wellFormed = true) : Completes i s fun _ => True := by
  cases i with
  | exg r1 r2 =>
    obtain ⟨t, ht⟩ := s.exchange_of_sameWidth h
    exact ⟨t, ht, trivial⟩
  | tfr r1 r2 =>
    obtain ⟨t, ht⟩ := s.transfer_of_sameWidth h
    exact ⟨t, ht, trivial⟩
  | _ => exact ⟨_, rfl, trivial⟩

/-! A read-modify-write, with a grant before its write or before its read. -/

/-- The other master's write between the read and the write is lost. -/
theorem memoryModifier_loses_write_between {p : (Mem → Instr) × (Byte → Bool → Byte)} (hp : p ∈ memoryModifiers)
    (s : State) (o : Mem) {ws : List (Word × Byte)} (hram : s.kindAt (s.resolve o).1 = .ram)
    (h : (s.resolve o).2.grants = [none, some ws]) :
    Completes (p.1 o) s fun t =>
      t.readByte (s.resolve o).1 = p.2 ((s.resolve o).2.readByte (s.resolve o).1) (s.flag .C) := by
  obtain ⟨f, hexec, hf⟩ := exec_memoryModifier hp
  refine ⟨s.rmwMem f o, hexec o s, ?_⟩
  dsimp only
  rw [s.readByte_rmwMem f o hram, State.readByte_grant_of_none h, hf]
  rfl

/-- The other master's write before the read is what the instruction works on. -/
theorem memoryModifier_reads_write_before {p : (Mem → Instr) × (Byte → Bool → Byte)} (hp : p ∈ memoryModifiers)
    (s : State) (o : Mem) {x : Byte} (hram : s.kindAt (s.resolve o).1 = .ram)
    (h : (s.resolve o).2.grants = [some [((s.resolve o).1, x)]]) :
    Completes (p.1 o) s fun t => t.readByte (s.resolve o).1 = p.2 x (s.flag .C) := by
  obtain ⟨f, hexec, hf⟩ := exec_memoryModifier hp
  refine ⟨s.rmwMem f o, hexec o s, ?_⟩
  dsimp only
  rw [s.readByte_rmwMem f o hram, State.readByte_grant_of_write h (by simpa using hram), hf]
  rfl

/-! Words, with a grant between their two bytes. -/

/-- Both bytes are written between the two reads: the high one is read from before, the low one from after. -/
theorem exec_ldd_torn {s : State} {a : Word} {x y : Byte} (ha : s.kindAt a = .ram) (ha' : s.kindAt (a + 1) = .ram)
    (h : s.grants = [none, some [(a, x), (a + 1, y)]]) :
    Completes (.ldd (.mem (.ext a))) s fun t => t.A = s.readByte a ∧ t.B = y ∧ t.readByte a = x ∧
      t.shown = s.shown ++ [(true, true)] := by
  have h₁ : (s.setTemp a).grants = [none, some [(a, x), (a + 1, y)]] := h
  have h₂ : (s.setTemp a).grant.grants = [some [(a, x), (a + 1, y)]] := by rw [State.grant_grants, h₁]; rfl
  have hhigh : (s.setTemp a).grant.readByte a = s.readByte a := State.readByte_grant_of_none h₁ a
  have hread : ∀ b, (s.setTemp a).grant.grant.readByte b =
      if a + 1 = b then y else if a = b then x else s.readByte b := by
    intro b
    rw [State.readByte_grant_of_some h₂]
    simp only [State.otherWrites, List.foldl_cons, List.foldl_nil, State.readByte_writeByte, State.kindAt_writeByte,
      State.kindAt_grant, State.kindAt_setTemp, ha, ha', and_true, State.readByte_grant_of_none h₁,
      State.readByte_setTemp]
  have hshown : (s.setTemp a).grant.grant.shown = s.shown ++ [busGrantCode] := by
    rw [State.shown_grant_of_some h₂, State.shown_grant_of_none h₁]; rfl
  have hlow : (s.setTemp a).grant.grant.readByte (a + 1) = y := by rw [hread, if_pos rfl]
  refine ⟨s.load16 .d (.mem (.ext a)), rfl, (hiByte_joinBytes _ _).trans hhigh, (loByte_joinBytes _ _).trans hlow, ?_,
    hshown⟩
  calc (s.load16 .d (.mem (.ext a))).readByte a = (s.setTemp a).grant.grant.readByte a := rfl
    _ = x := by rw [hread, if_neg (add_one_ne_self a), if_pos rfl]

/-- The first byte stored is written over before the second is stored. -/
theorem exec_std_overwritten {s : State} {a : Word} {x : Byte} (ha : s.kindAt a = .ram)
    (h : s.grants = [none, some [(a, x)]]) : Completes (.std (.ext a)) s fun t => t.readByte a = x := by
  refine ⟨s.store16 .d (.ext a), rfl, ?_⟩
  calc (s.store16 .d (.ext a)).readByte a = ((s.setTemp a).busWriteWord a s.D).readByte a := rfl
    _ = ((s.setTemp a).busWrite a (hiByte s.D)).grant.readByte a := State.readByte_busWriteWord_first _ a _
    _ = x := State.readByte_grant_of_write (gs := []) (by simp [h]) (by simpa using ha)

/-! A stack frame. Once the grants are used up, the pushes that follow leave the bytes already stacked. -/

/-- No grant is to come, the byte at `a`, which is `n` above S, is `x`, and these are the codes shown. -/
structure State.Stacked (s : State) (n : Nat) (a : Word) (x : Byte) (codes : List (Bool × Bool)) : Prop where
  quiet : s.grants = []
  depth : (a - s.S).toNat = n
  holds : s.readByte a = x
  codes : s.shown = codes

theorem State.Stacked.push8 {s : State} {n : Nat} {a : Word} {x : Byte} {cs : List (Bool × Bool)}
    (h : s.Stacked n a x cs) (hn : n + 1 < 65536) (v : Byte) : (s.push8 .s v).Stacked (n + 1) a x cs := by
  obtain ⟨hquiet, hdepth, hholds, hcodes⟩ := h
  have hbelow : s.S - 1 ≠ a := by bv_omega
  refine ⟨by simp [hquiet], ?_, ?_, ?_⟩
  · rw [State.push8_s_S]; bv_omega
  · rw [State.readByte_push8, State.grant_of_nil hquiet, if_neg (fun hb => hbelow hb.1), hholds]
  · rw [State.push8, State.busWrite_of_nil (by exact hquiet)]
    simpa [State.setSp] using hcodes

theorem State.Stacked.push16 {s : State} {n : Nat} {a : Word} {x : Byte} {cs : List (Bool × Bool)}
    (h : s.Stacked n a x cs) (hn : n + 2 < 65536) (v : Word) : (s.push16 .s v).Stacked (n + 2) a x cs :=
  (h.push8 (by omega) _).push8 hn _

/-- The first byte of a word pushed is written over before the second is pushed. -/
theorem State.stacked_push16_overwritten {s : State} {a : Word} {x : Byte} (ha : s.kindAt a = .ram) (hS : s.S = a + 1)
    (h : s.grants = [none, some [(a, x)]]) (v : Word) :
    (s.push16 .s v).Stacked 1 a x (s.shown ++ [busGrantCode]) := by
  have hlow : (s.push8 .s (loByte v)).grants = [some [(a, x)]] := by simp [h]
  refine ⟨by simp [State.push16, h], ?_, ?_, ?_⟩
  · rw [State.push16_s_S, hS]; bv_omega
  · have hbelow : (s.push8 .s (loByte v)).sp .s - 1 ≠ a := by rw [State.push8_sp, State.sp, hS]; bv_omega
    rw [State.push16, State.readByte_push8, if_neg (fun hb => hbelow hb.1),
      State.readByte_grant_of_write hlow (by simpa using ha)]
  · have hfirst : (s.push8 .s (loByte v)).shown = s.shown := by
      rw [State.push8, State.busWrite_shown, State.shown_grant_of_none (by exact h)]; rfl
    rw [State.push16, State.push8, State.busWrite_shown, State.shown_grant_of_some (by exact hlow), ← hfirst]
    rfl

theorem State.stacked_stackEntire_overwritten {s : State} {a : Word} {x : Byte} (ha : s.kindAt a = .ram)
    (hS : s.S = a + 1) (h : s.grants = [none, some [(a, x)]]) :
    s.stackEntire.Stacked 11 a x (s.shown ++ [busGrantCode]) :=
  (((((((State.stacked_push16_overwritten ha hS h s.PC).push16 (by decide) s.U).push16 (by decide) s.Y).push16
    (by decide) s.X).push8 (by decide) s.DP).push8 (by decide) s.B).push8 (by decide) s.A).push8 (by decide) s.CC

/-- The masks and the vector fetch that end an entry leave the bytes stacked, and add the acknowledge code twice. -/
theorem State.Stacked.fetchVector {s : State} {n : Nat} {a : Word} {x : Byte} {cs : List (Bool × Bool)}
    (h : s.Stacked n a x cs) (k : IntKind) :
    (((s.maskFor k).setRun .running).vectorFetch k.vector).readByte a = x ∧
      (((s.maskFor k).setRun .running).vectorFetch k.vector).shown = cs ++ [acknowledgeCode, acknowledgeCode] := by
  have hquiet : ((s.maskFor k).setRun .running).grants = [] := by cases k <;> exact h.quiet
  rw [State.vectorFetch_of_nil hquiet, ← h.holds, ← h.codes]
  cases k <;> exact ⟨rfl, rfl⟩

/-- The byte that SWI stacks first is written over before it stacks the next, and is not stored again. -/
theorem exec_swi_overwritten {s : State} {a : Word} {x : Byte} (ha : s.kindAt a = .ram) (hrun : s.run = .running)
    (hS : s.S = a + 1) (h : s.grants = [none, some [(a, x)]]) :
    Completes .swi s fun t =>
      t.readByte a = x ∧ t.shown = s.shown ++ [(true, true), (false, true), (false, true)] := by
  have hstacked : (s.setFlag .E true).stackEntire.Stacked 11 a x (s.shown ++ [busGrantCode]) :=
    State.stacked_stackEntire_overwritten (s := s.setFlag .E true) ha hS h
  have hentry : s.interrupt .swi =
      (((s.setFlag .E true).stackEntire.maskFor .swi).setRun .running).vectorFetch IntKind.swi.vector := by
    have hwait : s.run ≠ .wait := by rw [hrun]; decide
    rw [State.interrupt, if_neg hwait]; rfl
  obtain ⟨hbyte, hshown⟩ := hstacked.fetchVector .swi
  refine ⟨s.interrupt .swi, rfl, ?_⟩
  rw [hentry]
  exact ⟨hbyte, hshown.trans (List.append_assoc _ _ _)⟩

/-- Settles O56, clause by clause: what a grant does, where the grants come from, what each access does around it, that
every instruction completes, and the torn accesses. -/
theorem busGrantsInsideInstructions : Obligations.BusGrantsInsideInstructions := by
  refine ⟨fun s => ⟨State.grant_of_nil, fun _ => State.grant_of_none, fun _ _ => State.grant_of_some⟩,
    fun _ => ⟨rfl, rfl⟩, fun _ _ _ _ => ⟨rfl, rfl, rfl, rfl⟩, exec_completes, ?modify, ?torn⟩
  case modify =>
    intro p hp s o x ea s₁ hram
    exact ⟨memoryModifier_loses_write_between hp s o hram, memoryModifier_reads_write_before hp s o hram⟩
  case torn =>
    intro s a x y hram
    exact ⟨exec_ldd_torn hram, exec_std_overwritten hram, exec_swi_overwritten hram⟩

end Sys2Proof.Machine
end

