-- ==== Sys2Proof/Proofs/UndefinedFetch.lean ====
section
/-! The step that fetches bytes which are no instruction (30_encoding.md R118, R119; 40_addressing_modes.md R157). -/

namespace Sys2Proof.Machine

/-- With the MPU running, no stop on the pins and no interrupt, a step is the instruction at PC. -/
theorem step_of_runsNext {s : State} (h : s.RunsNext) : step s = s.sample.runInstruction := by
  obtain ⟨hrun, hres, hdma, hhalt, hint⟩ := h
  have hrun : s.sample.run = .running := hrun
  simp [step, hrun, State.runningStep, hres, hdma, hhalt, State.boundary, hint]

/-- A step that fetches what is no instruction is the fault of those bytes. -/
theorem step_of_fetch_error {s : State} {e : Undefined} (h : s.RunsNext) (he : s.sample.fetch = .error e) :
    step s = .fault (s.sample.undefinedFault e) := by
  rw [step_of_runsNext h, State.runInstruction, he]

theorem isPrefix_iff (b : Byte) : isPrefix b = true ↔ b = 0x10 ∨ b = 0x11 := by
  simp [isPrefix]

/-- An unused opcode is one byte, or two with its prefix. -/
theorem undefinedFault_opcode (s : State) :
    s.undefinedFault .opcode =
      .undefinedOpcode (s.fetched (if s.fetchByte 0 = 0x10 ∨ s.fetchByte 0 = 0x11 then 2 else 1)) := by
  simp only [State.undefinedFault, undefinedLength, isPrefix_iff]

/-- An undefined postbyte is the second byte after an opcode without prefix. -/
theorem undefinedFault_postbyte_of_not_prefix {s : State} (h : isPrefix (s.fetchByte 0) = false) :
    s.undefinedFault .postbyte = .undefinedPostbyte (s.fetched 2) := by
  simp [State.undefinedFault, undefinedLength, h]

/-- An undefined postbyte is the third byte after a prefix. -/
theorem undefinedFault_postbyte_of_prefix {s : State} (h : isPrefix (s.fetchByte 0) = true) :
    s.undefinedFault .postbyte = .undefinedPostbyte (s.fetched 3) := by
  simp [State.undefinedFault, undefinedLength, h]

end Sys2Proof.Machine
end

