-- ==== Sys2Proof/Proofs/UnusedOpcodes.lean ====
section
/-! Which opcodes the decoder refuses, part by part of its tables (30_encoding.md R95, R110 to R112, R118). -/

namespace Sys2Proof

open Sys2Proof.Machine

/-! The parts that answer an unused opcode, and those that never do. -/

theorem decodeMem_eq_unused_iff (f : Mem → Instr) (m : OperandFormat) (o : Nat) (p0 p1 p2 : Byte) :
    decodeMem f m o p0 p1 p2 = .error .opcode ↔ m = .imm := by
  cases m with
  | idx => cases h : decodeIndexed p0 p1 p2 <;> simp [decodeMem, h]
  | _ => simp [decodeMem]

/-- A column is unused only as the immediate form of a store or jump. -/
theorem decodeColumn_eq_unused_iff (c : Column) (m : OperandFormat) (o : Nat) (p0 p1 p2 : Byte) :
    decodeColumn c m o p0 p1 p2 = .error .opcode ↔ m = .imm ∧ ∃ f, c = .mem f := by
  cases c <;> cases m <;> simp [decodeColumn, decodeMem_eq_unused_iff]

theorem decodeColumn?_eq_unused_iff (c : Option Column) (m : OperandFormat) (o : Nat) (p0 p1 p2 : Byte) :
    decodeColumn? c m o p0 p1 p2 = .error .opcode ↔ ∀ d, c = some d → m = .imm ∧ ∃ f, d = .mem f := by
  cases c <;> simp [decodeColumn?, decodeColumn_eq_unused_iff]

theorem decodeRmw_eq_unused_iff (lo : Nat) (m : OperandFormat) (p0 p1 p2 : Byte) :
    decodeRmw lo m p0 p1 p2 = .error .opcode ↔ ∀ f, rmwOp lo = some f → m = .imm := by
  cases h : rmwOp lo <;> simp [decodeRmw, h, decodeMem_eq_unused_iff]

theorem decodeLea_ne_unused (f : Indexed → Instr) (p0 p1 p2 : Byte) : decodeLea f p0 p1 p2 ≠ .error .opcode := by
  cases h : decodeIndexed p0 p1 p2 <;> simp [decodeLea, h]

theorem decodeRegPair_ne_unused (f : Reg → Reg → Instr) (pb : Byte) : decodeRegPair f pb ≠ .error .opcode := by
  unfold decodeRegPair
  split
  · split <;> simp
  · simp

/-! Whether an opcode is unused does not depend on the bytes after it, so that they may be taken as 0. -/

theorem decodeGroup1_unused_iff_zero (lo : Nat) (p0 p1 : Byte) :
    decodeGroup1 lo p0 p1 = .error .opcode ↔ decodeGroup1 lo 0 0 = .error .opcode := by
  unfold decodeGroup1
  split <;> simp [decodeRegPair_ne_unused]

theorem decodeGroup3_unused_iff_zero (lo : Nat) (p0 p1 p2 : Byte) :
    decodeGroup3 lo p0 p1 p2 = .error .opcode ↔ decodeGroup3 lo 0 0 0 = .error .opcode := by
  unfold decodeGroup3
  split <;> simp [decodeLea_ne_unused]

theorem decodePage1_unused_iff_zero (b0 p0 p1 p2 : Byte) :
    decodePage1 b0 p0 p1 p2 = .error .opcode ↔ decodePage1 b0 0 0 0 = .error .opcode := by
  unfold decodePage1
  dsimp only
  split
  case h_2 => exact decodeGroup1_unused_iff_zero _ p0 p1
  case h_3 => cases shortBranch (loNibble b0) <;> simp
  case h_4 => exact decodeGroup3_unused_iff_zero _ p0 p1 p2
  case h_9 => split <;> simp [decodeColumn?_eq_unused_iff]
  all_goals simp only [decodeRmw_eq_unused_iff, decodeColumn?_eq_unused_iff]

theorem decodePage2_unused_iff_zero (b1 p0 p1 p2 : Byte) :
    decodePage2 b1 p0 p1 p2 = .error .opcode ↔ decodePage2 b1 0 0 0 = .error .opcode := by
  unfold decodePage2
  dsimp only
  split
  case h_1 => cases longBranch (loNibble b1) <;> simp
  all_goals simp only [decodeColumn?_eq_unused_iff]

theorem decodePage3_unused_iff_zero (b1 p0 p1 p2 : Byte) :
    decodePage3 b1 p0 p1 p2 = .error .opcode ↔ decodePage3 b1 0 0 0 = .error .opcode := by
  unfold decodePage3
  dsimp only
  split <;> simp only [decodeColumn?_eq_unused_iff]

/-! The tables, with those bytes 0. -/

theorem decodePage1_zero_unused_iff : ∀ b : Byte, b ≠ 0x10 → b ≠ 0x11 →
    (decodePage1 b 0 0 0 = .error .opcode ↔ unusedOpcodes.contains b = true) := by decide

theorem decodePage2_zero_unused_iff : ∀ b : Byte,
    decodePage2 b 0 0 0 = .error .opcode ↔ page2Opcodes.contains b = false := by decide

theorem decodePage3_zero_unused_iff : ∀ b : Byte,
    decodePage3 b 0 0 0 = .error .opcode ↔ page3Opcodes.contains b = false := by decide

/-- The decoder refuses the opcode exactly of the unused ones, whatever bytes follow. -/
theorem decode_eq_unused_iff (b0 b1 b2 b3 b4 : Byte) :
    decode b0 b1 b2 b3 b4 = .error .opcode ↔ isUnused b0 b1 = true := by
  unfold decode isUnused
  split
  · rw [decodePage2_unused_iff_zero, decodePage2_zero_unused_iff, Bool.not_eq_true']
  · next h10 =>
    split
    · rw [decodePage3_unused_iff_zero, decodePage3_zero_unused_iff, Bool.not_eq_true']
    · next h11 => rw [decodePage1_unused_iff_zero, decodePage1_zero_unused_iff b0 h10 h11]

/-- Settles O4: the counts, the decoder's refusals, and the fault of a step that fetches one of them. -/
theorem unusedOpcodesFault : Obligations.UnusedOpcodesFault := by
  refine ⟨rfl, rfl, rfl, decode_eq_unused_iff, ?_⟩
  intro s hs hunused
  have hfetch : s.sample.fetch = .error .opcode := (decode_eq_unused_iff _ _ _ _ _).mpr hunused
  rw [step_of_fetch_error hs hfetch, undefinedFault_opcode]
  rfl

end Sys2Proof
end

