-- ==== Sys2Proof/Proofs/UndefinedPostbytes.lean ====
section
/-! Which indexed postbytes are defined, how many bytes they take, and what an undefined one is after every opcode of
format IDX (30_encoding.md R95, R103). -/

namespace Sys2Proof

open Sys2Proof.Machine

/-- The bytes an indexed operand takes, none if undefined, do not depend on the bytes after the postbyte, so that those may
be taken as 0. -/
theorem decodeIndexed_length_zero (pb p1 p2 : Byte) :
    (decodeIndexed pb p1 p2).map Prod.snd = (decodeIndexed pb 0 0).map Prod.snd := by
  unfold decodeIndexed
  dsimp only
  split
  · rfl
  · split
    case h_1 => split <;> rfl
    case h_3 => split <;> rfl
    case h_13 => split <;> rfl
    all_goals rfl

/-- The bytes a postbyte takes, itself counted, by its mode field (30_encoding.md R103). -/
def postbyteLength (pb : Byte) : Nat :=
  if pb.getLsbD 7 && [0x8, 0xC].contains (pb.toNat % 16) then 2
  else if pb.getLsbD 7 && ([0x9, 0xD].contains (pb.toNat % 16) || pb == 0x9F) then 3 else 1

theorem decodeIndexed_zero_length : ∀ pb : Byte, (decodeIndexed pb 0 0).map Prod.snd =
    if isUndefinedPostbyte pb then none else some (postbyteLength pb) := by decide

theorem decodeIndexed_length (pb p1 p2 : Byte) : (decodeIndexed pb p1 p2).map Prod.snd =
    if isUndefinedPostbyte pb then none else some (postbyteLength pb) :=
  (decodeIndexed_length_zero pb p1 p2).trans (decodeIndexed_zero_length pb)

theorem decodeIndexed_eq_none_iff (pb p1 p2 : Byte) :
    decodeIndexed pb p1 p2 = none ↔ isUndefinedPostbyte pb = true := by
  rw [← Option.map_eq_none_iff (f := Prod.snd), decodeIndexed_length]
  simp

theorem length_of_decodeIndexed {pb p1 p2 : Byte} {x : Indexed} {n : Nat} (h : decodeIndexed pb p1 p2 = some (x, n)) :
    n = postbyteLength pb := by
  have hlen := decodeIndexed_length pb p1 p2
  rw [h] at hlen
  split at hlen
  · cases hlen
  · exact Option.some.inj hlen

/-! The parts of the decoder that read a postbyte. -/

section
variable {p0 p1 p2 : Byte} (hp : decodeIndexed p0 p1 p2 = none)
include hp

theorem decodeLea_of_undefined (f : Indexed → Instr) : decodeLea f p0 p1 p2 = .error .postbyte := by
  rw [decodeLea, hp]

theorem decodeMem_of_undefined (f : Mem → Instr) (o : Nat) : decodeMem f .idx o p0 p1 p2 = .error .postbyte := by
  simp only [decodeMem, hp]

theorem decodeRmw_of_undefined {lo : Nat} (hlo : (rmwOp lo).isSome = true) :
    decodeRmw lo .idx p0 p1 p2 = .error .postbyte := by
  obtain ⟨f, hf⟩ := Option.isSome_iff_exists.mp hlo
  simp only [decodeRmw, hf, decodeMem_of_undefined hp]

theorem decodeColumn?_of_undefined {c : Option Column} (hc : c.isSome = true) (o : Nat) :
    decodeColumn? c .idx o p0 p1 p2 = .error .postbyte := by
  obtain ⟨d, rfl⟩ := Option.isSome_iff_exists.mp hc
  cases d with
  | src8 f => exact decodeMem_of_undefined hp (fun a => f (.mem a)) o
  | src16 f => exact decodeMem_of_undefined hp (fun a => f (.mem a)) o
  | mem f => exact decodeMem_of_undefined hp f o

end

/-! Where the opcodes of format IDX stand in the opcode map (30_encoding.md R95, R110 to R112). -/

theorem isIdxOpcode_groups : ∀ b : Byte, isIdxOpcode b = true → isPrefix b = false ∧
    ((hiNibble b = 0x3 ∧ loNibble b < 4) ∨ (hiNibble b = 0x6 ∧ (rmwOp (loNibble b)).isSome = true) ∨
      (hiNibble b = 0xA ∧ (columnA (loNibble b)).isSome = true) ∨
      (hiNibble b = 0xE ∧ (columnB (loNibble b)).isSome = true)) := by decide

theorem isIdxSecond_groups2 : ∀ b : Byte, isIdxSecond 0x10 b = true →
    (hiNibble b = 0xA ∧ (column2A (loNibble b)).isSome = true) ∨
      (hiNibble b = 0xE ∧ (column2B (loNibble b)).isSome = true) := by decide

theorem isIdxSecond_groups3 : ∀ b : Byte, isIdxSecond 0x11 b = true →
    hiNibble b = 0xA ∧ (column3A (loNibble b)).isSome = true := by decide

theorem isPrefix_of_isIdxSecond {b0 b1 : Byte} (h : isIdxSecond b0 b1 = true) : b0 = 0x10 ∨ b0 = 0x11 := by
  simp only [isIdxSecond, Bool.or_eq_true, Bool.and_eq_true, beq_iff_eq] at h
  exact h.imp And.left And.left

theorem decode_of_idxOpcode {b0 pb : Byte} (p1 p2 p3 : Byte) (hb : isIdxOpcode b0 = true)
    (hpb : isUndefinedPostbyte pb = true) : decode b0 pb p1 p2 p3 = .error .postbyte := by
  have hp := (decodeIndexed_eq_none_iff pb p1 p2).mpr hpb
  obtain ⟨hprefix, hgroup⟩ := isIdxOpcode_groups b0 hb
  obtain ⟨h10, h11⟩ : b0 ≠ 0x10 ∧ b0 ≠ 0x11 := by
    rw [ne_eq, ne_eq, ← not_or, ← isPrefix_iff, hprefix]
    decide
  have hpage : decode b0 pb p1 p2 p3 = decodePage1 b0 pb p1 p2 := by
    rw [decode, if_neg h10, if_neg h11]
  rw [hpage, decodePage1]
  rcases hgroup with ⟨hhi, hlo⟩ | ⟨hhi, hlo⟩ | ⟨hhi, hlo⟩ | ⟨hhi, hlo⟩ <;> simp only [hhi]
  · interval_cases loNibble b0 <;> exact decodeLea_of_undefined hp _
  · exact decodeRmw_of_undefined hp hlo
  · exact decodeColumn?_of_undefined hp hlo 1
  · exact decodeColumn?_of_undefined hp hlo 1

theorem decode_of_idxSecond {b0 b1 pb : Byte} (p1 p2 : Byte) (hb : isIdxSecond b0 b1 = true)
    (hpb : isUndefinedPostbyte pb = true) : decode b0 b1 pb p1 p2 = .error .postbyte := by
  have hp := (decodeIndexed_eq_none_iff pb p1 p2).mpr hpb
  rcases isPrefix_of_isIdxSecond hb with rfl | rfl
  · change decodePage2 b1 pb p1 p2 = _
    rcases isIdxSecond_groups2 b1 hb with ⟨hhi, hlo⟩ | ⟨hhi, hlo⟩ <;> simp only [decodePage2, hhi] <;>
      exact decodeColumn?_of_undefined hp hlo 2
  · obtain ⟨hhi, hlo⟩ := isIdxSecond_groups3 b1 hb
    change decodePage3 b1 pb p1 p2 = _
    simp only [decodePage3, hhi]
    exact decodeColumn?_of_undefined hp hlo 2

/-- Settles O5: the count, the refusals and lengths of the indexed decoder, the refusals of the decoder after every opcode of
format IDX, and the fault of a step that fetches one. -/
theorem undefinedPostbytesFault : Obligations.UndefinedPostbytesFault := by
  refine ⟨by decide, decodeIndexed_eq_none_iff, fun _ _ _ _ _ => length_of_decodeIndexed,
    fun _ _ _ _ _ => decode_of_idxOpcode _ _ _, fun _ _ _ _ _ => decode_of_idxSecond _ _, ?_⟩
  intro s hs
  constructor
  · intro hb hpb
    have hfetch : s.sample.fetch = .error .postbyte := decode_of_idxOpcode _ _ _ hb hpb
    rw [step_of_fetch_error hs hfetch, undefinedFault_postbyte_of_not_prefix (isIdxOpcode_groups _ hb).1]
    rfl
  · intro hb hpb
    have hfetch : s.sample.fetch = .error .postbyte := decode_of_idxSecond _ _ hb hpb
    have hprefix := (isPrefix_iff _).mpr (isPrefix_of_isIdxSecond hb)
    rw [step_of_fetch_error hs hfetch, undefinedFault_postbyte_of_prefix hprefix]
    rfl

end Sys2Proof
end

