-- ==== Sys2Proof/Proofs/RegisterPairs.lean ====
section
/-! The postbyte of TFR and EXG: two register codes of one width (30_encoding.md R104, R105). -/

namespace Sys2Proof

open Sys2Proof.Machine

/-! The nibbles of a byte. -/

theorem hiNibble_eq (b : Byte) : hiNibble b = b.toNat / 16 := by
  have hb : b.toNat < 256 := b.isLt
  simp only [hiNibble, BitVec.extractLsb'_toNat, Nat.shiftRight_eq_div_pow]
  omega

theorem loNibble_eq (b : Byte) : loNibble b = b.toNat % 16 := by
  simp [loNibble, BitVec.extractLsb'_toNat]

/-- Two codes in a postbyte, the first in the high nibble. -/
theorem shiftLeft_four_or (x y : Byte) (hy : y.toNat < 16) : x <<< 4 ||| y = BitVec.ofNat 8 (16 * x.toNat + y.toNat) := by
  have hx : x.toNat < 256 := x.isLt
  have hshift : (x <<< 4).toNat = 2 ^ 4 * (x.toNat % 16) := by
    rw [BitVec.toNat_shiftLeft, Nat.shiftLeft_eq]; omega
  apply BitVec.eq_of_toNat_eq
  rw [BitVec.toNat_or, hshift, ← Nat.two_pow_add_eq_or_of_lt hy, BitVec.toNat_ofNat]
  omega

theorem encodeReg_lt (r : Reg) : (encodeReg r).toNat < 16 := by
  rcases r with r | r <;> cases r <;> decide

theorem encodeRegPair_eq (p q : Reg) :
    encodeRegPair p q = BitVec.ofNat 8 (16 * (encodeReg p).toNat + (encodeReg q).toNat) :=
  shiftLeft_four_or _ _ (encodeReg_lt q)

theorem decodeReg_eq_none_iff : ∀ n < 16, decodeReg n = none ↔ n ∈ [0x6, 0x7, 0xC, 0xD, 0xE, 0xF] := by decide

/-- Settles O6: the decoder by the registers that the two nibbles name, the codes that name none, and the two faults. -/
theorem invalidRegisterPairsFault : Obligations.InvalidRegisterPairsFault := by
  refine ⟨?decoded, decodeReg_eq_none_iff, fun s p q => ⟨rfl, rfl, rfl, rfl, ?fetched⟩⟩
  case decoded =>
    intro pb p1 p2 p3
    change decodeRegPair .exg pb = _ ∧ decodeRegPair .tfr pb = _
    simp only [decodeRegPair, hiNibble_eq, loNibble_eq]
    rcases decodeReg (pb.toNat / 16) with _ | p | p
    · exact ⟨rfl, rfl⟩
    all_goals rcases decodeReg (pb.toNat % 16) with _ | q | q <;> exact ⟨rfl, rfl⟩
  case fetched =>
    intro hs hb hfetch
    have hprefix : isPrefix (s.sample.fetchByte 0) = false := by rcases hb with hb | hb <;> rw [hb] <;> rfl
    rw [step_of_fetch_error hs hfetch, undefinedFault_postbyte_of_not_prefix hprefix]
    rfl

end Sys2Proof
end

