-- ==== Sys2Proof/Proofs/Transfer.lean ====
section
/-! What a register reads after a register is loaded, the fields a load leaves alone, and TFR as such a load
(43_index_stack.md R295, R297). -/

namespace Sys2Proof.Machine

theorem State.reg8_setReg8 (s : State) (q r : Reg8) (v : Byte) :
    (s.setReg8 q v).reg8 r = if r = q then v else s.reg8 r := by
  cases q <;> cases r <;> rfl

theorem State.setReg8_frame (s : State) (q : Reg8) (v : Byte) :
    s.setReg8 q v =
      { s with
        A := (s.setReg8 q v).A, B := (s.setReg8 q v).B, CC := (s.setReg8 q v).CC, DP := (s.setReg8 q v).DP } := by
  cases q <;> rfl

/-- D, being A and B, is kept by a load of any other word register. -/
theorem State.reg16_loadReg16 (s : State) (q r : Reg16) (v : Word) :
    (s.loadReg16 q v).reg16 r = if r = q then v else s.reg16 r := by
  cases q with
  | d =>
    cases r with
    | d => exact s.setD_D v
    | _ => rfl
  | _ => cases r <;> rfl

theorem State.loadReg16_frame (s : State) (q : Reg16) (v : Word) :
    s.loadReg16 q v =
      { s with
        A := (s.loadReg16 q v).A, B := (s.loadReg16 q v).B, X := (s.loadReg16 q v).X, Y := (s.loadReg16 q v).Y,
        U := (s.loadReg16 q v).U, S := (s.loadReg16 q v).S, PC := (s.loadReg16 q v).PC,
        nmiArmed := s.nmiArmed || q == .s } := by
  cases q with
  | s => simp [State.loadReg16, State.arm, State.setS]
  | _ => simp [State.loadReg16, State.setD, State.setX, State.setY, State.setU, State.setPC]

/-- A load of a register is no write of memory. -/
theorem State.readByte_setReg8 (s : State) (q : Reg8) (v : Byte) (a : Word) :
    (s.setReg8 q v).readByte a = s.readByte a := by
  cases q <;> rfl

theorem State.readByte_loadReg16 (s : State) (q : Reg16) (v a : Word) :
    (s.loadReg16 q v).readByte a = s.readByte a := by
  cases q <;> rfl

/-- Settles O46: the encoding, the codes, and a transfer as the load of the destination with the source's value. -/
theorem transferInstruction : Obligations.TransferInstruction := by
  refine ⟨fun p q => by rw [encode, encodeRegPair_eq], rfl, fun s p q => ⟨rfl, ?byte⟩, fun s p q => ⟨rfl, ?word⟩⟩
  case byte =>
    refine ⟨s.setReg8 q (s.reg8 p), rfl, ?_, fun r hr => ?_, s.readByte_setReg8 q _, s.setReg8_frame q _⟩
    · rw [State.reg8_setReg8, if_pos rfl]
    · rw [State.reg8_setReg8, if_neg hr]
  case word =>
    refine ⟨s.loadReg16 q (s.reg16 p), rfl, ?_, fun r hr => ?_, s.readByte_loadReg16 q _, s.loadReg16_frame q _⟩
    · rw [State.reg16_loadReg16, if_pos rfl]
    · rw [State.reg16_loadReg16, if_neg hr]

end Sys2Proof.Machine
end

