-- ==== Sys2Proof/Proofs/Push.lean ====
section
/-! PSHS and PSHU: the list's bits and length, and the bytes pushed one after another
(30_encoding.md R106; 43_index_stack.md R286 to R288). -/

namespace Sys2Proof.Machine

/-! The list as a postbyte and as a number of bytes. -/

theorem getLsbD_ite_zero (c : Bool) (m : Byte) (i : Nat) : (if c then m else 0).getLsbD i = (c && m.getLsbD i) := by
  cases c <;> simp

/-- Each bit of the postbyte is one entry of the list (30_encoding.md R106). -/
theorem encodeRegList_bits (l : RegList) :
    (encodeRegList l).getLsbD 7 = l.pc ∧ (encodeRegList l).getLsbD 6 = l.us ∧ (encodeRegList l).getLsbD 5 = l.y ∧
      (encodeRegList l).getLsbD 4 = l.x ∧ (encodeRegList l).getLsbD 3 = l.dp ∧ (encodeRegList l).getLsbD 2 = l.b ∧
      (encodeRegList l).getLsbD 1 = l.a ∧ (encodeRegList l).getLsbD 0 = l.cc := by
  simp only [encodeRegList, BitVec.getLsbD_or, getLsbD_ite_zero]
  simp

theorem length_ite_nil {α : Type} (c : Bool) (bs : List α) : (if c then bs else []).length = c.toNat * bs.length := by
  cases c <;> simp

theorem length_listImage (s : State) (other : Word) (l : RegList) : (listImage s other l).length = listBytes l := by
  simp only [listImage, listBytes, List.length_append, length_ite_nil, List.length_cons, List.length_nil]
  omega

/-! Pushing. -/

/-- A push with no grant to come stores its byte below the pointer, where there is RAM, and moves the pointer there. -/
theorem State.push8_of_nil {s : State} (h : s.grants = []) (k : Stack) (v : Byte) :
    s.push8 k v = (s.setSp k (s.sp k - 1)).writeByte (s.sp k - 1) v := by
  rw [State.push8, State.busWrite_of_nil (by cases k <;> exact h)]

/-- `t` is `s`, in which no grant is to come, with `bs` pushed: the bytes lie from the new pointer up where there is RAM, and
nothing else has changed. -/
structure State.Pushed (s : State) (k : Stack) (bs : List Byte) (t : State) : Prop where
  quiet : s.grants = []
  frame : t = { s.setSp k (s.sp k - BitVec.ofNat 16 bs.length) with mem := t.mem }
  stored : StoresBytes s t (s.sp k - BitVec.ofNat 16 bs.length) bs

theorem State.pushed_nil {s : State} (h : s.grants = []) (k : Stack) : s.Pushed k [] s where
  quiet := h
  frame := by cases k <;> simp [State.setSp, State.sp, State.setS, State.setU]
  stored := fun b => by simp

/-- A byte stored just below bytes stored from `p` up makes one more of them. -/
theorem storesBytes_cons {s t u : State} {p : Word} {bs : List Byte} {v : Byte} (h : StoresBytes s t p bs)
    (hu : ∀ b, u.readByte b = if p - 1 = b ∧ s.kindAt (p - 1) = .ram then v else t.readByte b) :
    StoresBytes s u (p - 1) (v :: bs) := by
  intro b
  rw [hu b]
  by_cases hb : p - 1 = b
  · rw [h b, hb, BitVec.sub_self]
    by_cases hk : s.kindAt b = .ram <;> simp [hk]
  · have hoff : (b - (p - 1)).toNat = (b - p).toNat + 1 := by bv_omega
    rw [if_neg (fun h => hb h.1), h b, hoff]
    simp

theorem State.Pushed.push8 {s t : State} {k : Stack} {bs : List Byte} (h : s.Pushed k bs t) (v : Byte) :
    s.Pushed k (v :: bs) (t.push8 k v) := by
  obtain ⟨hquiet, hframe, hstored⟩ := h
  have hgrants : t.grants = [] := by rw [hframe, ← hquiet]; cases k <;> rfl
  have hkind : ∀ a, t.kindAt a = s.kindAt a := fun a => by rw [hframe]; cases k <;> rfl
  have hsp : t.sp k = s.sp k - BitVec.ofNat 16 bs.length := by rw [hframe]; cases k <;> rfl
  have hnew : s.sp k - BitVec.ofNat 16 (v :: bs).length = t.sp k - 1 := by
    rw [hsp, BitVec.sub_sub, List.length_cons, BitVec.ofNat_add]; rfl
  refine ⟨hquiet, ?_, ?_⟩
  · rw [hnew, State.push8_of_nil hgrants, State.writeByte_eq, hframe]
    cases k <;> rfl
  · rw [hnew]
    rw [← hsp] at hstored
    refine storesBytes_cons hstored fun b => ?_
    rw [State.readByte_push8, hkind, State.grant_of_nil hgrants]

theorem State.Pushed.push16 {s t : State} {k : Stack} {bs : List Byte} (h : s.Pushed k bs t) (v : Word) :
    s.Pushed k (hiByte v :: loByte v :: bs) (t.push16 k v) :=
  (h.push8 (loByte v)).push8 (hiByte v)

theorem State.Pushed.push8If {s t : State} {k : Stack} {bs : List Byte} (h : s.Pushed k bs t) (c : Bool) (v : Byte) :
    s.Pushed k ((if c then [v] else []) ++ bs) (t.push8If k c v) := by
  cases c
  · exact h
  · exact h.push8 v

theorem State.Pushed.push16If {s t : State} {k : Stack} {bs : List Byte} (h : s.Pushed k bs t) (c : Bool) (v : Word) :
    s.Pushed k ((if c then [hiByte v, loByte v] else []) ++ bs) (t.push16If k c v) := by
  cases c
  · exact h
  · exact h.push16 v

/-- A push of a list, in the order of 43_index_stack.md R286, leaves the list's image. -/
theorem State.pushed_pushList {s : State} (h : s.grants = []) (k : Stack) (l : RegList) :
    s.Pushed k (listImage s (s.reg16 k.other) l) (s.pushList k l) := by
  have hpushed := (((((((State.pushed_nil h k).push16If l.pc s.PC).push16If l.us (s.reg16 k.other)).push16If l.y
    s.Y).push16If l.x s.X).push8If l.dp s.DP).push8If l.b s.B).push8If l.a s.A |>.push8If l.cc s.CC
  simpa only [State.pushList, listImage, List.append_assoc, List.append_nil] using hpushed

/-- Settles O44: the encodings, the bits of the list, its cycles, and the push as the list's image below the pointer. -/
theorem pushInstructions : Obligations.PushInstructions := by
  refine ⟨fun _ => ⟨rfl, rfl, rfl, rfl⟩, encodeRegList_bits, fun s l hbus => ⟨⟨?_, ?pshs⟩, ?_, ?pshu⟩⟩
  · rw [length_listImage]; rfl
  case pshs =>
    obtain ⟨-, hframe, hstored⟩ := State.pushed_pushList hbus .s l
    exact ⟨s.pushList .s l, rfl, hframe, hstored⟩
  · rw [length_listImage]; rfl
  case pshu =>
    obtain ⟨-, hframe, hstored⟩ := State.pushed_pushList hbus .u l
    exact ⟨s.pushList .u l, rfl, hframe, hstored⟩

end Sys2Proof.Machine
end

