-- ==== Sys2Proof/Proofs/IndexedModes.lean ====
section
/-! The indexed modes: the postbyte by its fields, and the effective address with the state it leaves, of the offset modes
and of the auto increment and decrement modes (30_encoding.md R102; 40_addressing_modes.md R139 to R149). -/

namespace Sys2Proof.Machine

/-! Signed and unsigned offsets, modulo 2^16. -/

theorem add_eq_ofNat (p n : Word) : p + n = BitVec.ofNat 16 (p.toNat + n.toNat) := by
  rw [BitVec.ofNat_add, BitVec.ofNat_toNat, BitVec.ofNat_toNat, BitVec.setWidth_eq, BitVec.setWidth_eq]

/-- A sign-extended offset added to a word, whatever the width of the offset. -/
theorem add_signExtend_eq_ofInt {w : Nat} (p : Word) (n : BitVec w) :
    p + n.signExtend 16 = BitVec.ofInt 16 (p.toNat + n.toInt) := by
  rw [BitVec.ofInt_add, BitVec.ofInt_natCast, BitVec.ofNat_toNat, BitVec.setWidth_eq]
  rfl

theorem State.add_D_eq_ofNat (s : State) (p : Word) :
    p + s.D = BitVec.ofNat 16 (p.toNat + 256 * s.A.toNat + s.B.toNat) := by
  rw [add_eq_ofNat, State.toNat_D, Nat.add_assoc]

/-! Postbytes. The fields lie in bits of their own, so that joining them adds them (30_encoding.md R102). -/

/-- The 5-bit offset, which takes the place of the indirect bit and the mode. -/
theorem offsetPostbyte_eq (r : Ptr) : ∀ n : BitVec 5,
    encodePtr r ||| n.zeroExtend 8 = BitVec.ofNat 8 (32 * ptrField r + n.toNat) := by
  cases r <;> decide

/-- A mode that has no indirect bit. -/
theorem pointerPostbyte_eq (r : Ptr) : ∀ mode < 16,
    BitVec.ofNat 8 (0x80 + mode) ||| encodePtr r = BitVec.ofNat 8 (0x80 + mode + 32 * ptrField r) := by
  cases r <;> decide

theorem modePostbyte_eq (r : Ptr) (ind : Bool) : ∀ mode < 16,
    BitVec.ofNat 8 (0x80 + mode) ||| encodePtr r ||| encodeInd ind =
      BitVec.ofNat 8 (0x80 + mode + 32 * ptrField r + 16 * ind.toNat) := by
  cases r <;> cases ind <;> decide

/-- A PC relative mode, with the don't-care bits that the encoder writes as 00 (log 23). -/
theorem pcrPostbyte_eq (ind : Bool) : ∀ mode < 16,
    BitVec.ofNat 8 (0x80 + mode) ||| encodeInd ind = BitVec.ofNat 8 (0x80 + mode + 16 * ind.toNat) := by
  cases ind <;> decide

/-! A pointer register moved. -/

theorem State.ptr_setPtr (s : State) (r q : Ptr) (v : Word) :
    (s.setPtr r v).ptr q = if q = r then v else s.ptr q := by
  cases r <;> cases q <;> rfl

theorem State.setPtr_grants (s : State) (r : Ptr) (v : Word) : (s.setPtr r v).grants = s.grants := by
  cases r <;> rfl

theorem State.readWord_setPtr (s : State) (r : Ptr) (v a : Word) : (s.setPtr r v).readWord a = s.readWord a := by
  cases r <;> rfl

/-! The effective address. -/

section
variable {s : State} {x : Indexed} {p : Byte} {pb cyc : Nat} {extra : List Byte} {ind : Bool} {ea : Word}

/-- An indexed operand whose address ends in `finishEA`, in a state that reads memory and meets the bus as `s` does. -/
theorem indexedIs_of_finishEA {moved : State} (hgrants : moved.grants = s.grants)
    (hread : moved.readWord ea = s.readWord ea) (hpb : p = BitVec.ofNat 8 pb) (hbytes : encodeIndexed x = p :: extra)
    (hcycles : indexedCycles x = cyc) (hea : s.indexedEA x = moved.finishEA ea ind) :
    IndexedIs s x pb extra cyc ind moved ea := by
  subst hpb
  refine ⟨hbytes, hcycles, hea, fun hbus => ?_⟩
  rw [hea, State.finishEA_of_nil (hgrants.trans hbus), hread]
  rfl

/-- A mode that moves no pointer register. -/
theorem indexedIs_unmoved (hpb : p = BitVec.ofNat 8 pb) (hbytes : encodeIndexed x = p :: extra)
    (hcycles : indexedCycles x = cyc) (hea : s.indexedEA x = s.finishEA ea ind) : IndexedIs s x pb extra cyc ind s ea :=
  indexedIs_of_finishEA rfl rfl hpb hbytes hcycles hea

/-- A mode that moves the pointer register `r` to `v`. -/
theorem indexedIs_moved {r : Ptr} {v : Word} (hpb : p = BitVec.ofNat 8 pb) (hbytes : encodeIndexed x = p :: extra)
    (hcycles : indexedCycles x = cyc) (hea : s.indexedEA x = (s.setPtr r v).finishEA ea ind) :
    IndexedIs s x pb extra cyc ind (s.setPtr r v) ea :=
  indexedIs_of_finishEA (s.setPtr_grants r v) (s.readWord_setPtr r v ea) hpb hbytes hcycles hea

end

/-- Settles O22, mode by mode: the postbyte by its fields, and the offset added as a number. -/
theorem indexedOffsetAddresses : Obligations.IndexedOffsetAddresses := by
  intro s r ind
  refine ⟨?zero, ?off5, ?off8, ?off16, ?offA, ?offB, ?offD⟩
  case zero => exact indexedIs_unmoved (modePostbyte_eq r ind 0x4 (by decide)) rfl rfl rfl
  case off5 =>
    intro n
    rw [← add_signExtend_eq_ofInt]
    exact indexedIs_unmoved (offsetPostbyte_eq r n) rfl rfl rfl
  case off8 =>
    intro n
    rw [← add_signExtend_eq_ofInt]
    exact indexedIs_unmoved (modePostbyte_eq r ind 0x8 (by decide)) rfl rfl rfl
  case off16 =>
    intro n
    rw [← add_eq_ofNat]
    exact indexedIs_unmoved (modePostbyte_eq r ind 0x9 (by decide)) rfl rfl rfl
  case offA =>
    rw [← add_signExtend_eq_ofInt]
    exact indexedIs_unmoved (modePostbyte_eq r ind 0x6 (by decide)) rfl rfl rfl
  case offB =>
    rw [← add_signExtend_eq_ofInt]
    exact indexedIs_unmoved (modePostbyte_eq r ind 0x5 (by decide)) rfl rfl rfl
  case offD =>
    rw [← State.add_D_eq_ofNat]
    exact indexedIs_unmoved (modePostbyte_eq r ind 0xB (by decide)) rfl rfl rfl

/-- Settles O23: each mode by its postbyte and the pointer register it moves, and what moving one changes. -/
theorem indexedAutoAddresses : Obligations.IndexedAutoAddresses := by
  intro s r ind
  refine ⟨?inc1, ?inc2, ?dec1, ?dec2, fun v => ⟨?_, fun q hq => ?_, s.setPtr_eq r v⟩⟩
  case inc1 => exact indexedIs_moved (pointerPostbyte_eq r 0x0 (by decide)) rfl rfl rfl
  case inc2 => exact indexedIs_moved (modePostbyte_eq r ind 0x1 (by decide)) rfl rfl rfl
  case dec1 => exact indexedIs_moved (pointerPostbyte_eq r 0x2 (by decide)) rfl rfl rfl
  case dec2 => exact indexedIs_moved (modePostbyte_eq r ind 0x3 (by decide)) rfl rfl rfl
  · rw [State.ptr_setPtr, if_pos rfl]
  · rw [State.ptr_setPtr, if_neg hq]

end Sys2Proof.Machine
end

