-- ==== Sys2Proof/Proofs/OperandForms.lean ====
section
/-! Operands read at their address, the direct, extended, extended indirect and PC relative forms, and the don't-care bits of
a PC relative postbyte (40_addressing_modes.md R132 to R135, R153, R154, R158). -/

namespace Sys2Proof.Machine

/-! Direct addresses, and reads after the address is computed. -/

theorem joinBytes_eq_ofNat (h l : Byte) : joinBytes h l = BitVec.ofNat 16 (256 * h.toNat + l.toNat) := by
  rw [← toNat_joinBytes, BitVec.ofNat_toNat, BitVec.setWidth_eq]

theorem State.resolve_dir (s : State) (d : Byte) :
    s.resolve (.dir d) = (BitVec.ofNat 16 (256 * s.DP.toNat + d.toNat),
      { s with temp := BitVec.ofNat 16 (256 * s.DP.toNat + d.toNat) }) := by
  rw [← joinBytes_eq_ofNat]
  rfl

/-- With no grant to come, computing an address leaves every byte of memory as it reads. -/
theorem State.readByte_resolve_of_nil {s : State} (h : s.grants = []) (o : Mem) (a : Word) :
    (s.resolve o).2.readByte a = s.readByte a :=
  State.readByte_congr (State.resolve_quiet h o).1 (s.resolve_memMap o) (s.resolve_tick o) a

theorem State.operand8_mem_of_nil {s : State} (h : s.grants = []) (o : Mem) :
    s.operand8 (.mem o) = (s.readByte (s.resolve o).1, (s.resolve o).2) := by
  rw [State.operand8, State.busRead_of_nil (State.resolve_quiet h o).2.1, State.readByte_resolve_of_nil h]

theorem State.operand16_mem_of_nil {s : State} (h : s.grants = []) (o : Mem) :
    s.operand16 (.mem o) = (s.readWord (s.resolve o).1, (s.resolve o).2) := by
  rw [State.operand16, State.busReadWord_of_nil (State.resolve_quiet h o).2.1, State.readWord,
    State.readByte_resolve_of_nil h, State.readByte_resolve_of_nil h, State.readWord]

/-! PC relative postbytes: no part of the decoding looks at bits 6 and 5. -/

theorem decodeIndexed_pcr8 {pb : Byte} {ind : Bool} (hbit7 : pb.getLsbD 7 = true) (hmode : loNibble pb = 0xC)
    (hbit4 : pb.getLsbD 4 = ind) (p1 p2 : Byte) : decodeIndexed pb p1 p2 = some (.pcr8 p1 ind, 2) := by
  simp only [decodeIndexed, hbit7, hmode, hbit4, Bool.true_eq_false, if_false]

theorem decodeIndexed_pcr16 {pb : Byte} {ind : Bool} (hbit7 : pb.getLsbD 7 = true) (hmode : loNibble pb = 0xD)
    (hbit4 : pb.getLsbD 4 = ind) (p1 p2 : Byte) : decodeIndexed pb p1 p2 = some (.pcr16 (joinBytes p1 p2) ind, 3) := by
  simp only [decodeIndexed, hbit7, hmode, hbit4, Bool.true_eq_false, if_false]

/-- Bit 7, the mode and the indirect bit of a postbyte put together from its four fields. -/
theorem postbyte_fields : ∀ mode < 16, ∀ rr < 4, ∀ ind : Bool,
    (BitVec.ofNat 8 (0x80 + mode + 32 * rr + 16 * ind.toNat)).getLsbD 7 = true ∧
    loNibble (BitVec.ofNat 8 (0x80 + mode + 32 * rr + 16 * ind.toNat)) = mode ∧
    (BitVec.ofNat 8 (0x80 + mode + 32 * rr + 16 * ind.toNat)).getLsbD 4 = ind := by decide

/-- Settles O24: the direct and extended addresses, the operands read there, the forms of the postbyte without a pointer
register, and the decoder on the fields of a PC relative postbyte. -/
theorem directExtendedAndPcRelative : Obligations.DirectExtendedAndPcRelative := by
  refine ⟨fun s d a => ⟨s.resolve_dir d, rfl⟩, fun _ _ => rfl,
    fun s m o => ⟨rfl, rfl, fun hbus => State.operand8_mem_of_nil hbus o⟩,
    fun s m o => ⟨rfl, rfl, fun hbus => State.operand16_mem_of_nil hbus o⟩,
    fun s ind => ⟨?pcr8, ?pcr16, fun p => indexedIs_unmoved rfl rfl rfl rfl⟩, ?dontCare⟩
  case pcr8 =>
    intro n
    rw [← add_signExtend_eq_ofInt]
    exact indexedIs_unmoved (pcrPostbyte_eq ind 0xC (by decide)) rfl rfl rfl
  case pcr16 =>
    intro n
    rw [← add_eq_ofNat]
    exact indexedIs_unmoved (pcrPostbyte_eq ind 0xD (by decide)) rfl rfl rfl
  case dontCare =>
    intro rr p1 p2 ind hrr
    obtain ⟨hbit7, hmode, hbit4⟩ := postbyte_fields 0xC (by decide) rr hrr ind
    obtain ⟨hbit7', hmode', hbit4'⟩ := postbyte_fields 0xD (by decide) rr hrr ind
    exact ⟨decodeIndexed_pcr8 hbit7 hmode hbit4 p1 p2, decodeIndexed_pcr16 hbit7' hmode' hbit4' p1 p2⟩

end Sys2Proof.Machine
end

