-- ==== Sys2Proof/Proofs/SumFlags.lean ====
section
/-! Add8, Sub8 and Sub16 as exact sums and differences: carry, half carry, overflow, and the orders that a difference
decides (41_8bit_accumulator_memory.md R171, R231 to R233; 42_16bit_accumulator_memory.md R251). -/

namespace Sys2Proof.Machine

/-! The sign of a byte. -/

theorem msb_byte (a : Byte) : a.msb = decide (128 ≤ a.toNat) := BitVec.msb_eq_decide a

theorem toInt_byte (a : Byte) : a.toInt = if a.msb then (a.toNat : Int) - 256 else a.toNat := by
  rw [BitVec.toInt_eq_msb_cond]; rfl

theorem xor_ones_byte (b : Byte) : b ^^^ 0xFF = ~~~b := BitVec.xor_allOnes

theorem toInt_not_byte (b : Byte) : (~~~b).toInt = -b.toInt - 1 := by
  rw [toInt_byte, toInt_byte, BitVec.toNat_not, BitVec.msb_not]
  cases b.msb <;> simp <;> omega

/-! Add8. -/

theorem add8_comm (a b : Byte) (c : Bool) : add8 a b c = add8 b a c := by
  have hsign : ∀ r : Byte, ((a.msb == b.msb) && (r.msb != a.msb)) = ((b.msb == a.msb) && (r.msb != b.msb)) := by
    intro r
    cases a.msb <;> cases b.msb <;> rfl
  simp only [add8, Nat.add_comm a.toNat, Nat.add_comm (a.toNat % 16), hsign]

theorem add8_carry (a b : Byte) (c : Bool) :
    256 * (add8 a b c).c.toNat + (add8 a b c).r.toNat = a.toNat + b.toNat + c.toNat := by
  have hc := c.toNat_lt
  by_cases h : 256 ≤ a.toNat + b.toNat + c.toNat <;> simp [add8, h] <;> omega

theorem add8_half_carry (a b : Byte) (c : Bool) :
    16 * (add8 a b c).h.toNat + (add8 a b c).r.toNat % 16 = a.toNat % 16 + b.toNat % 16 + c.toNat := by
  have hc := c.toNat_lt
  by_cases h : 16 ≤ a.toNat % 16 + b.toNat % 16 + c.toNat <;> simp [add8, h] <;> omega

/-- V after an addition: the operands agree in sign and the sum's sign is another, exactly if the signed sum is out of
range. -/
theorem add8_overflow (a b : Byte) (c : Bool) : (add8 a b c).v = overflows8 (a.toInt + b.toInt + c.toNat) := by
  have hc := c.toNat_lt
  have hr : (add8 a b c).r.toNat = (a.toNat + b.toNat + c.toNat) % 256 := BitVec.toNat_ofNat _ 8
  change ((a.msb == b.msb) && ((add8 a b c).r.msb != a.msb)) = _
  rw [toInt_byte, toInt_byte, msb_byte a, msb_byte b, msb_byte (add8 a b c).r, hr, Bool.eq_iff_iff]
  by_cases ha : 128 ≤ a.toNat <;> by_cases hb : 128 ≤ b.toNat <;> simp [ha, hb] <;> omega

/-! Sub8, as Add8 of the complement (41_8bit_accumulator_memory.md R232). -/

theorem sub8_result (a b : Byte) (c draw : Bool) : (sub8 a b c draw).r = (add8 a (~~~b) (!c)).r := by
  apply BitVec.eq_of_toNat_eq
  have hb : b.toNat < 256 := b.isLt
  cases c <;> simp [sub8, add8, BitVec.toNat_ofInt] <;> omega

theorem sub8_overflow_eq (a b : Byte) (c draw : Bool) : (sub8 a b c draw).v = (add8 a (~~~b) (!c)).v := by
  change ((a.msb != b.msb) && ((sub8 a b c draw).r.msb != a.msb)) =
    ((a.msb == (~~~b).msb) && ((add8 a (~~~b) (!c)).r.msb != a.msb))
  rw [sub8_result, BitVec.msb_not]
  cases a.msb <;> cases b.msb <;> rfl

theorem sub8_borrow_eq (a b : Byte) (c draw : Bool) : (sub8 a b c draw).c = !(add8 a (~~~b) (!c)).c := by
  have hb : b.toNat < 256 := b.isLt
  rw [Bool.eq_iff_iff]
  cases c <;> simp [sub8, add8] <;> omega

theorem sub8_borrow (a b : Byte) (c draw : Bool) :
    (a.toNat : Int) - b.toNat - c.toNat = (sub8 a b c draw).r.toNat - 256 * (sub8 a b c draw).c.toNat := by
  have hc := c.toNat_lt
  by_cases h : (a.toNat : Int) - b.toNat - c.toNat < 0 <;> simp [sub8, h, BitVec.toNat_ofInt] <;> omega

theorem sub8_overflow (a b : Byte) (c draw : Bool) :
    (sub8 a b c draw).v = overflows8 (a.toInt - b.toInt - c.toNat) := by
  have hsum : a.toInt + (~~~b).toInt + (!c).toNat = a.toInt - b.toInt - c.toNat := by
    rw [toInt_not_byte]
    cases c <;> simp <;> omega
  rw [sub8_overflow_eq, add8_overflow, hsum]

/-- Settles O55: each law of Add8, and those of Sub8 through Add8 of the complement. -/
theorem additionAndSubtractionLaws : Obligations.AdditionAndSubtractionLaws := by
  refine ⟨fun a b c => ⟨add8_comm a b c, add8_carry a b c, add8_half_carry a b c, ?_⟩, fun a b c draw => ?_⟩
  · rw [add8_overflow, decide_eq_true_iff]
  · have hr := sub8_result a b c draw
    rw [xor_ones_byte]
    refine ⟨hr, congrArg BitVec.msb hr, congrArg (· == 0) hr, sub8_overflow_eq a b c draw, sub8_borrow_eq a b c draw,
      sub8_borrow a b c draw, ?_⟩
    rw [sub8_overflow, decide_eq_true_iff]

/-! The orders that a difference decides, at any width (41_8bit_accumulator_memory.md R233). -/

/-- A difference of two numbers of one sign has the sign of the borrow. -/
theorem msb_sub_of_msb_eq {w : Nat} {a b : BitVec w} (h : a.msb = b.msb) : (a - b).msb = a.ult b := by
  rcases w with _ | w
  · simp [BitVec.eq_nil a, BitVec.eq_nil b, BitVec.ult]
  have ha : a.toNat < 2 ^ (w + 1) := a.isLt
  have hb : b.toNat < 2 ^ (w + 1) := b.isLt
  simp only [BitVec.msb_eq_decide, Nat.add_sub_cancel, decide_eq_decide, BitVec.toNat_sub, BitVec.ult_eq_decide,
    Nat.pow_succ] at ha hb h ⊢
  generalize 2 ^ w = M at *
  by_cases hlt : a.toNat < b.toNat
  · rw [Nat.mod_eq_of_lt (by omega)]
    omega
  · have hd : M * 2 - b.toNat + a.toNat = M * 2 + (a.toNat - b.toNat) := by omega
    rw [hd, Nat.add_mod_left, Nat.mod_eq_of_lt (by omega)]
    omega

/-- N exclusive or V of a difference is the signed order. -/
theorem sign_xor_overflow_eq_slt {w : Nat} (a b : BitVec w) :
    ((a - b).msb ^^ ((a.msb != b.msb) && ((a - b).msb != a.msb))) = a.slt b := by
  by_cases h : a.msb = b.msb
  · simp [BitVec.slt_eq_ult_of_msb_eq h, msb_sub_of_msb_eq h, h]
  · rw [BitVec.slt_eq_not_ult_of_msb_neq h, BitVec.ult_eq_msb_of_msb_neq h]
    revert h
    cases a.msb <;> cases b.msb <;> simp

/-- The 8-bit difference without a borrow in, with the order of its operands. -/
theorem sub8_of_no_borrow (a b : Byte) (draw : Bool) :
    sub8 a b false draw =
      { r := a - b, h := draw, n := (a - b).msb, z := a - b == 0, v := (a.msb != b.msb) && ((a - b).msb != a.msb),
        c := a.ult b } := by
  have hr : BitVec.ofInt 8 ((a.toNat : Int) - b.toNat - (false.toNat : Int)) = a - b := by
    apply BitVec.eq_of_toNat_eq
    simp only [BitVec.toNat_ofInt, BitVec.toNat_sub, Bool.toNat_false]
    omega
  have hc : ((a.toNat : Int) - b.toNat - (false.toNat : Int) < 0) = (a.toNat < b.toNat) := by
    simp only [Bool.toNat_false, eq_iff_iff]
    omega
  simp only [sub8, hr, hc, BitVec.ult_eq_decide]

/-- The 16-bit difference, with the order of its operands. -/
theorem sub16_eq (a b : Word) :
    sub16 a b =
      { r := a - b, n := (a - b).msb, z := a - b == 0, v := (a.msb != b.msb) && ((a - b).msb != a.msb),
        c := a.ult b } := by
  have hr : BitVec.ofInt 16 ((a.toNat : Int) - b.toNat) = a - b := by
    apply BitVec.eq_of_toNat_eq
    simp only [BitVec.toNat_ofInt, BitVec.toNat_sub]
    omega
  have hc : ((a.toNat : Int) - b.toNat < 0) = (a.toNat < b.toNat) := by
    rw [eq_iff_iff]
    omega
  simp only [sub16, hr, hc, BitVec.ult_eq_decide]

end Sys2Proof.Machine
end

