-- ==== Sys2Proof/Proofs/AccumulatorOperand.lean ====
section
/-! An accumulator and an 8-bit operand: ADD, ADC, SUB, SBC, CMP, AND, OR, EOR, BIT, LD and ST
(41_8bit_accumulator_memory.md R173 to R178, R185, R186, R190, R191, R199, R200, R204, R205, R214, R215, R222 to R227). -/

namespace Sys2Proof.Machine

/-! Encodings: an 8-bit column and its memory forms (30_encoding.md R95). -/

theorem encodesSrc8_of_column {i : Src8 → Instr} {op : Byte} (h : ∀ o, encode (i o) = encodeSrc8 op o) :
    EncodesSrc8 i op (op + 0x10) (op + 0x20) (op + 0x30) :=
  ⟨fun m => h (.imm m), fun d => h (.mem (.dir d)), fun x => h (.mem (.idx x)), fun a => h (.mem (.ext a))⟩

theorem encodesMem_of_encodeMem {i : Mem → Instr} {dir idx ext : Byte}
    (h : ∀ o, encode (i o) = encodeMem dir idx ext o) : EncodesMem i [] dir idx ext :=
  ⟨fun d => h (.dir d), fun x => h (.idx x), fun a => h (.ext a)⟩

/-! What an address or an operand leaves alone: accumulators, flags and the bit drawn. -/

@[simp] theorem State.acc_resolve (s : State) (o : Mem) (r : Acc) : (s.resolve o).2.acc r = s.acc r := by
  cases r <;> simp [State.acc]
@[simp] theorem State.acc_operand8 (s : State) (o : Src8) (r : Acc) : (s.operand8 o).2.acc r = s.acc r := by
  cases r <;> simp [State.acc]
@[simp] theorem State.flag_operand8 (s : State) (o : Src8) (f : Flag) : (s.operand8 o).2.flag f = s.flag f := by
  simp [State.flag]
@[simp] theorem State.undefFlag_operand8 (s : State) (o : Src8) : (s.operand8 o).2.undefFlag = s.undefFlag := by
  simp [State.undefFlag]

/-- A write of an accumulator is no write of memory. -/
@[simp] theorem State.readByte_setAcc (s : State) (r : Acc) (v : Byte) (a : Word) :
    (s.setAcc r v).readByte a = s.readByte a := by
  cases r <;> rfl

/-- With no grant to come, reading an operand leaves every byte of memory as it reads. -/
theorem State.readByte_operand8_of_nil {s : State} (h : s.grants = []) (o : Src8) (a : Word) :
    (s.operand8 o).2.readByte a = s.readByte a :=
  State.readByte_congr (State.operand8_quiet h o).1 (s.operand8_memMap o) (s.operand8_tick o) a

/-- What reads as the state after the operand keeps memory. -/
theorem keepsMemory_operand8 {s t : State} {o : Src8} (h : NoByteChanged (s.operand8 o).2 t) :
    KeepsMemory s (s.operand8 o).2 t :=
  ⟨h, fun hbus a => (h a).trans (State.readByte_operand8_of_nil hbus o a)⟩

/-! Stores of one byte. -/

/-- A byte written through the bus is all that the write stores, into what the grant before it left. -/
theorem storesBytes_busWrite (s : State) (a : Word) (v : Byte) : StoresBytes s.grant (s.busWrite a v) a [v] := by
  intro b
  rw [State.readByte_busWrite, State.kindAt_grant]
  by_cases h : a = b
  · subst h
    simp
  · have hoff : ¬ (b - a).toNat < [v].length := by
      rw [List.length_singleton]
      bv_omega
    rw [if_neg (fun hab => h hab.1), if_neg (fun hlt => hoff hlt.1)]

/-- Bytes stored into a state are stored into every state that reads as it does. -/
theorem storesBytes_congr {s s₁ t : State} {a : Word} {bs : List Byte} (h : StoresBytes s₁ t a bs)
    (hread : NoByteChanged s s₁) (hkind : ∀ b, s₁.kindAt b = s.kindAt b) : StoresBytes s t a bs := by
  intro b
  rw [h b, hread b, hkind b]

/-! The meaning of each shared operation, by the state and the operand that it starts from. -/

theorem State.addAcc_eq (s : State) (r : Acc) (o : Src8) (withCarry : Bool) :
    s.addAcc r o withCarry =
      ((s.operand8 o).2.setAcc r (add8 (s.acc r) (s.operand8 o).1 (withCarry && s.flag .C)).r).setCC
        (arithFlags8 s.CC (add8 (s.acc r) (s.operand8 o).1 (withCarry && s.flag .C))) := by
  simp [State.addAcc]

theorem State.subAcc_eq (s : State) (r : Acc) (o : Src8) (withBorrow : Bool) :
    s.subAcc r o withBorrow =
      ((s.operand8 o).2.setAcc r (s.diffAcc r (s.operand8 o).1 withBorrow).r).setCC
        (arithFlags8 s.CC (s.diffAcc r (s.operand8 o).1 withBorrow)) := by
  simp [State.subAcc, State.diffAcc]

theorem State.cmpAcc_eq (s : State) (r : Acc) (o : Src8) :
    s.cmpAcc r o = (s.operand8 o).2.setCC (arithFlags8 s.CC (s.diffAcc r (s.operand8 o).1 false)) := by
  simp [State.cmpAcc, State.diffAcc]

theorem State.moveAcc_eq (s : State) (r : Acc) (o : Src8) (f : Byte → Byte → Byte) :
    s.moveAcc r o f =
      ((s.operand8 o).2.setAcc r (f (s.acc r) (s.operand8 o).1)).setCC
        (moveFlags8 s.CC (f (s.acc r) (s.operand8 o).1)) := by
  simp [State.moveAcc]

theorem State.bitAcc_eq (s : State) (r : Acc) (o : Src8) :
    s.bitAcc r o = (s.operand8 o).2.setCC (moveFlags8 s.CC (s.acc r &&& (s.operand8 o).1)) := by
  simp [State.bitAcc]

theorem State.storeAcc_eq (s : State) (r : Acc) (o : Mem) :
    s.storeAcc r o =
      ((s.resolve o).2.busWrite (s.resolve o).1 (s.acc r)).setCC (moveFlags8 s.CC (s.acc r)) := by
  simp [State.storeAcc]

/-! The flags written. -/

theorem flagOf_CC (s : State) (f : Flag) : flagOf s.CC f = s.flag f := rfl

theorem State.flag_of_cc {t : State} {cc : Byte} (h : t.CC = cc) (f : Flag) : t.flag f = flagOf cc f := by
  rw [State.flag, h]

/-- The flags of a difference of two bytes, H aside. -/
theorem subFlags8_of_cc {s t : State} {a m : Byte} {c draw : Bool} (h : t.CC = arithFlags8 s.CC (sub8 a m c draw)) :
    SubFlags8 s t a m c.toNat := by
  simp only [SubFlags8, NZ8, KeepsFlags, State.flag_of_cc h, flagOf_arithFlags8]
  exact ⟨⟨rfl, rfl⟩, rfl, sub8_overflow a m c draw, by simp [State.flag]⟩

theorem moveFlags8_of_cc {s t : State} {v : Byte} (h : t.CC = moveFlags8 s.CC v) : MoveFlags8 s t v := by
  simp only [MoveFlags8, NZ8, KeepsFlags, State.flag_of_cc h, flagOf_moveFlags8]
  exact ⟨⟨trivial, rfl⟩, trivial, by simp [State.flag]⟩

/-! One lemma a shared operation. An instruction that reads an operand and then writes CC, with or without an accumulator,
leaves all else as the operand left it; what it writes to CC is the rest of its statement. -/

theorem completes_of_writesAcc {i : Instr} {s : State} {o : Src8} {r : Acc} {v cc : Byte} {P : State → Prop}
    (h : exec i s = .next (((s.operand8 o).2.setAcc r v).setCC cc)) (hP : ∀ t : State, t.CC = cc → P t) :
    Completes i s fun t =>
      t = { (s.operand8 o).2.setAcc r v with CC := t.CC } ∧ KeepsMemory s (s.operand8 o).2 t ∧ P t :=
  ⟨_, h, rfl, keepsMemory_operand8 (fun _ => by simp), hP _ rfl⟩

theorem completes_of_writesCC {i : Instr} {s : State} {o : Src8} {cc : Byte} {P : State → Prop}
    (h : exec i s = .next ((s.operand8 o).2.setCC cc)) (hP : ∀ t : State, t.CC = cc → P t) :
    Completes i s fun t => t = { (s.operand8 o).2 with CC := t.CC } ∧ KeepsMemory s (s.operand8 o).2 t ∧ P t :=
  ⟨_, h, rfl, keepsMemory_operand8 (fun _ => rfl), hP _ rfl⟩

section
variable {i : Src8 → Instr} {r : Acc}

theorem addsTo_of_exec {withCarry : Bool} (h : ∀ o s, exec (i o) s = .next (s.addAcc r o withCarry)) :
    AddsTo i r withCarry := by
  intro s o m s₁ a c sum
  refine completes_of_writesAcc ((h o s).trans (congrArg _ (s.addAcc_eq r o withCarry))) fun t hcc => ?_
  simp only [NZ8, KeepsFlags, State.flag_of_cc hcc, flagOf_arithFlags8]
  exact ⟨⟨rfl, rfl⟩, rfl, add8_overflow a m _, rfl, by simp [State.flag]⟩

theorem subtractsFrom_of_exec {withBorrow : Bool} (h : ∀ o s, exec (i o) s = .next (s.subAcc r o withBorrow)) :
    SubtractsFrom i r withBorrow := fun s o =>
  completes_of_writesAcc ((h o s).trans (congrArg _ (s.subAcc_eq r o withBorrow))) fun _ hcc => subFlags8_of_cc hcc

theorem comparesWith_of_exec (h : ∀ o s, exec (i o) s = .next (s.cmpAcc r o)) : ComparesWith i r := fun s o =>
  completes_of_writesCC ((h o s).trans (congrArg _ (s.cmpAcc_eq r o))) fun _ hcc => subFlags8_of_cc (c := false) hcc

theorem combinesInto_of_exec {f : Byte → Byte → Byte} (h : ∀ o s, exec (i o) s = .next (s.moveAcc r o f)) :
    CombinesInto i r f := fun s o =>
  completes_of_writesAcc ((h o s).trans (congrArg _ (s.moveAcc_eq r o f))) fun _ hcc => moveFlags8_of_cc hcc

theorem bitTests_of_exec (h : ∀ o s, exec (i o) s = .next (s.bitAcc r o)) : BitTests i r := fun s o =>
  completes_of_writesCC ((h o s).trans (congrArg _ (s.bitAcc_eq r o))) fun _ hcc => moveFlags8_of_cc hcc

end

/-- With no grant to come, the memory in which a byte after an address is read or written is that of the start. -/
theorem State.readByte_resolve_grant_of_nil {s : State} (h : s.grants = []) (o : Mem) (a : Word) :
    (s.resolve o).2.grant.readByte a = s.readByte a := by
  rw [State.grant_of_nil (State.resolve_quiet h o).2.1, State.readByte_resolve_of_nil h]

theorem storesAcc_of_exec {i : Mem → Instr} {r : Acc} (h : ∀ o s, exec (i o) s = .next (s.storeAcc r o)) :
    StoresAcc i r := by
  intro s o ea s₁
  have hstored : StoresBytes s₁ (s.storeAcc r o) ea [s.acc r] := by
    rw [State.storeAcc_eq]
    exact storesBytes_busWrite _ ea _
  refine ⟨s.storeAcc r o, h o s, ?_, ⟨hstored, fun hbus => ?_⟩, moveFlags8_of_cc ?_⟩
  · rw [State.storeAcc_eq, State.busWrite, State.writeByte_eq]; rfl
  · exact storesBytes_congr hstored (State.readByte_resolve_grant_of_nil hbus o) (fun b => by simp [s₁])
  · rw [State.storeAcc_eq]; rfl

/-! The instructions. -/

/-- Settles O25: each form's encoding, and the shared addition. -/
theorem addInstructions : Obligations.AddInstructions :=
  ⟨encodesSrc8_of_column fun _ => rfl, addsTo_of_exec fun _ _ => rfl,
    encodesSrc8_of_column fun _ => rfl, addsTo_of_exec fun _ _ => rfl,
    encodesSrc8_of_column fun _ => rfl, addsTo_of_exec fun _ _ => rfl,
    encodesSrc8_of_column fun _ => rfl, addsTo_of_exec fun _ _ => rfl⟩

/-- Settles O26: each form's encoding, and the shared subtraction. -/
theorem subtractInstructions : Obligations.SubtractInstructions :=
  ⟨encodesSrc8_of_column fun _ => rfl, subtractsFrom_of_exec fun _ _ => rfl,
    encodesSrc8_of_column fun _ => rfl, subtractsFrom_of_exec fun _ _ => rfl,
    encodesSrc8_of_column fun _ => rfl, subtractsFrom_of_exec fun _ _ => rfl,
    encodesSrc8_of_column fun _ => rfl, subtractsFrom_of_exec fun _ _ => rfl⟩

/-- Settles O27: each form's encoding, and the shared comparison. -/
theorem compareInstructions : Obligations.CompareInstructions :=
  ⟨encodesSrc8_of_column fun _ => rfl, comparesWith_of_exec fun _ _ => rfl,
    encodesSrc8_of_column fun _ => rfl, comparesWith_of_exec fun _ _ => rfl⟩

/-- Settles O28: each form's encoding, and the shared move or bit test. -/
theorem logicInstructions : Obligations.LogicInstructions :=
  ⟨encodesSrc8_of_column fun _ => rfl, combinesInto_of_exec fun _ _ => rfl,
    encodesSrc8_of_column fun _ => rfl, combinesInto_of_exec fun _ _ => rfl,
    encodesSrc8_of_column fun _ => rfl, combinesInto_of_exec fun _ _ => rfl,
    encodesSrc8_of_column fun _ => rfl, combinesInto_of_exec fun _ _ => rfl,
    encodesSrc8_of_column fun _ => rfl, combinesInto_of_exec fun _ _ => rfl,
    encodesSrc8_of_column fun _ => rfl, combinesInto_of_exec fun _ _ => rfl,
    encodesSrc8_of_column fun _ => rfl, bitTests_of_exec fun _ _ => rfl,
    encodesSrc8_of_column fun _ => rfl, bitTests_of_exec fun _ _ => rfl⟩

/-- Settles O29: each form's encoding, and the shared move or store. -/
theorem loadStoreInstructions : Obligations.LoadStoreInstructions :=
  ⟨encodesSrc8_of_column fun _ => rfl, combinesInto_of_exec fun _ _ => rfl,
    encodesSrc8_of_column fun _ => rfl, combinesInto_of_exec fun _ _ => rfl,
    encodesMem_of_encodeMem fun _ => rfl, storesAcc_of_exec fun _ _ => rfl,
    encodesMem_of_encodeMem fun _ => rfl, storesAcc_of_exec fun _ _ => rfl⟩

end Sys2Proof.Machine
end

