-- ==== Sys2Proof/Proofs/OneByte.lean ====
section
/-! The operations on one byte of memory or one accumulator: shifts, rotates, NEG, COM, INC, DEC, CLR and TST
(41_8bit_accumulator_memory.md R172, R179 to R184, R187 to R189, R192 to R194, R196 to R198, R201 to R203, R207 to R209,
R211 to R213, R216 to R221, R228 to R230). -/

namespace Sys2Proof.Machine

/-! The flags that each operation writes. Where N and Z come from the result, they are said of it. -/

theorem flagOf_aslByte (m cc : Byte) (draw : Bool) (f : Flag) :
    flagOf (aslByte m cc draw).2 f =
      match f with
      | .N => (aslByte m cc draw).1.msb | .Z => (aslByte m cc draw).1 == 0 | .V => m.getLsbD 7 ^^ m.getLsbD 6
      | .C => m.getLsbD 7 | .H => draw | f => flagOf cc f := by
  cases f <;> simp [aslByte, setNZ8]

theorem flagOf_asrByte (m cc : Byte) (draw : Bool) (f : Flag) :
    flagOf (asrByte m cc draw).2 f =
      match f with
      | .N => (asrByte m cc draw).1.msb | .Z => (asrByte m cc draw).1 == 0 | .C => m.getLsbD 0 | .H => draw
      | f => flagOf cc f := by
  cases f <;> simp [asrByte, setNZ8]

theorem flagOf_lsrByte (m cc : Byte) (draw : Bool) (f : Flag) :
    flagOf (lsrByte m cc draw).2 f =
      match f with
      | .N => false | .Z => (lsrByte m cc draw).1 == 0 | .C => m.getLsbD 0 | f => flagOf cc f := by
  cases f <;> simp [lsrByte]

theorem flagOf_rolByte (m cc : Byte) (draw : Bool) (f : Flag) :
    flagOf (rolByte m cc draw).2 f =
      match f with
      | .N => (rolByte m cc draw).1.msb | .Z => (rolByte m cc draw).1 == 0 | .V => m.getLsbD 7 ^^ m.getLsbD 6
      | .C => m.getLsbD 7 | f => flagOf cc f := by
  cases f <;> simp [rolByte, setNZ8]

theorem flagOf_rorByte (m cc : Byte) (draw : Bool) (f : Flag) :
    flagOf (rorByte m cc draw).2 f =
      match f with
      | .N => (rorByte m cc draw).1.msb | .Z => (rorByte m cc draw).1 == 0 | .C => m.getLsbD 0 | f => flagOf cc f := by
  cases f <;> simp [rorByte, setNZ8]

theorem flagOf_comByte (m cc : Byte) (draw : Bool) (f : Flag) :
    flagOf (comByte m cc draw).2 f =
      match f with
      | .N => (comByte m cc draw).1.msb | .Z => (comByte m cc draw).1 == 0 | .V => false | .C => true
      | f => flagOf cc f := by
  cases f <;> simp [comByte, setNZ8]

theorem flagOf_incByte (m cc : Byte) (draw : Bool) (f : Flag) :
    flagOf (incByte m cc draw).2 f =
      match f with
      | .N => (incByte m cc draw).1.msb | .Z => (incByte m cc draw).1 == 0 | .V => m == 0x7F | f => flagOf cc f := by
  cases f <;> simp [incByte, setNZ8]

theorem flagOf_decByte (m cc : Byte) (draw : Bool) (f : Flag) :
    flagOf (decByte m cc draw).2 f =
      match f with
      | .N => (decByte m cc draw).1.msb | .Z => (decByte m cc draw).1 == 0 | .V => m == 0x80 | f => flagOf cc f := by
  cases f <;> simp [decByte, setNZ8]

theorem flagOf_clrByte (m cc : Byte) (draw : Bool) (f : Flag) :
    flagOf (clrByte m cc draw).2 f =
      match f with | .N => false | .Z => true | .V => false | .C => false | f => flagOf cc f := by
  cases f <;> simp [clrByte]

theorem sub8_zero_overflow (m : Byte) (draw : Bool) : (sub8 0 m false draw).v = (m == 0x80) := by
  have hm : (m == 0x80) = decide (m.toInt = -128) := decide_eq_decide.mpr BitVec.toInt_inj.symm
  have hlow : -128 ≤ m.toInt := BitVec.le_toInt m
  have hhigh : m.toInt < 128 := BitVec.toInt_lt
  rw [sub8_overflow, hm, decide_eq_decide]
  simp only [Bool.toNat_false, BitVec.ofNat_eq_ofNat, BitVec.toInt_zero]
  omega

theorem sub8_zero_borrow (m : Byte) (draw : Bool) : (sub8 0 m false draw).c = decide (m ≠ 0) := by
  rw [sub8_of_no_borrow, BitVec.ult_eq_decide, decide_eq_decide, ne_eq, ← BitVec.toNat_inj]
  exact Nat.pos_iff_ne_zero

/-- NEG borrows for every byte but 0, and overflows for 0x80 alone. -/
theorem flagOf_negByte (m cc : Byte) (draw : Bool) (f : Flag) :
    flagOf (negByte m cc draw).2 f =
      match f with
      | .N => (negByte m cc draw).1.msb | .Z => (negByte m cc draw).1 == 0 | .V => m == 0x80 | .C => decide (m ≠ 0)
      | .H => draw | f => flagOf cc f := by
  rw [negByte, flagOf_arithFlags8]
  cases f with
  | V => exact sub8_zero_overflow m draw
  | C => exact sub8_zero_borrow m draw
  | _ => rfl

/-- A number that fits a byte is 0 exactly if the byte is. -/
theorem ofNat_beq_zero {n : Nat} (h : n < 256) : (BitVec.ofNat 8 n == 0) = decide (n = 0) := by
  rw [Bool.eq_iff_iff, beq_iff_eq, decide_eq_true_iff, ← BitVec.toNat_inj, BitVec.toNat_ofNat, Nat.mod_eq_of_lt h]
  rfl

/-! One operation in its three forms. -/

/-- The memory form, by the byte read after the first grant (R172; 20_memory.md R72). -/
theorem State.rmwMem_eq (s : State) (f : Byte → Byte → Bool → Byte × Byte) (o : Mem) :
    s.rmwMem f o =
      ((s.resolve o).2.grant.busWrite (s.resolve o).1
        (f ((s.resolve o).2.grant.readByte (s.resolve o).1) s.CC s.undefFlag).1).setCC
        (f ((s.resolve o).2.grant.readByte (s.resolve o).1) s.CC s.undefFlag).2 := by
  simp [State.rmwMem, State.undefFlag]

section
variable {i : Mem → Instr} {iA iB : Instr} {n : Byte} {f : Byte → Byte → Bool → Byte × Byte}
  {res : Byte → Bool → Byte} {flags : Byte → Byte → Bool → Flag → Bool} {fl : Byte → State → State → Prop}

variable (hres : ∀ m cc draw, (f m cc draw).1 = res m (flagOf cc .C))
  (hflags : ∀ m cc draw g, flagOf (f m cc draw).2 g = flags m cc draw g)
  (hfl : ∀ (m : Byte) (s t : State), (∀ g, t.flag g = flags m s.CC s.undefFlag g) → fl m s t)
include hres hflags hfl

theorem modifiesMem_of_exec (hexec : ∀ o s, exec (i o) s = .next (s.rmwMem f o)) : ModifiesMem i res fl := by
  intro s o ea s₁ s₂ m
  have hstored : StoresBytes s₂ (s.rmwMem f o) ea [res m (s.flag .C)] := by
    rw [State.rmwMem_eq, State.flag, ← hres m s.CC s.undefFlag]
    exact storesBytes_busWrite s₁ ea _
  have hquiet : s.KeepsBus → s₁.grants = [] := fun hbus => by
    rw [State.grant_grants, (State.resolve_quiet hbus o).2.1]; rfl
  have hread : s.KeepsBus → NoByteChanged s s₁ := fun hbus => State.readByte_resolve_grant_of_nil hbus o
  refine ⟨fun hbus => hread hbus ea, s.rmwMem f o, hexec o s, ?_, ⟨hstored, fun hbus => ?_⟩, hfl m s _ ?_⟩
  · rw [State.rmwMem_eq, State.busWrite, State.writeByte_eq]; rfl
  · refine storesBytes_congr hstored (fun b => ?_) (fun b => by simp [s₂, s₁])
    exact (congrArg (·.readByte b) (State.grant_of_nil (hquiet hbus))).trans (hread hbus b)
  · rw [State.rmwMem_eq]
    exact fun g => hflags m s.CC s.undefFlag g

theorem modifiesAcc_of_exec {r : Acc} (hexec : ∀ s, exec iA s = .next (s.rmwAcc f r)) : ModifiesAcc iA r res fl := by
  intro s
  refine ⟨s.rmwAcc f r, hexec s, ?_, fun a => s.readByte_setAcc r _ a, hfl _ s _ fun g => hflags _ s.CC _ g⟩
  rw [State.flag, ← hres _ s.CC s.undefFlag]; rfl

/-- The three forms of an operation `f`, with opcodes in column `n`: they are as `res` and `fl` say if `f` is. -/
theorem modifies_of_exec (hmem : ∀ o, encode (i o) = encodeRmw n o ∧ ∀ s, exec (i o) s = .next (s.rmwMem f o))
    (hA : encode iA = [0x40 + n] ∧ ∀ s, exec iA s = .next (s.rmwAcc f .a))
    (hB : encode iB = [0x50 + n] ∧ ∀ s, exec iB s = .next (s.rmwAcc f .b)) : Modifies i iA iB n res fl :=
  ⟨encodesMem_of_encodeMem fun o => (hmem o).1, hA.1, hB.1, modifiesMem_of_exec hres hflags hfl fun o => (hmem o).2,
    modifiesAcc_of_exec hres hflags hfl hA.2, modifiesAcc_of_exec hres hflags hfl hB.2⟩

end

/-! The instructions. -/

/-- Settles O30: the byte, the bit shifted out and V of each shift. -/
theorem shiftInstructions : Obligations.ShiftInstructions := by
  refine ⟨modifies_of_exec aslByte_result flagOf_aslByte ?asl
      (fun _ => ⟨rfl, fun _ => rfl⟩) ⟨rfl, fun _ => rfl⟩ ⟨rfl, fun _ => rfl⟩,
    modifies_of_exec asrByte_result flagOf_asrByte ?asr
      (fun _ => ⟨rfl, fun _ => rfl⟩) ⟨rfl, fun _ => rfl⟩ ⟨rfl, fun _ => rfl⟩,
    modifies_of_exec lsrByte_result flagOf_lsrByte ?lsr
      (fun _ => ⟨rfl, fun _ => rfl⟩) ⟨rfl, fun _ => rfl⟩ ⟨rfl, fun _ => rfl⟩⟩
  case asl =>
    intro m s t hflag
    simp only [aslByte_result] at hflag
    exact ⟨⟨hflag .N, hflag .Z⟩, hflag .C, hflag .V, by simp [KeepsFlags, hflag, flagOf_CC]⟩
  case asr =>
    intro m s t hflag
    simp only [asrByte_result] at hflag
    exact ⟨⟨hflag .N, hflag .Z⟩, hflag .C, by simp [KeepsFlags, hflag, flagOf_CC]⟩
  case lsr =>
    intro m s t hflag
    simp only [lsrByte_result] at hflag
    exact ⟨hflag .N, (hflag .Z).trans (ofNat_beq_zero (by omega)), hflag .C, by simp [KeepsFlags, hflag, flagOf_CC]⟩

/-- Settles O31: the nine bits of each rotate, C among them. -/
theorem rotateInstructions : Obligations.RotateInstructions := by
  refine ⟨modifies_of_exec rolByte_result flagOf_rolByte ?rol
      (fun _ => ⟨rfl, fun _ => rfl⟩) ⟨rfl, fun _ => rfl⟩ ⟨rfl, fun _ => rfl⟩,
    modifies_of_exec rorByte_result flagOf_rorByte ?ror
      (fun _ => ⟨rfl, fun _ => rfl⟩) ⟨rfl, fun _ => rfl⟩ ⟨rfl, fun _ => rfl⟩⟩
  case rol =>
    intro m s t hflag
    simp only [rolByte_result] at hflag
    exact ⟨⟨hflag .N, hflag .Z⟩, hflag .C, hflag .V, by simp [KeepsFlags, hflag, flagOf_CC]⟩
  case ror =>
    intro m s t hflag
    simp only [rorByte_result] at hflag
    exact ⟨⟨hflag .N, hflag .Z⟩, hflag .C, by simp [KeepsFlags, hflag, flagOf_CC]⟩

/-- Settles O32: NEG as a difference from 0, COM as one from 255. -/
theorem negateComplementInstructions : Obligations.NegateComplementInstructions := by
  refine ⟨modifies_of_exec negByte_result flagOf_negByte ?neg
      (fun _ => ⟨rfl, fun _ => rfl⟩) ⟨rfl, fun _ => rfl⟩ ⟨rfl, fun _ => rfl⟩,
    modifies_of_exec comByte_result flagOf_comByte ?com
      (fun _ => ⟨rfl, fun _ => rfl⟩) ⟨rfl, fun _ => rfl⟩ ⟨rfl, fun _ => rfl⟩⟩
  case neg =>
    intro m s t hflag
    simp only [negByte_result] at hflag
    exact ⟨⟨hflag .N, hflag .Z⟩, hflag .C, hflag .V, by simp [KeepsFlags, hflag, flagOf_CC]⟩
  case com =>
    intro m s t hflag
    simp only [comByte_result] at hflag
    exact ⟨⟨hflag .N, hflag .Z⟩, hflag .V, hflag .C, by simp [KeepsFlags, hflag, flagOf_CC]⟩

/-- Settles O33: the byte one up or down, with C no part of it. -/
theorem incrementDecrementInstructions : Obligations.IncrementDecrementInstructions := by
  refine ⟨modifies_of_exec incByte_result flagOf_incByte ?inc
      (fun _ => ⟨rfl, fun _ => rfl⟩) ⟨rfl, fun _ => rfl⟩ ⟨rfl, fun _ => rfl⟩,
    modifies_of_exec decByte_result flagOf_decByte ?dec
      (fun _ => ⟨rfl, fun _ => rfl⟩) ⟨rfl, fun _ => rfl⟩ ⟨rfl, fun _ => rfl⟩⟩
  case inc =>
    intro m s t hflag
    simp only [incByte_result] at hflag
    exact ⟨⟨hflag .N, hflag .Z⟩, hflag .V, by simp [KeepsFlags, hflag, flagOf_CC]⟩
  case dec =>
    intro m s t hflag
    simp only [decByte_result] at hflag
    exact ⟨⟨hflag .N, hflag .Z⟩, hflag .V, by simp [KeepsFlags, hflag, flagOf_CC]⟩

/-- TST reads its byte after the grant that may come before it, and writes CC alone. -/
theorem completes_tst (s : State) (o : Mem) :
    Completes (.tst o) s fun t =>
      t = { (s.resolve o).2.grant with CC := t.CC } ∧ KeepsMemory s (s.resolve o).2.grant t ∧
      MoveFlags8 s t ((s.resolve o).2.grant.readByte (s.resolve o).1) ∧
      (s.KeepsBus → (s.resolve o).2.grant.readByte (s.resolve o).1 = s.readByte (s.resolve o).1) := by
  have hread : s.KeepsBus → NoByteChanged s (s.resolve o).2.grant := fun hbus =>
    State.readByte_resolve_grant_of_nil hbus o
  exact ⟨_, rfl, rfl, ⟨fun _ => rfl, hread⟩, moveFlags8_of_cc (by simp), fun hbus => hread hbus _⟩

/-- Settles O34: CLR as the operation that makes 0 of any byte, TST as the flags of a move. -/
theorem clearAndTestInstructions : Obligations.ClearAndTestInstructions := by
  refine ⟨modifies_of_exec (fun _ _ _ => rfl) flagOf_clrByte ?clr
      (fun _ => ⟨rfl, fun _ => rfl⟩) ⟨rfl, fun _ => rfl⟩ ⟨rfl, fun _ => rfl⟩,
    encodesMem_of_encodeMem fun _ => rfl, rfl, rfl, completes_tst,
    fun _ => ⟨⟨_, rfl, rfl, moveFlags8_of_cc rfl⟩, ⟨_, rfl, rfl, moveFlags8_of_cc rfl⟩⟩⟩
  case clr =>
    intro m s t hflag
    exact ⟨hflag .N, hflag .Z, hflag .V, hflag .C, by simp [KeepsFlags, hflag, flagOf_CC]⟩

end Sys2Proof.Machine
end

