-- ==== Sys2Proof/Proofs/DecimalAndProduct.lean ====
section
/-! DAA and MUL (41_8bit_accumulator_memory.md R195, R210). -/

namespace Sys2Proof.Machine

/-! DAA. -/

/-- What DAA adds to A, given H and C (R195). -/
def daaCorrection (a : Byte) (h c : Bool) : Nat :=
  (if h = true ∨ 9 < a.toNat % 16 then 6 else 0) +
    (if c = true ∨ 9 < a.toNat / 16 ∨ (8 < a.toNat / 16 ∧ 9 < a.toNat % 16) then 96 else 0)

theorem daaCorrection_eq (a : Byte) (h c : Bool) :
    (if h || decide (9 < a.toNat % 16) then 0x06 else 0x00) +
      (if c || decide (9 < a.toNat / 16) || (decide (8 < a.toNat / 16) && decide (9 < a.toNat % 16)) then 0x60 else 0x00) =
      daaCorrection a h c := by
  simp [daaCorrection, or_assoc]

theorem daaByte_result (a cc : Byte) (draw : Bool) :
    (daaByte a cc draw).1 = BitVec.ofNat 8 (a.toNat + daaCorrection a (flagOf cc .H) (flagOf cc .C)) := by
  simp only [daaByte, daaCorrection_eq]

theorem flagOf_daaByte (a cc : Byte) (draw : Bool) (f : Flag) :
    flagOf (daaByte a cc draw).2 f =
      match f with
      | .N => (daaByte a cc draw).1.msb | .Z => (daaByte a cc draw).1 == 0 | .V => draw
      | .C => flagOf cc .C || decide (256 ≤ a.toNat + daaCorrection a (flagOf cc .H) (flagOf cc .C))
      | f => flagOf cc f := by
  simp only [daaByte, daaCorrection_eq]
  cases f <;> simp [setNZ8]

/-- Settles O35: the correction, and the flags of the corrected byte. -/
theorem decimalAdjust : Obligations.DecimalAdjust := by
  refine ⟨rfl, fun s => ?_⟩
  intro lo hi cf
  have hflag (f : Flag) : (s.rmwAcc daaByte .a).flag f = _ := flagOf_daaByte s.A s.CC s.undefFlag f
  have hres := daaByte_result s.A s.CC s.undefFlag
  simp only [hres] at hflag
  refine ⟨s.rmwAcc daaByte .a, rfl, ?_, ⟨hflag .N, hflag .Z⟩, hflag .C, by simp [KeepsFlags, hflag, flagOf_CC]⟩
  exact congrArg (fun v => { s with A := v, CC := (s.rmwAcc daaByte .a).CC }) hres

/-! MUL. -/

theorem flagOf_mulBytes (a b cc : Byte) (f : Flag) :
    flagOf (mulBytes a b cc).2 f =
      match f with
      | .Z => (mulBytes a b cc).1 == 0 | .C => (mulBytes a b cc).1.getLsbD 7 | f => flagOf cc f := by
  cases f <;> simp [mulBytes]

/-- The product of two bytes fits a word. -/
theorem toNat_mulBytes (a b cc : Byte) : (mulBytes a b cc).1.toNat = a.toNat * b.toNat := by
  have h : a.toNat * b.toNat < 2 ^ 8 * 2 ^ 8 := Nat.mul_lt_mul'' a.isLt b.isLt
  exact Nat.mod_eq_of_lt h

theorem mulBytes_beq_zero (a b cc : Byte) : ((mulBytes a b cc).1 == 0) = decide (a.toNat * b.toNat = 0) := by
  rw [Bool.eq_iff_iff, beq_iff_eq, decide_eq_true_iff, ← BitVec.toNat_inj, toNat_mulBytes]
  rfl

/-- Bit 7 of a word is that of its low byte. -/
theorem getLsbD_seven_loByte (w : Word) : (loByte w).getLsbD 7 = w.getLsbD 7 := by
  simp [loByte]

/-- Settles O37: the bytes of the product, and the flags taken from it. -/
theorem multiply : Obligations.Multiply := by
  refine ⟨rfl, fun s => ⟨rfl, _, rfl, rfl, ?_, ?_, ?_, ?_⟩⟩
  · change (hiByte (mulBytes s.A s.B s.CC).1).toNat * 256 + (loByte (mulBytes s.A s.B s.CC).1).toNat = _
    rw [toNat_hiByte, toNat_loByte, Nat.div_add_mod', toNat_mulBytes]
  · exact (flagOf_mulBytes s.A s.B s.CC .Z).trans (mulBytes_beq_zero s.A s.B s.CC)
  · exact (flagOf_mulBytes s.A s.B s.CC .C).trans (getLsbD_seven_loByte _).symm
  · have hflag (f : Flag) : flagOf (mulBytes s.A s.B s.CC).2 f = _ := flagOf_mulBytes s.A s.B s.CC f
    simp [KeepsFlags, State.flag, hflag]

end Sys2Proof.Machine
end

