-- ==== Sys2Proof/Proofs/CompareThenBranch.lean ====
section
/-! The branches after a compare or a subtraction (41_8bit_accumulator_memory.md R233; 44_branches.md R310, R311). -/

namespace Sys2Proof.Machine

/-- A short branch whose condition says `p` is taken exactly if `p`. -/
theorem takenIff_of_holds {i : Byte → Instr} {c : Cond} {t : State} {p : Prop} [Decidable p]
    (hexec : ∀ d, exec (i d) t = .next (t.branch c (sext8 d))) (h : c.holds t.CC = true ↔ p) : TakenIff i t p := by
  intro d
  simp only [hexec, State.branch, h, sext8, add_signExtend_eq_ofInt]
  rfl

/-- Flags that say equality, the unsigned and the signed order say the two weak orders too, and the ten branches go by
them. -/
theorem branchReading_of_orders {w : Nat} {t : State} {a m : BitVec w} (heq : t.flag .Z = true ↔ m = a)
    (hltu : t.flag .C = true ↔ a < m) (hlts : (t.flag .N ^^ t.flag .V) = true ↔ a.toInt < m.toInt) :
    BranchReading t (m = a) (a < m) (a ≤ m) (a.toInt < m.toInt) (a.toInt ≤ m.toInt) := by
  have hleu : (t.flag .C || t.flag .Z) = true ↔ a ≤ m := by
    rw [Bool.or_eq_true, hltu, heq, BitVec.le_def, BitVec.lt_def, ← BitVec.toNat_inj]
    omega
  have hles : (t.flag .Z || (t.flag .N ^^ t.flag .V)) = true ↔ a.toInt ≤ m.toInt := by
    rw [Bool.or_eq_true, hlts, heq, ← BitVec.toInt_inj]
    omega
  have hnot {b : Bool} {p : Prop} (h : b = true ↔ p) : (!b) = true ↔ ¬p := by
    rw [← h, Bool.not_eq_true', Bool.not_eq_true]
  refine ⟨heq, hltu, hleu, hlts, hles, ?_, ?_, ?_, ?_, ?_, ?_, ?_, ?_, ?_, ?_⟩
  · exact takenIff_of_holds (c := .eq) (fun _ => rfl) heq
  · exact takenIff_of_holds (c := .ne) (fun _ => rfl) (hnot heq)
  · exact takenIff_of_holds (c := .lo) (fun _ => rfl) hltu
  · exact takenIff_of_holds (c := .hs) (fun _ => rfl) (hnot hltu)
  · exact takenIff_of_holds (c := .ls) (fun _ => rfl) hleu
  · exact takenIff_of_holds (c := .hi) (fun _ => rfl) (hnot hleu)
  · exact takenIff_of_holds (c := .lt) (fun _ => rfl) hlts
  · exact takenIff_of_holds (c := .ge) (fun _ => rfl) (hnot hlts)
  · exact takenIff_of_holds (c := .le) (fun _ => rfl) hles
  · exact takenIff_of_holds (c := .gt) (fun _ => rfl) (hnot hles)

/-- The flags of a difference, at either width, say those three orders. -/
theorem branchReading_of_difference {w : Nat} {t : State} {a m : BitVec w} (hN : t.flag .N = (a - m).msb)
    (hZ : t.flag .Z = (a - m == 0)) (hV : t.flag .V = ((a.msb != m.msb) && ((a - m).msb != a.msb)))
    (hC : t.flag .C = a.ult m) :
    BranchReading t (m = a) (a < m) (a ≤ m) (a.toInt < m.toInt) (a.toInt ≤ m.toInt) := by
  refine branchReading_of_orders ?_ ?_ ?_
  · rw [hZ, beq_iff_eq, BitVec.sub_eq_iff_eq_add, zero_add, eq_comm]
  · rw [hC, BitVec.ult_iff_lt]
  · rw [hN, hV, sign_xor_overflow_eq_slt, BitVec.slt_iff_toInt_lt]

theorem branchReading_of_sub8 {t : State} {cc a m : Byte} {draw : Bool}
    (h : t.CC = arithFlags8 cc (sub8 a m false draw)) :
    BranchReading t (m = a) (a < m) (a ≤ m) (a.toInt < m.toInt) (a.toInt ≤ m.toInt) := by
  have hflag (f : Flag) := (State.flag_of_cc h f).trans (flagOf_arithFlags8 cc _ f)
  rw [sub8_of_no_borrow] at hflag
  exact branchReading_of_difference (hflag .N) (hflag .Z) (hflag .V) (hflag .C)

theorem branchReading_of_sub16 {t : State} {cc : Byte} {a m : Word} (h : t.CC = arithFlags16 cc (sub16 a m)) :
    BranchReading t (m = a) (a < m) (a ≤ m) (a.toInt < m.toInt) (a.toInt ≤ m.toInt) := by
  have hflag (f : Flag) := (State.flag_of_cc h f).trans (flagOf_arithFlags16 cc _ f)
  rw [sub16_eq] at hflag
  exact branchReading_of_difference (hflag .N) (hflag .Z) (hflag .V) (hflag .C)

/-- CMP and SUB of an accumulator write the same flags. -/
theorem branchReading_cmpAcc_subAcc (s : State) (r : Acc) (o : Src8) : ∀ t ∈ [s.cmpAcc r o, s.subAcc r o false],
    BranchReading t ((s.operand8 o).1 = s.acc r) (s.acc r < (s.operand8 o).1) (s.acc r ≤ (s.operand8 o).1)
      ((s.acc r).toInt < (s.operand8 o).1.toInt) ((s.acc r).toInt ≤ (s.operand8 o).1.toInt) := by
  intro t ht
  have hcc : t.CC = arithFlags8 s.CC (sub8 (s.acc r) (s.operand8 o).1 false s.undefFlag) := by
    simp only [List.mem_cons, List.not_mem_nil, or_false] at ht
    rcases ht with rfl | rfl
    · rw [State.cmpAcc_eq]; rfl
    · rw [State.subAcc_eq]; rfl
  exact branchReading_of_sub8 hcc

/-- Settles O57: the flags of each compare and subtraction as those of a difference. -/
theorem branchReadingOfCompares : Obligations.BranchReadingOfCompares := by
  refine ⟨fun s o i hi => ?a, fun s o i hi => ?b, fun s o p hp => ?word⟩
  case a =>
    simp only [List.mem_cons, List.not_mem_nil, or_false] at hi
    rcases hi with rfl | rfl
    · exact ⟨s.cmpAcc .a o, rfl, branchReading_cmpAcc_subAcc s .a o _ (by simp)⟩
    · exact ⟨s.subAcc .a o false, rfl, branchReading_cmpAcc_subAcc s .a o _ (by simp)⟩
  case b =>
    simp only [List.mem_cons, List.not_mem_nil, or_false] at hi
    rcases hi with rfl | rfl
    · exact ⟨s.cmpAcc .b o, rfl, branchReading_cmpAcc_subAcc s .b o _ (by simp)⟩
    · exact ⟨s.subAcc .b o false, rfl, branchReading_cmpAcc_subAcc s .b o _ (by simp)⟩
  case word =>
    have hexec : exec p.1 s = .next (s.cmp16 p.2 o) := by
      simp only [List.mem_cons, List.not_mem_nil, or_false] at hp
      rcases hp with rfl | rfl | rfl | rfl | rfl <;> rfl
    exact ⟨s.cmp16 p.2 o, hexec, branchReading_of_sub16 rfl⟩

end Sys2Proof.Machine
end

