-- ==== Sys2Proof/Proofs/Rotation.lean ====
section
/-! ROLA and RORA as moves of nine bits round a ring, and the shifts by one place (41_8bit_accumulator_memory.md R235). -/

namespace Sys2Proof.Machine

/-! The bits of each result. -/

theorem getLsbD_rolByte (m cc : Byte) (draw : Bool) {n : Nat} (hn : n < 8) :
    (rolByte m cc draw).1.getLsbD n = if n = 0 then flagOf cc .C else m.getLsbD (n - 1) := by
  cases hc : flagOf cc .C <;> interval_cases n <;> simp [rolByte, hc]

theorem getLsbD_rorByte (m cc : Byte) (draw : Bool) {n : Nat} (hn : n < 8) :
    (rorByte m cc draw).1.getLsbD n = if n = 7 then flagOf cc .C else m.getLsbD (n + 1) := by
  cases hc : flagOf cc .C <;> interval_cases n <;> simp [rorByte, hc]

theorem getLsbD_lsrByte (m cc : Byte) (draw : Bool) (n : Nat) :
    (lsrByte m cc draw).1.getLsbD n = m.getLsbD (n + 1) := by
  simp [lsrByte, Nat.add_comm]

theorem getLsbD_aslByte_succ (m cc : Byte) (draw : Bool) {n : Nat} (hn : n < 7) :
    (aslByte m cc draw).1.getLsbD (n + 1) = m.getLsbD n := by
  have hn : n + 1 < 8 := by omega
  rw [aslByte, BitVec.getLsbD_shiftLeft, Nat.add_sub_cancel, decide_eq_true hn]
  rfl

theorem getLsbD_asrByte (m cc : Byte) (draw : Bool) {n : Nat} (hn : n < 7) :
    (asrByte m cc draw).1.getLsbD n = m.getLsbD (n + 1) := by
  have hn : 1 + n < 8 := by omega
  have hw : ¬8 ≤ n := by omega
  rw [asrByte, shiftRight_or_sign, BitVec.getLsbD_sshiftRight, if_pos hn, decide_eq_false hw, Nat.add_comm]
  rfl

/-! The ring. -/

/-- Bits 0 to 7 are those of A, bit 8 is C. -/
def State.ringBit (s : State) (n : Nat) : Bool := if n = 8 then s.flag .C else s.A.getLsbD n

theorem State.ringBit_ext {s t : State} (h : ∀ n < 9, t.ringBit n = s.ringBit n) :
    t.A = s.A ∧ t.flag .C = s.flag .C := by
  refine ⟨BitVec.eq_of_getLsbD_eq fun n hn => ?_, h 8 (by decide)⟩
  have hbit := h n (by omega)
  rwa [State.ringBit, State.ringBit, if_neg (by omega), if_neg (by omega)] at hbit

/-- ROLA moves each bit up by one place, which is down by eight. -/
theorem ringBit_rola (s : State) {n : Nat} (hn : n < 9) :
    (s.rmwAcc rolByte .a).ringBit n = s.ringBit ((n + 8) % 9) := by
  have hC : (s.rmwAcc rolByte .a).flag .C = s.A.getLsbD 7 := flagOf_rolByte s.A s.CC s.undefFlag .C
  have hA {k : Nat} (hk : k < 8) : (s.rmwAcc rolByte .a).A.getLsbD k = _ := getLsbD_rolByte s.A s.CC s.undefFlag hk
  rcases Nat.lt_succ_iff_lt_or_eq.mp hn with hbit | rfl
  · interval_cases n <;> exact hA (by decide)
  · exact hC

/-- RORA moves each bit down by one place. -/
theorem ringBit_rora (s : State) {n : Nat} (hn : n < 9) :
    (s.rmwAcc rorByte .a).ringBit n = s.ringBit ((n + 1) % 9) := by
  have hC : (s.rmwAcc rorByte .a).flag .C = s.A.getLsbD 0 := flagOf_rorByte s.A s.CC s.undefFlag .C
  have hA {k : Nat} (hk : k < 8) : (s.rmwAcc rorByte .a).A.getLsbD k = _ := getLsbD_rorByte s.A s.CC s.undefFlag hk
  rcases Nat.lt_succ_iff_lt_or_eq.mp hn with hbit | rfl
  · interval_cases n <;> exact hA (by decide)
  · exact hC

/-- An instruction that moves each bit of the ring down by `k` places, run `times` times. -/
theorem runAll_replicate_ringBit {i : Instr} {k : Nat}
    (h : ∀ s, ∃ t, exec i s = .next t ∧ ∀ n < 9, t.ringBit n = s.ringBit ((n + k) % 9)) (times : Nat) (s : State) :
    ∃ t, runAll (List.replicate times i) s = some t ∧ ∀ n < 9, t.ringBit n = s.ringBit ((n + times * k) % 9) := by
  induction times generalizing s with
  | zero =>
    refine ⟨s, rfl, fun n hn => ?_⟩
    rw [Nat.zero_mul, Nat.add_zero, Nat.mod_eq_of_lt hn]
  | succ times ih =>
    obtain ⟨t, hexec, hstep⟩ := h s
    obtain ⟨u, hrun, hrest⟩ := ih t
    refine ⟨u, ?_, fun n hn => ?_⟩
    · rw [List.replicate_succ, runAll, hexec]
      exact hrun
    · rw [hrest n hn, hstep _ (Nat.mod_lt _ (by decide)), Nat.mod_add_mod, Nat.succ_mul, Nat.add_assoc]

/-- Nine moves bring every bit back. -/
theorem runAll_nine_restores {i : Instr} {k : Nat}
    (h : ∀ s, ∃ t, exec i s = .next t ∧ ∀ n < 9, t.ringBit n = s.ringBit ((n + k) % 9)) (s : State) :
    ∃ t, runAll (List.replicate 9 i) s = some t ∧ t.A = s.A ∧ t.flag .C = s.flag .C := by
  obtain ⟨t, hrun, hring⟩ := runAll_replicate_ringBit h 9 s
  refine ⟨t, hrun, State.ringBit_ext fun n hn => ?_⟩
  rw [hring n hn, Nat.add_mul_mod_self_left, Nat.mod_eq_of_lt hn]

/-- ROLA brings back the bit that LSRA put into C. -/
theorem lsra_rola_A (s : State) : ((s.rmwAcc lsrByte .a).rmwAcc rolByte .a).A = s.A := by
  have hC : (s.rmwAcc lsrByte .a).flag .C = s.A.getLsbD 0 := flagOf_lsrByte s.A s.CC s.undefFlag .C
  have hA (k : Nat) : (s.rmwAcc lsrByte .a).A.getLsbD k = s.A.getLsbD (k + 1) :=
    getLsbD_lsrByte s.A s.CC s.undefFlag k
  refine BitVec.eq_of_getLsbD_eq fun n hn => (getLsbD_rolByte _ _ s.undefFlag hn).trans ?_
  by_cases h : n = 0
  · rw [if_pos h, flagOf_CC, hC, h]
  · have hsucc : n - 1 + 1 = n := by omega
    rw [if_neg h, State.acc, hA, hsucc]

/-- Settles O58: the ring moved nine times, LSRA undone by ROLA, and the shifts by one place. -/
theorem rotateLaws : Obligations.RotateLaws := by
  refine fun s => ⟨?rola, ?rora, ⟨_, rfl, lsra_rola_A s⟩, ?left, ?right⟩
  case rola => exact runAll_nine_restores (fun s => ⟨_, rfl, fun _ hn => ringBit_rola s hn⟩) s
  case rora => exact runAll_nine_restores (fun s => ⟨_, rfl, fun _ hn => ringBit_rora s hn⟩) s
  case left =>
    intro i hi
    simp only [List.mem_cons, List.not_mem_nil, or_false] at hi
    rcases hi with rfl | rfl
    · exact ⟨_, rfl, fun n hn => getLsbD_aslByte_succ s.A s.CC s.undefFlag hn⟩
    · exact ⟨_, rfl, fun n hn => getLsbD_rolByte s.A s.CC s.undefFlag (by omega)⟩
  case right =>
    intro i hi
    simp only [List.mem_cons, List.not_mem_nil, or_false] at hi
    rcases hi with rfl | rfl | rfl
    · exact ⟨_, rfl, fun n hn => getLsbD_asrByte s.A s.CC s.undefFlag hn⟩
    · exact ⟨_, rfl, fun n _ => getLsbD_lsrByte s.A s.CC s.undefFlag n⟩
    · exact ⟨_, rfl, fun n hn => (getLsbD_rorByte s.A s.CC s.undefFlag (by omega)).trans (if_neg (by omega))⟩

end Sys2Proof.Machine
end

