-- ==== Sys2Proof/Proofs/WordOperand.lean ====
section
/-! A 16-bit register and a word of memory: ADDD, SUBD, and CMP, LD and ST of D, S, U, X and Y
(42_16bit_accumulator_memory.md R250 to R254, R256, R257; 43_index_stack.md R271 to R278, R291 to R294). -/

namespace Sys2Proof.Machine

/-! Encodings: a 16-bit column, on any page (30_encoding.md R95, R97). -/

theorem encodesMem_of_column {i : Mem → Instr} {pre : List Byte} {op : Byte}
    (h : ∀ o, encode (i o) = pre ++ encodeColumnMem op o) : EncodesMem i pre (op + 0x10) (op + 0x20) (op + 0x30) :=
  ⟨fun d => h (.dir d), fun x => h (.idx x), fun a => h (.ext a)⟩

theorem encodesSrc16_of_column {i : Src16 → Instr} {pre : List Byte} {op : Byte}
    (h : ∀ o, encode (i o) = pre ++ encodeSrc16 op o) :
    EncodesSrc16 i pre op (op + 0x10) (op + 0x20) (op + 0x30) :=
  ⟨fun m => h (.imm m), encodesMem_of_column fun o => h (.mem o)⟩

/-! Add16 and Sub16: overflow as the exact signed result leaving a word (42_16bit_accumulator_memory.md R251). -/

theorem overflows16_eq (x : Int) : overflows16 x = (decide (x ≥ 2 ^ 15) || decide (x < -2 ^ 15)) := by
  rw [Bool.eq_iff_iff, Bool.or_eq_true, decide_eq_true_iff, decide_eq_true_iff, decide_eq_true_iff]
  omega

theorem add16_overflow (a b : Word) : (add16 a b).v = overflows16 (a.toInt + b.toInt) :=
  calc
    (add16 a b).v = BitVec.saddOverflow a b := by rw [BitVec.saddOverflow_eq, add_eq_ofNat]; rfl
    _ = overflows16 (a.toInt + b.toInt) := (overflows16_eq _).symm

theorem sub16_overflow (a b : Word) : (sub16 a b).v = overflows16 (a.toInt - b.toInt) :=
  calc
    (sub16 a b).v = BitVec.ssubOverflow a b := by
      rw [BitVec.ssubOverflow_eq, sub16_eq]
      cases a.msb <;> cases b.msb <;> simp
    _ = overflows16 (a.toInt - b.toInt) := (overflows16_eq _).symm

/-! What a word operand leaves alone. -/

@[simp] theorem State.operand16_D (s : State) (o : Src16) : (s.operand16 o).2.D = s.D := by simp [State.D]

/-- What reads as the state after a word operand keeps memory. -/
theorem keepsMemory_operand16 {s t : State} {o : Src16} (h : NoByteChanged (s.operand16 o).2 t) :
    KeepsMemory s (s.operand16 o).2 t := by
  refine ⟨h, fun hbus a => (h a).trans ?_⟩
  exact State.readByte_congr (State.operand16_quiet hbus o).1 (s.operand16_memMap o) (s.operand16_tick o) a

/-! Stores of a word. -/

@[simp] theorem State.busWriteWord_CC (s : State) (a v : Word) : (s.busWriteWord a v).CC = s.CC := by
  rw [State.busWriteWord_eq]

/-- With no grant to come, a word write changes memory and nothing else. -/
theorem State.busWriteWord_frame_of_nil {s : State} (h : s.grants = []) (a v : Word) :
    s.busWriteWord a v = { s with mem := (s.busWriteWord a v).mem } := by
  rw [State.busWriteWord_of_nil h, State.writeByte_eq, State.writeByte_eq]

/-- With no grant to come, a word write stores its two bytes, the high one first, and no other. -/
theorem storesBytes_busWriteWord {s : State} (h : s.grants = []) (a v : Word) :
    StoresBytes s (s.busWriteWord a v) a [hiByte v, loByte v] := by
  have hquiet : (s.busWrite a (hiByte v)).grants = [] := by rw [State.busWrite_grants, h]; rfl
  intro b
  rw [State.busWriteWord, State.readByte_busWrite, State.kindAt_busWrite, State.grant_of_nil hquiet,
    State.readByte_busWrite, State.grant_of_nil h]
  by_cases hlow : a + 1 = b
  · subst hlow
    simp
  by_cases hhigh : a = b
  · subst hhigh
    simp
  have hoff : ¬ (b - a).toNat < [hiByte v, loByte v].length := by
    rw [List.length_cons, List.length_singleton]
    bv_omega
  rw [if_neg (fun hab => hlow hab.1), if_neg (fun hab => hhigh hab.1), if_neg (fun hlt => hoff hlt.1)]

/-! The meaning of each shared operation, with the flags taken from the CC it starts from. -/

theorem State.cmp16_eq (s : State) (r : Reg16) (o : Src16) :
    s.cmp16 r o =
      (s.operand16 o).2.setCC (arithFlags16 s.CC (sub16 ((s.operand16 o).2.reg16 r) (s.operand16 o).1)) := by
  simp [State.cmp16]

theorem State.load16_eq (s : State) (r : Reg16) (o : Src16) :
    s.load16 r o =
      ((s.operand16 o).2.loadReg16 r (s.operand16 o).1).setCC (moveFlags16 s.CC (s.operand16 o).1) := by
  simp [State.load16]

theorem State.store16_eq (s : State) (r : Reg16) (o : Mem) :
    s.store16 r o =
      ((s.resolve o).2.busWriteWord (s.resolve o).1 ((s.resolve o).2.reg16 r)).setCC
        (moveFlags16 s.CC ((s.resolve o).2.reg16 r)) := by
  simp [State.store16]

theorem State.arithD_eq (s : State) (o : Src16) (f : Word → Word → Sum16) :
    s.arithD o f =
      ((s.operand16 o).2.setD (f s.D (s.operand16 o).1).r).setCC
        (arithFlags16 s.CC (f s.D (s.operand16 o).1)) := by
  simp [State.arithD]

/-! The flags written. -/

/-- The flags of a difference of two words. -/
theorem subFlags16_of_cc {s t : State} {a m : Word} (h : t.CC = arithFlags16 s.CC (sub16 a m)) :
    SubFlags16 s t a m := by
  simp only [SubFlags16, NZ16, KeepsFlags, State.flag_of_cc h, flagOf_arithFlags16]
  exact ⟨⟨rfl, rfl⟩, rfl, sub16_overflow a m, by simp [State.flag]⟩

theorem moveFlags16_of_cc {s t : State} {v : Word} (h : t.CC = moveFlags16 s.CC v) : MoveFlags16 s t v := by
  simp only [MoveFlags16, NZ16, KeepsFlags, State.flag_of_cc h, flagOf_moveFlags16]
  exact ⟨⟨trivial, rfl⟩, trivial, by simp [State.flag]⟩

/-! One lemma a shared operation. -/

section
variable {i : Src16 → Instr} {r : Reg16}

theorem compares16_of_exec (h : ∀ o s, exec (i o) s = .next (s.cmp16 r o)) : Compares16 i r := by
  intro s o s₁
  refine ⟨s.cmp16 r o, h o s, ?_⟩
  rw [State.cmp16_eq]
  exact ⟨rfl, keepsMemory_operand16 fun _ => rfl, subFlags16_of_cc rfl⟩

theorem loads16_of_exec (h : ∀ o s, exec (i o) s = .next (s.load16 r o)) :
    Loads16 i (fun s v => s.loadReg16 r v) := by
  intro s o m s₁
  refine ⟨s.load16 r o, h o s, ?_⟩
  rw [State.load16_eq]
  exact ⟨rfl, keepsMemory_operand16 fun _ => s₁.readByte_loadReg16 r m _, moveFlags16_of_cc rfl⟩

end

theorem stores16_of_exec {i : Mem → Instr} {r : Reg16} (h : ∀ o s, exec (i o) s = .next (s.store16 r o)) :
    Stores16 i (fun s => s.reg16 r) := by
  intro s o ea s₁
  refine ⟨s.store16 r o, h o s, ?_⟩
  rw [State.store16_eq]
  refine ⟨rfl, fun hbus => ?_, moveFlags16_of_cc rfl⟩
  have hquiet : s₁.grants = [] := (State.resolve_quiet hbus o).2.1
  refine ⟨?_, ?_⟩
  · rw [State.busWriteWord_frame_of_nil hquiet]
    rfl
  · exact storesBytes_congr (storesBytes_busWriteWord hquiet ea _) (State.readByte_resolve_of_nil hbus o)
      (s.kindAt_resolve o)

/-- ADDD and SUBD change D and CC; the word in D and the flags are the rest of their statement. -/
theorem completes_arithD {i : Instr} {s : State} {o : Src16} {f : Word → Word → Sum16} {P : State → Prop}
    (h : exec i s = .next (s.arithD o f))
    (hP : ∀ t : State,
      t.D = (f s.D (s.operand16 o).1).r → t.CC = arithFlags16 s.CC (f s.D (s.operand16 o).1) → P t) :
    Completes i s fun t =>
      t = { (s.operand16 o).2 with A := t.A, B := t.B, CC := t.CC } ∧ KeepsMemory s (s.operand16 o).2 t ∧ P t := by
  refine ⟨s.arithD o f, h, ?_⟩
  rw [State.arithD_eq]
  exact ⟨rfl, keepsMemory_operand16 fun _ => rfl, hP _ ((s.operand16 o).2.setD_D _) rfl⟩

/-! The instructions. -/

/-- Settles O38: each form's encoding, and the sum and the difference with their flags. -/
theorem addSubtractD : Obligations.AddSubtractD := by
  refine ⟨encodesSrc16_of_column fun _ => rfl, encodesSrc16_of_column fun _ => rfl, fun s o => ⟨?addd, ?subd⟩⟩
  case addd =>
    refine completes_arithD (f := add16) rfl fun t hD hcc => ⟨hD, ?_⟩
    rw [hD]
    simp only [NZ16, KeepsFlags, State.flag_of_cc hcc, flagOf_arithFlags16]
    exact ⟨⟨rfl, rfl⟩, rfl, add16_overflow _ _, by simp [State.flag]⟩
  case subd => exact completes_arithD (f := sub16) rfl fun t hD hcc => ⟨hD, subFlags16_of_cc hcc⟩

/-- Settles O39: each form's encoding, and the shared comparison. -/
theorem compare16Instructions : Obligations.Compare16Instructions :=
  ⟨encodesSrc16_of_column fun _ => rfl, compares16_of_exec fun _ _ => rfl,
    encodesSrc16_of_column fun _ => rfl, compares16_of_exec fun _ _ => rfl,
    encodesSrc16_of_column fun _ => rfl, compares16_of_exec fun _ _ => rfl,
    encodesSrc16_of_column fun _ => rfl, compares16_of_exec fun _ _ => rfl,
    encodesSrc16_of_column fun _ => rfl, compares16_of_exec fun _ _ => rfl⟩

/-- Settles O40: each form's encoding, and the shared load. -/
theorem load16Instructions : Obligations.Load16Instructions :=
  ⟨encodesSrc16_of_column fun _ => rfl, loads16_of_exec (r := .d) fun _ _ => rfl,
    encodesSrc16_of_column fun _ => rfl, loads16_of_exec (r := .s) fun _ _ => rfl,
    encodesSrc16_of_column fun _ => rfl, loads16_of_exec (r := .u) fun _ _ => rfl,
    encodesSrc16_of_column fun _ => rfl, loads16_of_exec (r := .x) fun _ _ => rfl,
    encodesSrc16_of_column fun _ => rfl, loads16_of_exec (r := .y) fun _ _ => rfl⟩

/-- Settles O41: each form's encoding, and the shared store. -/
theorem store16Instructions : Obligations.Store16Instructions :=
  ⟨encodesMem_of_column (op := 0xCD) fun _ => rfl, stores16_of_exec (r := .d) fun _ _ => rfl,
    encodesMem_of_column (op := 0xCF) fun _ => rfl, stores16_of_exec (r := .s) fun _ _ => rfl,
    encodesMem_of_column (op := 0xCF) fun _ => rfl, stores16_of_exec (r := .u) fun _ _ => rfl,
    encodesMem_of_column (op := 0x8F) fun _ => rfl, stores16_of_exec (r := .x) fun _ _ => rfl,
    encodesMem_of_column (op := 0x8F) fun _ => rfl, stores16_of_exec (r := .y) fun _ _ => rfl⟩

end Sys2Proof.Machine
end

