-- ==== Sys2Proof/Proofs/SignExtension.lean ====
section
/-! SEX and ABX: B as a signed and as an unsigned number (42_16bit_accumulator_memory.md R255;
43_index_stack.md R298). -/

namespace Sys2Proof.Machine

/-! SEX. -/

/-- The byte that SEX makes is the high byte of B sign-extended. -/
theorem joinBytes_sexByte (b cc : Byte) (draw : Bool) : joinBytes (sexByte b cc draw).1 b = sext8 b := by
  rw [sext8, BitVec.signExtend_eq_append_of_le (by decide), BitVec.msb_eq_getLsbD_last]
  rfl

/-- N and Z of SEX are those of the new D; V is the bit drawn. -/
theorem flagOf_sexByte (b cc : Byte) (draw : Bool) (f : Flag) :
    flagOf (sexByte b cc draw).2 f =
      match f with | .N => (sext8 b).msb | .Z => sext8 b == 0 | .V => draw | f => flagOf cc f := by
  rw [← joinBytes_sexByte b cc draw]
  cases f <;> simp [sexByte, setNZ16]

theorem toInt_sext8 (b : Byte) : (sext8 b).toInt = b.toInt := BitVec.toInt_signExtend_of_le (by decide)

/-! ABX. -/

theorem toNat_zext8 (b : Byte) : (zext8 b).toNat = b.toNat := BitVec.toNat_setWidth_of_le (by decide)

/-- Settles O42: SEX by the word it leaves in D, ABX by the unsigned sum. -/
theorem signExtendAndAbx : Obligations.SignExtendAndAbx := by
  refine ⟨rfl, rfl, fun s => ⟨⟨_, rfl, rfl, ?sex⟩, rfl, ?abx⟩⟩
  case sex =>
    have hD : ((s.setA (sexByte s.B s.CC s.undefFlag).1).setCC (sexByte s.B s.CC s.undefFlag).2).D = sext8 s.B :=
      joinBytes_sexByte s.B s.CC s.undefFlag
    rw [hD]
    simp only [NZ16, KeepsFlags, State.flag, State.setCC_CC, flagOf_sexByte]
    exact ⟨toInt_sext8 s.B, ⟨trivial, rfl⟩, by simp⟩
  case abx =>
    rw [← toNat_zext8, ← add_eq_ofNat]
    rfl

end Sys2Proof.Machine
end

