-- ==== Sys2Proof/Proofs/Exchange.lean ====
section
/-! EXG as two register loads, whose values are read before either (43_index_stack.md R295, R296). -/

namespace Sys2Proof.Machine

/-- Two registers written with each other's earlier values, by any `get` and `put` of which a read sees the last write:
each reads as the other did, and every further register as before. -/
theorem get_put_put {R V : Type} [DecidableEq R] {get : State → R → V} {put : State → R → V → State}
    (h : ∀ s q r v, get (put s q v) r = if r = q then v else get s r) (s : State) (p q : R) :
    get (put (put s p (get s q)) q (get s p)) q = get s p ∧ get (put (put s p (get s q)) q (get s p)) p = get s q ∧
      ∀ r, r ≠ p → r ≠ q → get (put (put s p (get s q)) q (get s p)) r = get s r := by
  refine ⟨?_, ?_, fun r hp hq => ?_⟩
  · rw [h, if_pos rfl]
  · by_cases hpq : p = q
    · rw [hpq, h, if_pos rfl]
    · rw [h, if_neg hpq, h, if_pos rfl]
  · rw [h, if_neg hq, h, if_neg hp]

/-! Both values are read first, so that the order of the operands does not matter. -/

theorem State.exchange_comm8 (s : State) (p q : Reg8) : s.exchange (.r8 p) (.r8 q) = s.exchange (.r8 q) (.r8 p) := by
  cases p <;> cases q <;> rfl

theorem State.exchange_comm16 (s : State) (p q : Reg16) :
    s.exchange (.r16 p) (.r16 q) = s.exchange (.r16 q) (.r16 p) := by
  cases p <;> cases q <;> rfl

/-- Settles O47: the encoding, the order of the operands, and what the two writes leave. -/
theorem exchangeInstruction : Obligations.ExchangeInstruction := by
  refine ⟨fun p q => by rw [encode, encodeRegPair_eq], fun s p q => ⟨rfl, s.exchange_comm8 p q, ?byte⟩,
    fun s p q => ⟨rfl, s.exchange_comm16 p q, ?word⟩⟩
  case byte =>
    obtain ⟨hq, hp, hother⟩ := get_put_put State.reg8_setReg8 s p q
    refine ⟨(s.setReg8 p (s.reg8 q)).setReg8 q (s.reg8 p), rfl, hq, hp, hother, fun a => ?_, ?_⟩
    · rw [State.readByte_setReg8, State.readByte_setReg8]
    · rw [State.setReg8_frame, State.setReg8_frame s p]
  case word =>
    obtain ⟨hq, hp, hother⟩ := get_put_put State.reg16_loadReg16 s p q
    refine ⟨(s.loadReg16 p (s.reg16 q)).loadReg16 q (s.reg16 p), rfl, hq, hp, hother, fun a => ?_, ?_⟩
    · rw [State.readByte_loadReg16, State.readByte_loadReg16]
    · rw [State.loadReg16_frame, State.loadReg16_frame s p]

end Sys2Proof.Machine
end

