-- ==== Sys2Proof/Proofs/LoadAddress.lean ====
section
/-! LEAS, LEAU, LEAX and LEAY as the load of a register with the effective address (43_index_stack.md R279 to R283). -/

namespace Sys2Proof.Machine

@[simp] theorem State.loadReg16_CC (s : State) (r : Reg16) (v : Word) : (s.loadReg16 r v).CC = s.CC := by
  cases r <;> rfl

/-- What reads as the state after an indexed address keeps memory. -/
theorem keepsMemory_indexedEA {s t : State} {x : Indexed} (h : NoByteChanged (s.indexedEA x).2 t) :
    KeepsMemory s (s.indexedEA x).2 t :=
  ⟨h, fun hbus a => (h a).trans (State.readByte_resolve_of_nil hbus (.idx x) a)⟩

theorem keepsMemory_lea (s : State) (r : Reg16) (x : Indexed) : KeepsMemory s (s.indexedEA x).2 (s.lea r x) :=
  keepsMemory_indexedEA ((s.indexedEA x).2.readByte_loadReg16 r (s.indexedEA x).1)

/-- LEAX and LEAY write Z and no other flag. -/
theorem State.flag_leaZ (s : State) (r : Reg16) (x : Indexed) (f : Flag) :
    (s.leaZ r x).flag f = if .Z = f then (s.indexedEA x).1 == 0 else s.flag f := by
  simp [State.leaZ, State.lea, State.flag]

/-- LEA with Z: the load of the register, and the flags. -/
theorem completes_leaZ {i : Instr} {s : State} {r : Reg16} {x : Indexed} (h : exec i s = .next (s.leaZ r x)) :
    Completes i s fun t =>
      t = { (s.indexedEA x).2.loadReg16 r (s.indexedEA x).1 with CC := t.CC } ∧ KeepsMemory s (s.indexedEA x).2 t ∧
      t.flag .Z = decide ((s.indexedEA x).1 = 0) ∧ KeepsFlags s t [.E, .F, .H, .I, .N, .V, .C] := by
  refine ⟨s.leaZ r x, h, rfl, keepsMemory_lea s r x, ?_, ?_⟩
  · rw [State.flag_leaZ, if_pos rfl]
    rfl
  · simp [KeepsFlags, State.flag_leaZ]

/-- Settles O43: the encodings, the loads of S and U, those of X and Y with Z, and the two cases in which X is also the
pointer that the mode moves. -/
theorem loadEffectiveAddress : Obligations.LoadEffectiveAddress :=
  ⟨fun _ => rfl, fun _ => rfl, fun _ => rfl, fun _ => rfl,
    fun s x => ⟨⟨s.lea .s x, rfl, rfl, keepsMemory_lea s .s x⟩, ⟨s.lea .u x, rfl, rfl, keepsMemory_lea s .u x⟩,
      completes_leaZ (r := .x) rfl, completes_leaZ (r := .y) rfl⟩,
    fun s => ⟨⟨s.leaZ .x (.inc1 .x), rfl, rfl⟩, ⟨s.leaZ .x (.dec1 .x), rfl, rfl⟩⟩⟩

end Sys2Proof.Machine
end

