-- ==== Sys2Proof/Proofs/Pull.lean ====
section
/-! PULS and PULU: the registers loaded one after another from the bytes above the pointer (43_index_stack.md R286,
R289, R290). -/

namespace Sys2Proof.Machine

/-! A register loaded if it is listed. -/

/-- A byte register loaded if it is listed. -/
def State.setReg8If (s : State) (listed : Bool) (r : Reg8) (v : Byte) : State :=
  s.setReg8 r (if listed then v else s.reg8 r)

/-- A word register loaded if it is listed; S then arms NMI (92_eei_decisions.md D6). -/
def State.loadReg16If (s : State) (listed : Bool) (r : Reg16) (v : Word) : State :=
  match r with
  | .s => { s with S := if listed then v else s.S, nmiArmed := s.nmiArmed || listed }
  | r => s.loadReg16 r (if listed then v else s.reg16 r)

theorem State.setReg8If_false (s : State) (r : Reg8) (v : Byte) : s.setReg8If false r v = s := by
  cases r <;> rfl

theorem State.setReg8If_true (s : State) (r : Reg8) (v : Byte) : s.setReg8If true r v = s.setReg8 r v := rfl

theorem State.loadReg16If_false (s : State) (r : Reg16) (v : Word) : s.loadReg16If false r v = s := by
  cases r with
  | d => simp [State.loadReg16If, State.loadReg16, State.reg16, State.setD, State.D]
  | s => simp [State.loadReg16If]
  | _ => rfl

theorem State.loadReg16If_true (s : State) (r : Reg16) (v : Word) : s.loadReg16If true r v = s.loadReg16 r v := by
  cases r with
  | s => simp [State.loadReg16If, State.loadReg16, State.setS, State.arm]
  | _ => rfl

theorem State.setReg8_grants (s : State) (r : Reg8) (v : Byte) : (s.setReg8 r v).grants = s.grants := by
  cases r <;> rfl

theorem State.loadReg16_grants (s : State) (r : Reg16) (v : Word) : (s.loadReg16 r v).grants = s.grants := by
  cases r <;> rfl

/-! The pointer set, and the loads that do not depend on it. -/

@[simp] theorem State.sp_setSp (s : State) (k : Stack) (p : Word) : (s.setSp k p).sp k = p := by cases k <;> rfl

@[simp] theorem State.setSp_grants (s : State) (k : Stack) (p : Word) : (s.setSp k p).grants = s.grants := by cases k <;> rfl

theorem State.readByte_setSp (s : State) (k : Stack) (p a : Word) : (s.setSp k p).readByte a = s.readByte a := by
  cases k <;> rfl

theorem State.setSp_drop8 (s : State) (k : Stack) (p : Word) : (s.setSp k p).drop8 k = s.setSp k (p + 1) := by
  cases k <;> rfl

theorem State.setSp_setReg8 (s : State) (k : Stack) (p : Word) (r : Reg8) (v : Byte) :
    (s.setSp k p).setReg8 r v = (s.setReg8 r v).setSp k p := by
  cases k <;> cases r <;> rfl

/-- The word registers that a list can name do not include the pointer that moves (30_encoding.md R106). -/
theorem State.setSp_loadReg16 {k : Stack} {r : Reg16} (h : r ∈ [.x, .y, k.other, .pc]) (s : State) (p v : Word) :
    (s.setSp k p).loadReg16 r v = (s.loadReg16 r v).setSp k p := by
  simp only [List.mem_cons, List.not_mem_nil, or_false] at h
  rcases h with rfl | rfl | rfl | rfl <;> cases k <;> rfl

/-! Pulling. -/

/-- `t` is `s`, in which no grant is to come, with `n` bytes pulled: the pointer stands `n` bytes higher, and but for it
`t` is `u`, in which only registers have been loaded. -/
structure State.Pulled (s : State) (k : Stack) (n : Nat) (u t : State) : Prop where
  quiet : u.grants = []
  reads : NoByteChanged s u
  frame : t = u.setSp k (s.sp k + BitVec.ofNat 16 n)

theorem State.pulled_zero {s : State} (h : s.grants = []) (k : Stack) : s.Pulled k 0 s s where
  quiet := h
  reads := fun _ => rfl
  frame := by cases k <;> simp [State.setSp, State.sp, State.setS, State.setU]

/-- A pull of a byte register, listed or not. -/
theorem State.Pulled.pull8If {s u t : State} {k : Stack} {n : Nat} (h : s.Pulled k n u t) (listed : Bool) (r : Reg8) :
    s.Pulled k (n + listed.toNat) (u.setReg8If listed r (s.readByte (s.sp k + BitVec.ofNat 16 n)))
      (t.pull8If k listed r) := by
  obtain ⟨hquiet, hreads, rfl⟩ := h
  cases listed with
  | false =>
    rw [State.setReg8If_false]
    exact ⟨hquiet, hreads, rfl⟩
  | true =>
    rw [State.setReg8If_true]
    refine ⟨(u.setReg8_grants r _).trans hquiet, fun a => (u.readByte_setReg8 r _ a).trans (hreads a), ?_⟩
    refine (State.pull8_of_nil ((u.setSp_grants k _).trans hquiet) k r).trans ?_
    rw [State.sp_setSp, State.readByte_setSp, hreads, State.setSp_setReg8, State.setSp_drop8, BitVec.add_assoc,
      BitVec.ofNat_add]
    rfl

/-- A pull of a word register, listed or not. -/
theorem State.Pulled.pull16If {s u t : State} {k : Stack} {n : Nat} (h : s.Pulled k n u t) (listed : Bool) {r : Reg16}
    (hr : r ∈ [.x, .y, k.other, .pc]) :
    s.Pulled k (n + 2 * listed.toNat) (u.loadReg16If listed r (s.readWord (s.sp k + BitVec.ofNat 16 n)))
      (t.pull16If k listed r) := by
  obtain ⟨hquiet, hreads, rfl⟩ := h
  cases listed with
  | false =>
    rw [State.loadReg16If_false]
    exact ⟨hquiet, hreads, rfl⟩
  | true =>
    rw [State.loadReg16If_true]
    refine ⟨(u.loadReg16_grants r _).trans hquiet, fun a => (u.readByte_loadReg16 r _ a).trans (hreads a), ?_⟩
    refine (State.pull16_of_nil ((u.setSp_grants k _).trans hquiet) k r).trans ?_
    have hword (p a : Word) : (u.setSp k p).readWord a = s.readWord a := by
      rw [State.readWord, State.readByte_setSp, State.readByte_setSp, hreads, hreads, State.readWord]
    rw [State.sp_setSp, hword, State.setSp_drop8, State.setSp_loadReg16 hr, State.setSp_drop8, BitVec.add_assoc,
      BitVec.add_assoc, BitVec.ofNat_add]
    rfl

/-- The registers that a list names, loaded from the bytes at `p` and upward (43_index_stack.md R286). -/
def State.loadList (s : State) (k : Stack) (l : RegList) (p : Word) : State :=
  let byteAt (n : Nat) := s.readByte (p + BitVec.ofNat 16 n)
  let wordAt (n : Nat) := s.readWord (p + BitVec.ofNat 16 n)
  let oA := l.cc.toNat
  let oB := oA + l.a.toNat
  let oDP := oB + l.b.toNat
  let oX := oDP + l.dp.toNat
  let oY := oX + 2 * l.x.toNat
  let oUS := oY + 2 * l.y.toNat
  let oPC := oUS + 2 * l.us.toNat
  (((((((s.setReg8If l.cc .cc (byteAt 0)).setReg8If l.a .a (byteAt oA)).setReg8If l.b .b (byteAt oB)).setReg8If l.dp .dp
    (byteAt oDP)).loadReg16If l.x .x (wordAt oX)).loadReg16If l.y .y (wordAt oY)).loadReg16If l.us k.other
    (wordAt oUS)).loadReg16If l.pc .pc (wordAt oPC)

/-- A pull of a list loads the registers listed and leaves the pointer above their bytes. -/
theorem State.pulled_pullList {s : State} (h : s.grants = []) (k : Stack) (l : RegList) :
    s.Pulled k (l.cc.toNat + l.a.toNat + l.b.toNat + l.dp.toNat + 2 * l.x.toNat + 2 * l.y.toNat + 2 * l.us.toNat +
      2 * l.pc.toNat) (s.loadList k l (s.sp k)) (s.pullList k l) := by
  have hcc := (State.pulled_zero h k).pull8If l.cc .cc
  rw [Nat.zero_add] at hcc
  have hbytes := ((hcc.pull8If l.a .a).pull8If l.b .b).pull8If l.dp .dp
  have hxy := (hbytes.pull16If l.x (r := .x) (by simp)).pull16If l.y (r := .y) (by simp)
  exact (hxy.pull16If l.us (r := k.other) (by simp)).pull16If l.pc (r := .pc) (by simp)

/-- An instruction that pulls completes, changes no byte, and leaves its loads and the pointer moved. -/
theorem completes_of_pulled {i : Instr} {s u t : State} {k : Stack} {n : Nat} (h : exec i s = .next t)
    (hpulled : s.Pulled k n u t) :
    Completes i s fun t => NoByteChanged s t ∧ t = u.setSp k (s.sp k + BitVec.ofNat 16 n) := by
  obtain ⟨-, hreads, rfl⟩ := hpulled
  refine ⟨_, h, fun a => ?_, rfl⟩
  rw [State.readByte_setSp, hreads]

/-- Settles O45: the encodings, and each pull as the loads of its list. -/
theorem pullInstructions : Obligations.PullInstructions :=
  ⟨fun _ => ⟨rfl, rfl⟩, fun _ l hbus =>
    ⟨completes_of_pulled (k := .s) rfl (State.pulled_pullList hbus .s l),
      completes_of_pulled (k := .u) rfl (State.pulled_pullList hbus .u l)⟩⟩

end Sys2Proof.Machine
end

