-- ==== Sys2Proof/Proofs/Branches.lean ====
section
/-! The branches, short and long: the offset as a number, and the conditions as relations of the flags
(44_branches.md R310 to R327, R329 to R344). -/

namespace Sys2Proof.Machine

/-! One branch, by its condition. -/

/-- A short offset is signed. -/
theorem State.branch_sext8 (s : State) (c : Cond) (d : Byte) :
    s.branch c (sext8 d) = if c.holds s.CC then { s with PC := BitVec.ofInt 16 (s.PC.toNat + d.toInt) } else s := by
  rw [State.branch, sext8, add_signExtend_eq_ofInt]
  rfl

/-- A long offset may be added as an unsigned number, since PC is taken modulo 2^16. -/
theorem State.branch_eq_ofNat (s : State) (c : Cond) (d : Word) :
    s.branch c d = if c.holds s.CC then { s with PC := BitVec.ofNat 16 (s.PC.toNat + d.toNat) } else s := by
  rw [State.branch, add_eq_ofNat]
  rfl

theorem shortBranches_of_cond {i : Byte → Instr} {op : Byte} {taken : State → Bool} (c : Cond)
    (hcond : ∀ s, c.holds s.CC = taken s)
    (hinstr : ∀ d s, encode (i d) = [op, d] ∧ cycles (i d) s = 3 ∧ exec (i d) s = .next (s.branch c (sext8 d))) :
    ShortBranches i op taken := by
  intro d s
  obtain ⟨hencode, hcycles, hexec⟩ := hinstr d s
  rw [State.branch_sext8, hcond] at hexec
  exact ⟨hencode, hcycles, hexec⟩

theorem longBranches_of_cond {i : Word → Instr} {op : Byte} {taken : State → Bool} (c : Cond)
    (hcond : ∀ s, c.holds s.CC = taken s)
    (hinstr : ∀ d s, encode (i d) = [0x10, op, hiByte d, loByte d] ∧ cycles (i d) s = longCycles s c ∧
      exec (i d) s = .next (s.branch c d)) :
    LongBranches i op taken := by
  intro d s
  obtain ⟨hencode, hcycles, hexec⟩ := hinstr d s
  rw [longCycles, hcond] at hcycles
  rw [State.branch_eq_ofNat, hcond] at hexec
  exact ⟨hencode, hcycles, hexec⟩

/-! The two signed conditions that 44_branches.md R311 writes as a complement: N and V are equal. -/

theorem holds_ge (s : State) : Cond.ge.holds s.CC = (s.flag .N == s.flag .V) := Bool.not_not _

theorem holds_gt (s : State) : Cond.gt.holds s.CC = (!s.flag .Z && s.flag .N == s.flag .V) := by
  rw [← holds_ge]
  exact Bool.not_or _ _

/-! The branches. -/

/-- Settles O48, branch by branch, by the condition of each. -/
theorem shortBranchesUnsignedAndSimple : Obligations.ShortBranchesUnsignedAndSimple :=
  ⟨shortBranches_of_cond .ra (fun _ => rfl) fun _ _ => ⟨rfl, rfl, rfl⟩,
    shortBranches_of_cond .rn (fun _ => rfl) fun _ _ => ⟨rfl, rfl, rfl⟩,
    shortBranches_of_cond .hi (fun _ => rfl) fun _ _ => ⟨rfl, rfl, rfl⟩,
    shortBranches_of_cond .ls (fun _ => rfl) fun _ _ => ⟨rfl, rfl, rfl⟩,
    shortBranches_of_cond .hs (fun _ => rfl) fun _ _ => ⟨rfl, rfl, rfl⟩,
    shortBranches_of_cond .lo (fun _ => rfl) fun _ _ => ⟨rfl, rfl, rfl⟩,
    shortBranches_of_cond .ne (fun _ => rfl) fun _ _ => ⟨rfl, rfl, rfl⟩,
    shortBranches_of_cond .eq (fun _ => rfl) fun _ _ => ⟨rfl, rfl, rfl⟩⟩

/-- Settles O49, branch by branch: `N ≠ V` is the model's `N ⊕ V`, and `N = V` its complement. -/
theorem shortBranchesSigned : Obligations.ShortBranchesSigned :=
  ⟨shortBranches_of_cond .vc (fun _ => rfl) fun _ _ => ⟨rfl, rfl, rfl⟩,
    shortBranches_of_cond .vs (fun _ => rfl) fun _ _ => ⟨rfl, rfl, rfl⟩,
    shortBranches_of_cond .pl (fun _ => rfl) fun _ _ => ⟨rfl, rfl, rfl⟩,
    shortBranches_of_cond .mi (fun _ => rfl) fun _ _ => ⟨rfl, rfl, rfl⟩,
    shortBranches_of_cond .ge holds_ge fun _ _ => ⟨rfl, rfl, rfl⟩,
    shortBranches_of_cond .lt (fun _ => rfl) fun _ _ => ⟨rfl, rfl, rfl⟩,
    shortBranches_of_cond .gt holds_gt fun _ _ => ⟨rfl, rfl, rfl⟩,
    shortBranches_of_cond .le (fun _ => rfl) fun _ _ => ⟨rfl, rfl, rfl⟩⟩

/-- Settles O50: LBRA and LBRN as the branches always and never taken, the others by the condition of each. -/
theorem longBranchesUnsignedAndSimple : Obligations.LongBranchesUnsignedAndSimple :=
  ⟨fun d s => ⟨rfl, rfl, congrArg Host.Outcome.next (s.branch_eq_ofNat .ra d)⟩,
    fun d s => ⟨rfl, rfl, congrArg Host.Outcome.next (s.branch_eq_ofNat .rn d)⟩,
    longBranches_of_cond .hi (fun _ => rfl) fun _ _ => ⟨rfl, rfl, rfl⟩,
    longBranches_of_cond .ls (fun _ => rfl) fun _ _ => ⟨rfl, rfl, rfl⟩,
    longBranches_of_cond .hs (fun _ => rfl) fun _ _ => ⟨rfl, rfl, rfl⟩,
    longBranches_of_cond .lo (fun _ => rfl) fun _ _ => ⟨rfl, rfl, rfl⟩,
    longBranches_of_cond .ne (fun _ => rfl) fun _ _ => ⟨rfl, rfl, rfl⟩,
    longBranches_of_cond .eq (fun _ => rfl) fun _ _ => ⟨rfl, rfl, rfl⟩⟩

/-- Settles O51, branch by branch, with the conditions of the short branches. -/
theorem longBranchesSigned : Obligations.LongBranchesSigned :=
  ⟨longBranches_of_cond .vc (fun _ => rfl) fun _ _ => ⟨rfl, rfl, rfl⟩,
    longBranches_of_cond .vs (fun _ => rfl) fun _ _ => ⟨rfl, rfl, rfl⟩,
    longBranches_of_cond .pl (fun _ => rfl) fun _ _ => ⟨rfl, rfl, rfl⟩,
    longBranches_of_cond .mi (fun _ => rfl) fun _ _ => ⟨rfl, rfl, rfl⟩,
    longBranches_of_cond .ge holds_ge fun _ _ => ⟨rfl, rfl, rfl⟩,
    longBranches_of_cond .lt (fun _ => rfl) fun _ _ => ⟨rfl, rfl, rfl⟩,
    longBranches_of_cond .gt holds_gt fun _ _ => ⟨rfl, rfl, rfl⟩,
    longBranches_of_cond .le (fun _ => rfl) fun _ _ => ⟨rfl, rfl, rfl⟩⟩

end Sys2Proof.Machine
end

