-- ==== Sys2Proof/Proofs/Subroutines.lean ====
section
/-! BSR, LBSR and JSR as one call, JMP, and RTS as the pull of PC (44_branches.md R328, R345; 45_miscellaneous.md R365,
R366, R368). -/

namespace Sys2Proof.Machine

/-! Calls. -/

/-- The return address pushed and PC loaded: what BSR, LBSR and JSR have in common. -/
def State.call (s : State) (target : Word) : State := (s.push16 .s s.PC).setPC target

theorem exec_bsr (d : Byte) (s : State) :
    exec (.bsr d) s = .next (s.call (BitVec.ofInt 16 (s.PC.toNat + d.toInt))) := by
  rw [← add_signExtend_eq_ofInt]
  rfl

theorem exec_lbsr (d : Word) (s : State) :
    exec (.lbsr d) s = .next (s.call (BitVec.ofNat 16 (s.PC.toNat + d.toNat))) := by
  rw [← add_eq_ofNat]
  rfl

theorem exec_jsr (o : Mem) (s : State) : exec (.jsr o) s = .next ((s.resolve o).2.call (s.resolve o).1) := rfl

theorem State.pushed_returnAddress {s : State} (h : s.grants = []) :
    s.Pushed .s [hiByte s.PC, loByte s.PC] (s.push16 .s s.PC) :=
  (State.pushed_nil h .s).push16 s.PC

/-- With no grant to come, a call changes S, PC and memory, and nothing else. -/
theorem State.call_frame {s : State} (h : s.grants = []) (target : Word) :
    s.call target = { s with S := s.S - 2, PC := target, mem := (s.call target).mem } :=
  congrArg (·.setPC target) (State.pushed_returnAddress h).frame

/-- With no grant to come, a call stores the return address at the new S, and no other byte. -/
theorem State.storesBytes_call {s : State} (h : s.grants = []) (target : Word) :
    StoresBytes s (s.call target) (s.S - 2) [hiByte s.PC, loByte s.PC] :=
  (State.pushed_returnAddress h).stored

/-! Jumps and returns. -/

/-- What reads as the state after the address of a memory operand keeps memory. -/
theorem keepsMemory_resolve {s t : State} {o : Mem} (h : NoByteChanged (s.resolve o).2 t) :
    KeepsMemory s (s.resolve o).2 t :=
  ⟨h, fun hbus a => (h a).trans (State.readByte_resolve_of_nil hbus o a)⟩

/-- With no grant to come, a pull of PC loads it with the word at S, and S moves past that word. -/
theorem State.pull16_s_pc_of_nil {s : State} (h : s.grants = []) :
    s.pull16 .s .pc = { s with PC := s.readWord s.S, S := s.S + 2 } :=
  calc
    s.pull16 .s .pc = { s with PC := s.readWord s.S, S := s.S + 1 + 1 } := State.pull16_of_nil h .s .pc
    _ = { s with PC := s.readWord s.S, S := s.S + 2 } := by rw [BitVec.add_assoc]; rfl

/-- Settles O52: the encodings, the three calls by their targets, JMP, and RTS as the pull of PC. -/
theorem subroutineCallsAndReturns : Obligations.SubroutineCallsAndReturns := by
  refine ⟨fun _ => rfl, fun _ => rfl, encodesMem_of_encodeMem fun _ => rfl, encodesMem_of_encodeMem fun _ => rfl, rfl,
    fun s d hbus => ⟨rfl, ?bsr⟩, fun s d hbus => ⟨rfl, ?lbsr⟩, fun s o => ⟨?jmp, fun hbus => ?jsr⟩,
    fun s hbus => ⟨rfl, ?rts⟩⟩
  case bsr => exact ⟨_, exec_bsr d s, State.call_frame hbus _, State.storesBytes_call hbus _⟩
  case lbsr => exact ⟨_, exec_lbsr d s, State.call_frame hbus _, State.storesBytes_call hbus _⟩
  case jmp => exact ⟨(s.resolve o).2.setPC (s.resolve o).1, rfl, rfl, keepsMemory_resolve fun _ => rfl⟩
  case jsr =>
    have hquiet : (s.resolve o).2.grants = [] := (State.resolve_quiet hbus o).2.1
    have hstored := State.storesBytes_call hquiet (s.resolve o).1
    rw [State.resolve_PC] at hstored
    exact ⟨_, exec_jsr o s, State.call_frame hquiet _,
      storesBytes_congr hstored (State.readByte_resolve_of_nil hbus o) (s.kindAt_resolve o)⟩
  case rts => exact ⟨_, rfl, State.pull16_s_pc_of_nil hbus, fun a => by rw [State.pull16_s_pc_of_nil hbus]; rfl⟩

end Sys2Proof.Machine
end

