-- ==== Sys2Proof/Proofs/ConditionCodeWrites.lean ====
section
/-! ANDCC, ORCC and NOP (45_miscellaneous.md R361, R363, R364). -/

namespace Sys2Proof.Machine

theorem State.flag_setCC_and (s : State) (m : Byte) (f : Flag) :
    (s.setCC (s.CC &&& m)).flag f = (s.flag f && m.getLsbD f.bit) := flagOf_and s.CC m f

theorem State.flag_setCC_or (s : State) (m : Byte) (f : Flag) :
    (s.setCC (s.CC ||| m)).flag f = (s.flag f || m.getLsbD f.bit) := flagOf_or s.CC m f

/-- Settles O53: the encodings, and the two writes of CC bit by bit. -/
theorem conditionCodeInstructions : Obligations.ConditionCodeInstructions := by
  refine ⟨rfl, fun _ => rfl, fun _ => rfl, fun s m => ⟨rfl, rfl, ?andcc, ?orcc⟩⟩
  case andcc => exact ⟨s.setCC (s.CC &&& m), rfl, rfl, s.flag_setCC_and m⟩
  case orcc => exact ⟨s.setCC (s.CC ||| m), rfl, rfl, s.flag_setCC_or m⟩

end Sys2Proof.Machine
end

