-- ==== Sys2Proof/Proofs/InterruptEntry.lean ====
section
/-! The entry of an interrupt in two parts: the state stacked, then the masks and the vector; and the software interrupts
(60_exceptions.md R400, R406 to R408, R429; 45_miscellaneous.md R369 to R371). -/

namespace Sys2Proof.Machine

/-! The masks and the vector. -/

/-- The bits of CC that the entry of each kind sets after the stacking (60_exceptions.md R400). -/
def IntKind.mask : IntKind → Byte
  | .nmi => 0x50
  | .swi => 0x50
  | .irq => 0x10
  | .firq => 0x50
  | .swi2 => 0x00
  | .swi3 => 0x00

/-- The end of an entry, which is all of it in the wait state: the masks set and PC loaded from the vector. -/
def State.takeVector (s : State) (k : IntKind) : State := ((s.maskFor k).setRun .running).vectorFetch k.vector

theorem State.interrupt_of_wait {s : State} (h : s.run = .wait) (k : IntKind) : s.interrupt k = s.takeVector k := by
  rw [State.interrupt, if_pos h, State.takeVector]

theorem State.interrupt_of_not_wait {s : State} (h : s.run ≠ .wait) (k : IntKind) :
    s.interrupt k = (s.stackFor k).takeVector k := by
  rw [State.interrupt, if_neg h, State.takeVector]

/-- The masks are bits of CC, and only NMI clears the latch (60_exceptions.md R400, R403). -/
theorem State.maskFor_frame (s : State) (k : IntKind) :
    s.maskFor k = { s with CC := s.CC ||| k.mask, nmiPending := if k = .nmi then false else s.nmiPending } := by
  have hboth : putFlag (putFlag s.CC .I true) .F true = s.CC ||| 0x50 := BitVec.or_assoc s.CC 0x10 0x40
  have hnone : s.CC ||| 0x00 = s.CC := BitVec.or_zero
  cases k with
  | irq => rfl
  | nmi | swi | firq => simp only [State.maskFor, State.setFlag, hboth]; rfl
  | swi2 | swi3 => simp only [State.maskFor, IntKind.mask, hnone]; rfl

/-- With no grant to come, the end of an entry changes the masks, PC, the run state, the latch and the codes shown. -/
theorem State.takeVector_frame {s : State} (h : s.grants = []) (k : IntKind) :
    s.takeVector k =
      { s with
        CC := s.CC ||| k.mask, PC := vectorWord (s.takeVector k) k.vector, run := .running,
        nmiPending := if k = .nmi then false else s.nmiPending, shown := s.shown ++ [(false, true), (false, true)] } := by
  rw [State.takeVector, State.maskFor_frame, State.vectorFetch_of_nil (by exact h)]
  rfl

/-- With no grant to come, the end of an entry stores nothing. -/
theorem State.readByte_takeVector {s : State} (h : s.grants = []) (k : IntKind) : NoByteChanged s (s.takeVector k) :=
  fun a => by rw [State.takeVector_frame h]; rfl

/-- The end of an entry, from a state `t` that has stacked onto S and set CC to `cc`. -/
theorem State.takeVector_of_stacked {s t : State} {p : Word} {cc : Byte} (h : s.grants = [])
    (ht : t = { s with S := p, CC := cc, mem := t.mem }) (k : IntKind) :
    t.takeVector k =
      { s with
        S := p, CC := cc ||| k.mask, PC := vectorWord (t.takeVector k) k.vector, run := .running,
        mem := (t.takeVector k).mem, nmiPending := if k = .nmi then false else s.nmiPending,
        shown := s.shown ++ [(false, true), (false, true)] } := by
  generalize t.mem = m at ht
  subst ht
  have hend := State.takeVector_frame (s := { s with S := p, CC := cc, mem := m }) h k
  have hmem : (State.takeVector _ k).mem = m := congrArg State.mem hend
  rw [hmem]
  exact hend

/-! The stacking. -/

/-- The bytes that the entire state leaves from the new S up. -/
theorem State.pushed_stackEntire {s : State} (h : s.grants = []) : s.Pushed .s (entireImage s s.CC) s.stackEntire :=
  (((((((State.pushed_nil h .s).push16 s.PC).push16 s.U).push16 s.Y).push16 s.X).push8 s.DP).push8 s.B).push8 s.A
    |>.push8 s.CC

theorem State.pushed_stackSubset {s : State} (h : s.grants = []) :
    s.Pushed .s [s.CC, hiByte s.PC, loByte s.PC] s.stackSubset :=
  ((State.pushed_nil h .s).push16 s.PC).push8 s.CC

/-- The entire state stacked with this CC changes S, CC and memory, and nothing else. -/
theorem State.stackEntire_frame {s : State} (h : s.grants = []) (cc : Byte) :
    (s.setCC cc).stackEntire = { s with S := s.S - 12, CC := cc, mem := (s.setCC cc).stackEntire.mem } :=
  (State.pushed_stackEntire (s := s.setCC cc) h).frame

theorem State.storesBytes_stackEntire {s : State} (h : s.grants = []) (cc : Byte) :
    StoresBytes s (s.setCC cc).stackEntire (s.S - 12) (entireImage s cc) :=
  (State.pushed_stackEntire (s := s.setCC cc) h).stored

theorem State.stackSubset_frame {s : State} (h : s.grants = []) (cc : Byte) :
    (s.setCC cc).stackSubset = { s with S := s.S - 3, CC := cc, mem := (s.setCC cc).stackSubset.mem } :=
  (State.pushed_stackSubset (s := s.setCC cc) h).frame

theorem State.storesBytes_stackSubset {s : State} (h : s.grants = []) (cc : Byte) :
    StoresBytes s (s.setCC cc).stackSubset (s.S - 3) [cc, hiByte s.PC, loByte s.PC] :=
  (State.pushed_stackSubset (s := s.setCC cc) h).stored

/-- Every kind but FIRQ stacks the entire state with E set. -/
theorem State.stackFor_of_ne_firq (s : State) {k : IntKind} (hk : k ≠ .firq) :
    s.stackFor k = (s.setCC (s.CC ||| 0x80)).stackEntire := by
  cases k with
  | firq => exact absurd rfl hk
  | _ => rfl

/-- FIRQ stacks PC and CC with E clear. -/
theorem State.stackFor_firq (s : State) : s.stackFor .firq = (s.setCC (s.CC &&& 0x7F)).stackSubset := rfl

/-! The whole entry, with no grant to come. -/

/-- An entry of any kind but FIRQ, by a machine that is not waiting. -/
theorem State.entersEntire_interrupt {s : State} (h : s.grants = []) (hrun : s.run ≠ .wait) {k : IntKind}
    (hk : k ≠ .firq) :
    EntersEntire s (s.interrupt k) k.mask k.vector ∧
      (s.interrupt k).nmiPending = if k = .nmi then false else s.nmiPending := by
  have hframe := State.stackEntire_frame h (s.CC ||| 0x80)
  have hstored := State.storesBytes_stackEntire h (s.CC ||| 0x80)
  rw [State.interrupt_of_not_wait hrun, State.stackFor_of_ne_firq s hk]
  generalize (s.setCC (s.CC ||| 0x80)).stackEntire = t at hframe hstored
  have hquiet : t.grants = [] := by rw [hframe]; exact h
  have hend := State.takeVector_of_stacked h hframe k
  have hlatch := congrArg State.nmiPending hend
  refine ⟨⟨hend.trans ?_, fun b => (State.readByte_takeVector hquiet k b).trans (hstored b)⟩, hlatch⟩
  rw [hlatch]

/-- An entry of FIRQ, by a machine that is not waiting. -/
theorem State.entersSubset_interrupt {s : State} (h : s.grants = []) (hrun : s.run ≠ .wait) :
    EntersSubset s (s.interrupt .firq) 0xFFF6 := by
  have hframe := State.stackSubset_frame h (s.CC &&& 0x7F)
  have hstored := State.storesBytes_stackSubset h (s.CC &&& 0x7F)
  rw [State.interrupt_of_not_wait hrun, State.stackFor_firq]
  generalize (s.setCC (s.CC &&& 0x7F)).stackSubset = t at hframe hstored
  have hquiet : t.grants = [] := by rw [hframe]; exact h
  exact ⟨State.takeVector_of_stacked h hframe .firq,
    fun b => (State.readByte_takeVector hquiet .firq b).trans (hstored b)⟩

/-- An entry from the wait state, of any kind. -/
theorem State.entersStacked_interrupt {s : State} (h : s.grants = []) (hrun : s.run = .wait) (k : IntKind) :
    EntersStacked s (s.interrupt k) k.mask k.vector ∧
      (s.interrupt k).nmiPending = if k = .nmi then false else s.nmiPending := by
  rw [State.interrupt_of_wait hrun]
  have hend := State.takeVector_frame h k
  have hlatch := congrArg State.nmiPending hend
  refine ⟨hend.trans ?_, hlatch⟩
  rw [hlatch]

/-- Settles O12: the encodings and cycles, and each software interrupt as the entry of its kind. -/
theorem softwareInterrupts : Obligations.SoftwareInterrupts := by
  refine ⟨⟨rfl, rfl, rfl⟩, fun s hrun hbus => ⟨⟨rfl, rfl, rfl⟩, ?_⟩⟩
  have hwait : s.run ≠ .wait := by rw [hrun]; decide
  exact ⟨⟨s.interrupt .swi, rfl, State.entersEntire_interrupt hbus hwait (by decide)⟩,
    ⟨s.interrupt .swi2, rfl, State.entersEntire_interrupt hbus hwait (by decide)⟩,
    ⟨s.interrupt .swi3, rfl, State.entersEntire_interrupt hbus hwait (by decide)⟩⟩

end Sys2Proof.Machine
end

