-- ==== Sys2Proof/Proofs/InterruptReturn.lean ====
section
/-! RTI as the pulls that follow the pull of CC (45_miscellaneous.md R367; 60_exceptions.md R410). -/

namespace Sys2Proof.Machine

/-! Pulls of a register that is always pulled. -/

theorem State.Pulled.pull8 {s u t : State} {k : Stack} {n : Nat} (h : s.Pulled k n u t) (r : Reg8) :
    s.Pulled k (n + 1) (u.setReg8 r (s.readByte (s.sp k + BitVec.ofNat 16 n))) (t.pull8 k r) :=
  h.pull8If true r

theorem State.Pulled.pull16 {s u t : State} {k : Stack} {n : Nat} (h : s.Pulled k n u t) {r : Reg16}
    (hr : r ∈ [.x, .y, k.other, .pc]) :
    s.Pulled k (n + 2) (u.loadReg16 r (s.readWord (s.sp k + BitVec.ofNat 16 n))) (t.pull16 k r) := by
  have hpulled := h.pull16If true hr
  rwa [State.loadReg16If_true] at hpulled

/-! The return, with no grant to come. -/

/-- CC is pulled first, from the byte at S. -/
theorem State.pulled_cc {s : State} (h : s.grants = []) :
    s.Pulled .s 1 (s.setCC (s.readByte s.S)) (s.pull8 .s .cc) := by
  have hpulled := (State.pulled_zero h .s).pull8 .cc
  rwa [BitVec.add_zero] at hpulled

theorem State.flag_pull8_cc {s : State} (h : s.grants = []) :
    (s.pull8 .s .cc).flag .E = (s.readByte s.S).getLsbD 7 := by
  rw [(State.pulled_cc h).frame]
  rfl

/-- With E clear in the byte pulled, PC follows. -/
theorem State.pulled_returnFromInterrupt_subset {s : State} (h : s.grants = [])
    (hE : (s.readByte s.S).getLsbD 7 = false) :
    s.Pulled .s 3 ((s.setCC (s.readByte s.S)).setPC (s.readWord (s.S + 1))) s.returnFromInterrupt := by
  rw [← State.flag_pull8_cc h] at hE
  rw [State.returnFromInterrupt, if_neg (by rw [hE]; decide)]
  exact (State.pulled_cc h).pull16 (r := .pc) (by decide)

/-- The registers of the entire state but CC and PC, loaded from the bytes above CC at `p` (60_exceptions.md R400). -/
def State.loadEntire (s : State) (p : Word) : State :=
  { s with
    A := s.readByte (p + 1), B := s.readByte (p + 2), DP := s.readByte (p + 3), X := s.readWord (p + 4),
    Y := s.readWord (p + 6), U := s.readWord (p + 8) }

/-- With E set in the byte pulled, the rest of the entire state follows, PC last. -/
theorem State.pulled_returnFromInterrupt_entire {s : State} (h : s.grants = [])
    (hE : (s.readByte s.S).getLsbD 7 = true) :
    s.Pulled .s 12 (((s.loadEntire s.S).setCC (s.readByte s.S)).setPC (s.readWord (s.S + 10))) s.returnFromInterrupt := by
  rw [← State.flag_pull8_cc h] at hE
  rw [State.returnFromInterrupt, if_pos hE]
  have hbytes := (((State.pulled_cc h).pull8 .a).pull8 .b).pull8 .dp
  have hwords := ((hbytes.pull16 (r := .x) (by decide)).pull16 (r := .y) (by decide)).pull16 (r := .u) (by decide)
  exact hwords.pull16 (r := .pc) (by decide)

theorem cycles_rti {s : State} (h : s.grants = []) :
    cycles .rti s = if (s.readByte s.S).getLsbD 7 then 15 else 6 := by
  rw [cycles, State.grant_of_nil h]
  rfl

/-- Settles O14: the cycles, and the return in the two cases of the E pulled. -/
theorem returnFromInterrupt : Obligations.ReturnFromInterrupt := by
  refine ⟨rfl, fun s hbus => ⟨cycles_rti hbus, ?_⟩⟩
  cases hE : (s.readByte s.S).getLsbD 7 with
  | false => exact completes_of_pulled rfl (State.pulled_returnFromInterrupt_subset hbus hE)
  | true => exact completes_of_pulled rfl (State.pulled_returnFromInterrupt_entire hbus hE)

end Sys2Proof.Machine
end

