-- ==== Sys2Proof/Proofs/WaitAndSync.lean ====
section
/-! CWAI and SYNC, and the steps of the states they leave (45_miscellaneous.md R362, R372; 60_exceptions.md R412 to R414). -/

namespace Sys2Proof.Machine

/-! The interrupt recognised, by what the pins and the latch ask for at this boundary. -/

section
variable {s : State}

theorem State.recognised_sample (s : State) :
    s.sample.recognised =
      if s.nmiNow then some .nmi else if s.firqNow then some .firq else if s.irqNow then some .irq else none := by
  have hnmi : (s.sample.nmiPending && s.sample.nmiArmed) = s.nmiNow := by
    change ((s.nmiPending || (s.nextPins.nmiEdge && s.nmiArmed)) && s.nmiArmed) = s.nmiNow
    cases harmed : s.nmiArmed <;> simp [State.nmiNow, harmed]
  rw [State.recognised, hnmi]
  rfl

theorem State.recognised_nmi (hnmi : s.nmiNow = true) : s.sample.recognised = some .nmi := by
  rw [State.recognised_sample, if_pos hnmi]

theorem State.recognised_firq (hnmi : s.nmiNow = false) (hfirq : s.firqNow = true) :
    s.sample.recognised = some .firq := by
  simp [State.recognised_sample, hnmi, hfirq]

theorem State.recognised_irq (hnmi : s.nmiNow = false) (hfirq : s.firqNow = false) (hirq : s.irqNow = true) :
    s.sample.recognised = some .irq := by
  simp [State.recognised_sample, hnmi, hfirq, hirq]

theorem State.recognised_none (hnmi : s.nmiNow = false) (hfirq : s.firqNow = false) (hirq : s.irqNow = false) :
    s.sample.recognised = none := by
  simp [State.recognised_sample, hnmi, hfirq, hirq]

/-! A step of the wait state. -/

theorem step_of_wait (hrun : s.run = .wait) : step s = .next s.sample.waitStep := by
  have hrun : s.sample.run = .wait := hrun
  rw [step, hrun]

theorem State.waitStep_of_res (hres : s.pins.res = true) : s.waitStep = s.resetSequence := by
  rw [State.waitStep, if_pos hres]

/-- An interrupt recognised in the wait state is entered (60_exceptions.md R414). -/
theorem State.waitStep_of_some (hres : s.pins.res = false) (hdma : s.pins.dma = false) {k : IntKind}
    (hk : s.recognised = some k) : s.waitStep = s.interrupt k := by
  simp [State.waitStep, hres, hdma, hk]

theorem State.waitStep_of_none (hres : s.pins.res = false) (hdma : s.pins.dma = false) (hk : s.recognised = none) :
    s.waitStep = s := by
  simp [State.waitStep, hres, hdma, hk]

/-- The step of the wait state in which this interrupt is recognised: its entry, with nothing stacked. -/
theorem stepsTo_entersStacked (hrun : s.run = .wait) (hbus : s.sample.KeepsBus) (hres : s.nextPins.res = false)
    (hdma : s.nextPins.dma = false) {k : IntKind} (hk : s.sample.recognised = some k) :
    StepsTo s fun t => EntersStacked s.sample t k.mask k.vector ∧
      t.nmiPending = if k = .nmi then false else s.sample.nmiPending := by
  refine ⟨s.sample.interrupt k, ?_, State.entersStacked_interrupt hbus hrun k⟩
  rw [step_of_wait hrun, State.waitStep_of_some hres hdma hk]

/-! A step of the sync state. -/

theorem step_of_sync (hrun : s.run = .sync) : step s = .next s.sample.syncStep := by
  have hrun : s.sample.run = .sync := hrun
  rw [step, hrun]

theorem State.syncStep_of_res (hres : s.pins.res = true) : s.syncStep = s.resetSequence := by
  rw [State.syncStep, if_pos hres]

theorem State.syncStep_of_nmi (hres : s.pins.res = false) (hdma : s.pins.dma = false)
    (hk : s.recognised = some .nmi) : s.syncStep = (s.setRun .running).interrupt .nmi := by
  simp [State.syncStep, hres, hdma, hk]

/-- FIRQ or IRQ recognised in the sync state is entered, unless its level is a brief pulse (60_exceptions.md R413). -/
theorem State.syncStep_of_maskable (hres : s.pins.res = false) (hdma : s.pins.dma = false) {k : IntKind}
    (hk : s.recognised = some k) (hne : k ≠ .nmi) :
    s.syncStep = if s.pins.brief then s.setRun .running else (s.setRun .running).interrupt k := by
  cases k with
  | nmi => exact absurd rfl hne
  | _ => simp [State.syncStep, hres, hdma, hk]

theorem State.syncStep_of_none (hres : s.pins.res = false) (hdma : s.pins.dma = false) (hk : s.recognised = none) :
    s.syncStep = if s.pins.firq || s.pins.irq then s.setRun .running else s := by
  simp [State.syncStep, hres, hdma, hk]

/-- The step of the sync state in which FIRQ or IRQ is recognised: a brief pulse only ends the state, else `P` holds after
the entry if it holds of the entry's state. -/
theorem step_sync_unless_brief (hrun : s.run = .sync) (hres : s.nextPins.res = false) (hdma : s.nextPins.dma = false)
    {k : IntKind} (hk : s.sample.recognised = some k) (hne : k ≠ .nmi) {P : State → Prop}
    (hP : P ((s.sample.setRun .running).interrupt k)) :
    if s.nextPins.brief then step s = .next { s.sample with run := .running } else StepsTo s P := by
  have hstep : step s = .next (if s.nextPins.brief then s.sample.setRun .running else _) :=
    (step_of_sync hrun).trans (congrArg _ (State.syncStep_of_maskable hres hdma hk hne))
  cases hbrief : s.nextPins.brief with
  | true => rw [hstep, hbrief]; rfl
  | false => exact ⟨_, by rw [hstep, hbrief]; rfl, hP⟩

/-- The entry of an interrupt from the sync state is that of the running MPU. -/
theorem State.entersEntire_of_sync (hbus : s.KeepsBus) {k : IntKind} (hk : k ≠ .firq) :
    EntersEntire s ((s.setRun .running).interrupt k) k.mask k.vector ∧
      ((s.setRun .running).interrupt k).nmiPending = if k = .nmi then false else s.nmiPending :=
  State.entersEntire_interrupt (s := s.setRun .running) hbus (by simp) hk

theorem State.entersSubset_of_sync (hbus : s.KeepsBus) :
    EntersSubset s ((s.setRun .running).interrupt .firq) 0xFFF6 :=
  State.entersSubset_interrupt (s := s.setRun .running) hbus (by simp)

end

theorem exec_cwai (m : Byte) (s : State) :
    exec (.cwai m) s = .next ((s.setCC ((s.CC &&& m) ||| 0x80)).stackEntire.setRun .wait) := by
  have hcc : (s.setCC (s.CC &&& m)).setFlag .E true = s.setCC ((s.CC &&& m) ||| 0x80) := rfl
  rw [← hcc]
  rfl

/-- CWAI stacks the entire state with the CC it has made, and waits. -/
theorem completes_cwai {s : State} (h : s.grants = []) (m : Byte) :
    Completes (.cwai m) s fun t =>
      t = { s with S := s.S - 12, CC := (s.CC &&& m) ||| 0x80, run := .wait, mem := t.mem } ∧
      StoresBytes s t (s.S - 12) (entireImage s ((s.CC &&& m) ||| 0x80)) := by
  have hframe := State.stackEntire_frame h ((s.CC &&& m) ||| 0x80)
  have hstored := State.storesBytes_stackEntire h ((s.CC &&& m) ||| 0x80)
  rw [Completes, exec_cwai]
  generalize (s.setCC ((s.CC &&& m) ||| 0x80)).stackEntire = t at hframe hstored ⊢
  exact ⟨t.setRun .wait, rfl, congrArg (·.setRun .wait) hframe, hstored⟩

/-- Settles O15: CWAI, and the steps of the wait state by what is recognised. -/
theorem waitForInterrupt : Obligations.WaitForInterrupt := by
  refine ⟨fun _ => rfl, fun m s hbus => ⟨Nat.le_refl 20, completes_cwai hbus m⟩, fun s hrun hbus => ⟨?res, ?_⟩⟩
  case res => exact fun hres => ⟨s.sample.resetSequence, by rw [step_of_wait hrun, State.waitStep_of_res hres], rfl⟩
  refine fun hres hdma => ⟨fun hnmi => ?nmi, fun hnmi hfirq => ?firq, fun hnmi hfirq hirq => ?irq,
    fun hnmi hfirq hirq => ?none⟩
  case nmi => exact stepsTo_entersStacked (k := .nmi) hrun hbus hres hdma (State.recognised_nmi hnmi)
  case firq => exact stepsTo_entersStacked (k := .firq) hrun hbus hres hdma (State.recognised_firq hnmi hfirq)
  case irq => exact stepsTo_entersStacked (k := .irq) hrun hbus hres hdma (State.recognised_irq hnmi hfirq hirq)
  case none => rw [step_of_wait hrun, State.waitStep_of_none hres hdma (State.recognised_none hnmi hfirq hirq)]

/-- Settles O16: SYNC, and the steps of the sync state by what is recognised. -/
theorem syncInstructionAndState : Obligations.SyncInstructionAndState := by
  refine ⟨rfl, fun s => ⟨Nat.le_refl 4, rfl⟩, fun s hrun hbus => ⟨?status, ?res, ?_⟩⟩
  case status => rw [State.busStatus, hrun]
  case res => exact fun hres => ⟨s.sample.resetSequence, by rw [step_of_sync hrun, State.syncStep_of_res hres], rfl⟩
  refine fun hres hdma => ⟨fun hnmi => ?nmi, fun hnmi hfirq => ?firq, fun hnmi hfirq hirq => ?irq,
    fun hnmi hfirq hirq => ?none⟩
  case nmi =>
    refine ⟨(s.sample.setRun .running).interrupt .nmi, ?_, State.entersEntire_of_sync hbus (k := .nmi) (by decide)⟩
    rw [step_of_sync hrun, State.syncStep_of_nmi hres hdma (State.recognised_nmi hnmi)]
  case firq =>
    exact step_sync_unless_brief hrun hres hdma (State.recognised_firq hnmi hfirq) (by decide)
      (State.entersSubset_of_sync hbus)
  case irq =>
    exact step_sync_unless_brief hrun hres hdma (State.recognised_irq hnmi hfirq hirq) (by decide)
      (State.entersEntire_of_sync hbus (k := .irq) (by decide))
  case none =>
    rw [step_of_sync hrun, State.syncStep_of_none hres hdma (State.recognised_none hnmi hfirq hirq)]
    rfl

end Sys2Proof.Machine
end

