-- ==== Sys2Proof/Proofs/HardwareInterrupts.lean ====
section
/-! NMI, FIRQ and IRQ at a boundary of the running MPU (60_exceptions.md R393, R394, R403 to R405). -/

namespace Sys2Proof.Machine

/-- With no pin stopping the MPU, the step is the boundary's. -/
theorem State.runningStep_of_unstopped {s : State} (hres : s.pins.res = false) (hdma : s.pins.dma = false)
    (hhalt : s.pins.halt = false) : s.runningStep = s.boundary := by
  simp [State.runningStep, hres, hdma, hhalt]

/-- An interrupt recognised at a boundary is entered, and no instruction runs (60_exceptions.md R393). -/
theorem State.boundary_of_recognised {s : State} {k : IntKind} (hk : s.recognised = some k) :
    s.boundary = .next (s.interrupt k) := by
  rw [State.boundary, hk]

theorem step_of_running {s : State} (hrun : s.run = .running) : step s = s.sample.runningStep := by
  have hrun : s.sample.run = .running := hrun
  rw [step, hrun]

/-- The step of the running MPU that no pin stops and in which this interrupt is recognised: its entry. -/
theorem step_of_recognised {s : State} (hrun : s.run = .running) (hres : s.nextPins.res = false)
    (hdma : s.nextPins.dma = false) (hhalt : s.nextPins.halt = false) {k : IntKind}
    (hk : s.sample.recognised = some k) : step s = .next (s.sample.interrupt k) :=
  calc step s = s.sample.runningStep := step_of_running hrun
    _ = s.sample.boundary := State.runningStep_of_unstopped hres hdma hhalt
    _ = .next (s.sample.interrupt k) := State.boundary_of_recognised hk

/-- Settles O11: what is recognised at the boundary, in the order of R394, and the entry of that kind. -/
theorem hardwareInterrupts : Obligations.HardwareInterrupts := by
  intro s hrun hbus hres hdma hhalt
  have hwait : s.sample.run ≠ .wait := by rw [State.sample_eq, hrun]; decide
  have hentry {k : IntKind} := step_of_recognised (k := k) hrun hres hdma hhalt
  refine ⟨fun hnmi => ?nmi, fun hnmi hfirq => ?firq, fun hnmi hfirq hirq => ?irq⟩
  case nmi =>
    exact ⟨_, hentry (State.recognised_nmi hnmi), State.entersEntire_interrupt hbus hwait (k := .nmi) (by decide)⟩
  case firq =>
    exact ⟨_, hentry (State.recognised_firq hnmi hfirq), State.entersSubset_interrupt hbus hwait⟩
  case irq =>
    exact ⟨_, hentry (State.recognised_irq hnmi hfirq hirq),
      State.entersEntire_interrupt hbus hwait (k := .irq) (by decide)⟩

end Sys2Proof.Machine
end

