-- ==== Sys2Proof/Proofs/BusFrame.lean ====
section
/-! What no operation of the MPU does to the bus: it leaves the memory map and the index of the free values alone, and
of the bus grants to come it only uses up the first ones (20_memory.md R62; 60_exceptions.md R422). -/

namespace Sys2Proof.Machine

/-- From `s` to `t` the map and the tick are kept, and the grants to come in `t` are the last ones of those in `s`. -/
structure State.SameBus (s t : State) : Prop where
  memMap : t.memMap = s.memMap
  tick : t.tick = s.tick
  grants : t.grants <:+ s.grants

section
variable {s t u : State}

theorem State.SameBus.refl (s : State) : s.SameBus s := ⟨rfl, rfl, List.suffix_rfl⟩

theorem State.SameBus.trans (hst : s.SameBus t) (htu : t.SameBus u) : s.SameBus u :=
  ⟨htu.memMap.trans hst.memMap, htu.tick.trans hst.tick, htu.grants.trans hst.grants⟩

/-- With no grant to come before, there is none to come after. -/
theorem State.SameBus.keepsBus (h : s.SameBus t) (hs : s.KeepsBus) : t.KeepsBus :=
  List.suffix_nil.mp (hs ▸ h.grants)

/-! Accesses. -/

theorem State.SameBus.grant (h : s.SameBus t) : s.SameBus t.grant :=
  h.trans ⟨t.grant_memMap, t.grant_tick, t.grant_grants ▸ List.tail_suffix _⟩

theorem State.SameBus.grantN (h : s.SameBus t) (n : Nat) : s.SameBus (State.grantN n t) := by
  induction n generalizing t with
  | zero => exact h
  | succ n ih => exact ih h.grant

theorem State.SameBus.busWrite (h : s.SameBus t) (a : Word) (v : Byte) : s.SameBus (t.busWrite a v) :=
  h.grant.trans (by constructor <;> simp)

theorem State.SameBus.busWriteWord (h : s.SameBus t) (a v : Word) : s.SameBus (t.busWriteWord a v) :=
  (h.busWrite _ _).busWrite _ _

/-! Writes of registers, of the run state and of the codes shown. -/

theorem State.SameBus.setA (h : s.SameBus t) (v : Byte) : s.SameBus (t.setA v) := h.trans ⟨rfl, rfl, List.suffix_rfl⟩

theorem State.SameBus.setX (h : s.SameBus t) (v : Word) : s.SameBus (t.setX v) := h.trans ⟨rfl, rfl, List.suffix_rfl⟩

theorem State.SameBus.setPC (h : s.SameBus t) (v : Word) : s.SameBus (t.setPC v) := h.trans ⟨rfl, rfl, List.suffix_rfl⟩

theorem State.SameBus.setTemp (h : s.SameBus t) (v : Word) : s.SameBus (t.setTemp v) :=
  h.trans ⟨rfl, rfl, List.suffix_rfl⟩

theorem State.SameBus.setD (h : s.SameBus t) (v : Word) : s.SameBus (t.setD v) := h.trans ⟨rfl, rfl, List.suffix_rfl⟩

theorem State.SameBus.setCC (h : s.SameBus t) (v : Byte) : s.SameBus (t.setCC v) := h.trans ⟨rfl, rfl, List.suffix_rfl⟩

theorem State.SameBus.setRun (h : s.SameBus t) (v : Run) : s.SameBus (t.setRun v) := h.trans ⟨rfl, rfl, List.suffix_rfl⟩

theorem State.SameBus.setFlag (h : s.SameBus t) (f : Flag) (b : Bool) : s.SameBus (t.setFlag f b) := h.setCC _

theorem State.SameBus.showCode (h : s.SameBus t) (c : Bool × Bool) : s.SameBus (t.showCode c) :=
  h.trans ⟨rfl, rfl, List.suffix_rfl⟩

theorem State.SameBus.setAcc (h : s.SameBus t) (r : Acc) (v : Byte) : s.SameBus (t.setAcc r v) := by
  cases r <;> exact h.trans ⟨rfl, rfl, List.suffix_rfl⟩

theorem State.SameBus.setReg8 (h : s.SameBus t) (r : Reg8) (v : Byte) : s.SameBus (t.setReg8 r v) := by
  cases r <;> exact h.trans ⟨rfl, rfl, List.suffix_rfl⟩

theorem State.SameBus.loadReg16 (h : s.SameBus t) (r : Reg16) (v : Word) : s.SameBus (t.loadReg16 r v) := by
  cases r <;> exact h.trans ⟨rfl, rfl, List.suffix_rfl⟩

theorem State.SameBus.setPtr (h : s.SameBus t) (r : Ptr) (v : Word) : s.SameBus (t.setPtr r v) := by
  cases r <;> exact h.trans ⟨rfl, rfl, List.suffix_rfl⟩

theorem State.SameBus.setSp (h : s.SameBus t) (r : Stack) (v : Word) : s.SameBus (t.setSp r v) := by
  cases r <;> exact h.trans ⟨rfl, rfl, List.suffix_rfl⟩

/-! Stacks. -/

theorem State.SameBus.push8 (h : s.SameBus t) (k : Stack) (v : Byte) : s.SameBus (t.push8 k v) :=
  (h.setSp k _).busWrite _ _

theorem State.SameBus.push16 (h : s.SameBus t) (k : Stack) (v : Word) : s.SameBus (t.push16 k v) :=
  (h.push8 k _).push8 k _

theorem State.SameBus.pull8 (h : s.SameBus t) (k : Stack) (r : Reg8) : s.SameBus (t.pull8 k r) :=
  (h.grant.setReg8 r _).setSp k _

theorem State.SameBus.pull16 (h : s.SameBus t) (k : Stack) (r : Reg16) : s.SameBus (t.pull16 k r) :=
  ((h.grant.setSp k _).grant.loadReg16 r _).setSp k _

theorem State.SameBus.push8If (h : s.SameBus t) (k : Stack) (listed : Bool) (v : Byte) :
    s.SameBus (t.push8If k listed v) := by
  cases listed with
  | false => exact h
  | true => exact h.push8 k v

theorem State.SameBus.push16If (h : s.SameBus t) (k : Stack) (listed : Bool) (v : Word) :
    s.SameBus (t.push16If k listed v) := by
  cases listed with
  | false => exact h
  | true => exact h.push16 k v

theorem State.SameBus.pull8If (h : s.SameBus t) (k : Stack) (listed : Bool) (r : Reg8) :
    s.SameBus (t.pull8If k listed r) := by
  cases listed with
  | false => exact h
  | true => exact h.pull8 k r

theorem State.SameBus.pull16If (h : s.SameBus t) (k : Stack) (listed : Bool) (r : Reg16) :
    s.SameBus (t.pull16If k listed r) := by
  cases listed with
  | false => exact h
  | true => exact h.pull16 k r

theorem State.SameBus.pushList (h : s.SameBus t) (k : Stack) (l : RegList) : s.SameBus (t.pushList k l) :=
  (((((((h.push16If k _ _).push16If k _ _).push16If k _ _).push16If k _ _).push8If k _ _).push8If k _ _).push8If
    k _ _).push8If k _ _

theorem State.SameBus.pullList (h : s.SameBus t) (k : Stack) (l : RegList) : s.SameBus (t.pullList k l) :=
  (((((((h.pull8If k _ _).pull8If k _ _).pull8If k _ _).pull8If k _ _).pull16If k _ _).pull16If k _ _).pull16If
    k _ _).pull16If k _ _

/-! Interrupts. -/

theorem State.SameBus.stackEntire (h : s.SameBus t) : s.SameBus t.stackEntire :=
  (((((((h.push16 .s _).push16 .s _).push16 .s _).push16 .s _).push8 .s _).push8 .s _).push8 .s _).push8 .s _

theorem State.SameBus.stackSubset (h : s.SameBus t) : s.SameBus t.stackSubset := (h.push16 .s _).push8 .s _

theorem State.SameBus.stackFor (h : s.SameBus t) (k : IntKind) : s.SameBus (t.stackFor k) := by
  cases k with
  | firq => exact (h.setFlag .E false).stackSubset
  | _ => exact (h.setFlag .E true).stackEntire

theorem State.SameBus.vectorFetch (h : s.SameBus t) (v : Word) : s.SameBus (t.vectorFetch v) :=
  ((h.grant.showCode _).grant.showCode _).setPC _

theorem State.SameBus.takeVector (h : s.SameBus t) (k : IntKind) : s.SameBus (t.takeVector k) := by
  have hmask : s.SameBus (t.maskFor k) := by rw [State.maskFor_frame]; exact h.trans ⟨rfl, rfl, List.suffix_rfl⟩
  exact (hmask.setRun .running).vectorFetch _

theorem State.SameBus.interrupt (h : s.SameBus t) (k : IntKind) : s.SameBus (t.interrupt k) := by
  by_cases hwait : t.run = .wait
  · rw [State.interrupt_of_wait hwait]; exact h.takeVector k
  · rw [State.interrupt_of_not_wait hwait]; exact (h.stackFor k).takeVector k

theorem State.SameBus.returnFromInterrupt (h : s.SameBus t) : s.SameBus t.returnFromInterrupt := by
  have hcc : s.SameBus (t.pull8 .s .cc) := h.pull8 .s .cc
  rw [State.returnFromInterrupt]
  split
  · exact ((((((hcc.pull8 .s _).pull8 .s _).pull8 .s _).pull16 .s _).pull16 .s _).pull16 .s _).pull16 .s _
  · exact hcc.pull16 .s _

/-! Operands. -/

theorem State.SameBus.finishEA (h : s.SameBus t) (ea : Word) (ind : Bool) : s.SameBus (t.finishEA ea ind).2 := by
  have htemp : s.SameBus (t.setTemp ea) := h.setTemp ea
  cases ind with
  | false => exact htemp
  | true => exact htemp.grant.grant

theorem State.SameBus.indexedEA (h : s.SameBus t) (x : Indexed) : s.SameBus (t.indexedEA x).2 := by
  cases x with
  | inc1 r | inc2 r _ | dec1 r | dec2 r _ => exact (h.setPtr r _).finishEA _ _
  | _ => exact h.finishEA _ _

theorem State.SameBus.resolve (h : s.SameBus t) (o : Mem) : s.SameBus (t.resolve o).2 := by
  cases o with
  | dir d => exact h.finishEA _ _
  | idx x => exact h.indexedEA x
  | ext a => exact h.finishEA _ _

theorem State.SameBus.operand8 (h : s.SameBus t) (o : Src8) : s.SameBus (t.operand8 o).2 := by
  cases o with
  | imm m => exact h
  | mem o => exact (h.resolve o).grant

theorem State.SameBus.operand16 (h : s.SameBus t) (o : Src16) : s.SameBus (t.operand16 o).2 := by
  cases o with
  | imm m => exact h
  | mem o => exact (h.resolve o).grant.grant

end

/-! Instructions. -/

theorem State.SameBus.of_next {s t u : State} (h : (.next u : Host.Outcome State Fault Refusal) = .next t)
    (hu : s.SameBus u) : s.SameBus t := Host.Outcome.next.inj h ▸ hu

theorem State.sameBus_branch (s : State) (c : Cond) (d : Word) : s.SameBus (s.branch c d) := by
  rw [State.branch]
  split
  · exact (State.SameBus.refl s).setPC _
  · exact State.SameBus.refl s

theorem State.sameBus_lea (s : State) (r : Reg16) (x : Indexed) : s.SameBus (s.lea r x) :=
  ((State.SameBus.refl s).indexedEA x).loadReg16 r _

theorem State.sameBus_transfer {s t : State} {r1 r2 : Reg} (h : s.transfer r1 r2 = .next t) : s.SameBus t := by
  cases r1 <;> cases r2
  case r8.r8 => cases h; exact (State.SameBus.refl s).setReg8 _ _
  case r16.r16 => cases h; exact (State.SameBus.refl s).loadReg16 _ _
  all_goals cases h

theorem State.sameBus_exchange {s t : State} {r1 r2 : Reg} (h : s.exchange r1 r2 = .next t) : s.SameBus t := by
  cases r1 <;> cases r2
  case r8.r8 => cases h; exact ((State.SameBus.refl s).setReg8 _ _).setReg8 _ _
  case r16.r16 => cases h; exact ((State.SameBus.refl s).loadReg16 _ _).loadReg16 _ _
  all_goals cases h

/-- No instruction touches the map or the tick, and the grants it leaves to come are the last ones. The cases are the
shared operations. -/
theorem exec_sameBus {i : Instr} {s t : State} (h : exec i s = .next t) : s.SameBus t := by
  have hrefl := State.SameBus.refl s
  cases i with
  | exg r1 r2 => exact State.sameBus_exchange h
  | tfr r1 r2 => exact State.sameBus_transfer h
  | adca o | adcb o | adda o | addb o | suba o | subb o | sbca o | sbcb o | anda o | andb o | eora o | eorb o | ora o
  | orb o | lda o | ldb o =>
    exact .of_next h (((hrefl.operand8 o).setAcc _ _).setCC _)
  | cmpa o | cmpb o | bita o | bitb o => exact .of_next h ((hrefl.operand8 o).setCC _)
  | sta o | stb o => exact .of_next h (((hrefl.resolve o).busWrite _ _).setCC _)
  | asl o | asr o | clr o | com o | dec o | inc o | lsr o | neg o | rol o | ror o =>
    exact .of_next h (((hrefl.resolve o).grant.busWrite _ _).setCC _)
  | asla | aslb | asra | asrb | clra | clrb | coma | comb | deca | decb | inca | incb | lsra | lsrb | nega | negb | rola
  | rolb | rora | rorb | daa =>
    exact .of_next h ((hrefl.setAcc _ _).setCC _)
  | tst o => exact .of_next h ((hrefl.resolve o).grant.setCC _)
  | tsta | tstb | andcc m | orcc m => exact .of_next h (hrefl.setCC _)
  | mul => exact .of_next h ((hrefl.setD _).setCC _)
  | sex => exact .of_next h ((hrefl.setA _).setCC _)
  | abx => exact .of_next h (hrefl.setX _)
  | addd o | subd o => exact .of_next h (((hrefl.operand16 o).setD _).setCC _)
  | cmpd o | cmps o | cmpu o | cmpx o | cmpy o => exact .of_next h ((hrefl.operand16 o).setCC _)
  | ldd o | lds o | ldu o | ldx o | ldy o => exact .of_next h (((hrefl.operand16 o).loadReg16 _ _).setCC _)
  | std o | sts o | stu o | stx o | sty o => exact .of_next h (((hrefl.resolve o).busWriteWord _ _).setCC _)
  | leas x | leau x => exact .of_next h (s.sameBus_lea _ x)
  | leax x | leay x => exact .of_next h ((s.sameBus_lea _ x).setFlag _ _)
  | pshs l | pshu l => exact .of_next h (hrefl.pushList _ l)
  | puls l | pulu l => exact .of_next h (hrefl.pullList _ l)
  | bra d | brn d | bhi d | bls d | bhs d | blo d | bne d | beq d | bvc d | bvs d | bpl d | bmi d
  | bge d | blt d | bgt d | ble d | lbra d | lbrn d | lbhi d | lbls d | lbhs d | lblo d | lbne d | lbeq d
  | lbvc d | lbvs d | lbpl d | lbmi d | lbge d | lblt d | lbgt d | lble d =>
    exact .of_next h (s.sameBus_branch _ _)
  | bsr d | lbsr d => exact .of_next h ((hrefl.push16 .s _).setPC _)
  | jsr o => exact .of_next h (((hrefl.resolve o).push16 .s _).setPC _)
  | jmp o => exact .of_next h ((hrefl.resolve o).setPC _)
  | rts => exact .of_next h (hrefl.pull16 .s _)
  | rti => exact .of_next h hrefl.returnFromInterrupt
  | swi | swi2 | swi3 => exact .of_next h (hrefl.interrupt _)
  | cwai m => exact .of_next h (((hrefl.setCC _).setFlag _ _).stackEntire.setRun _)
  | sync => exact .of_next h (hrefl.setRun _)
  | nop => exact .of_next h hrefl

/-- What runs at a boundary, an entry or an instruction with its fetches, touches neither the map nor the tick. -/
theorem State.sameBus_boundary {s t : State} (h : s.boundary = .next t) : s.SameBus t := by
  have hrefl := State.SameBus.refl s
  rw [State.boundary] at h
  split at h
  · cases h
    exact hrefl.interrupt _
  · rw [State.runInstruction] at h
    split at h
    · exact ((hrefl.grantN _).setPC _).trans (exec_sameBus h)
    · cases h

end Sys2Proof.Machine
end

