-- ==== Sys2Proof/Proofs/ResetSequence.lean ====
section
/-! RES: low in every run state but the halt, and its release (70_reset_and_hazards.md R450; 60_exceptions.md R402,
R428, R429). -/

namespace Sys2Proof.Machine

/-! The grants still to come, all taken. -/

theorem State.allGrants_of_nil {s : State} (h : s.grants = []) : s.allGrants = s := State.grantN_of_nil h _

theorem State.sameBus_allGrants (s : State) : s.SameBus s.allGrants := (State.SameBus.refl s).grantN _

/-! What RES leaves of memory. -/

/-- Each byte of an abandoned instruction is as before it or as after it (60_exceptions.md R402). -/
theorem mergeWrites_read (written : Nat → Bool) (before after : Memory) (a : Nat) :
    (mergeWrites written before after).read a = before.read a ∨
      (mergeWrites written before after).read a = after.read a := by
  rw [mergeWrites]
  generalize (before ++ after).map Prod.fst = as
  induction as generalizing before with
  | nil => exact .inl rfl
  | cons b as ih =>
    have hwrite : (if written b then before.write b (after.read b) else before).read a = before.read a ∨
        (if written b then before.write b (after.read b) else before).read a = after.read a := by
      by_cases hab : b = a
      · subst hab
        split
        · exact .inr (by rw [Memory.read_write, if_pos rfl])
        · exact .inl rfl
      · exact .inl (by split <;> simp [Memory.read_write, hab])
    exact (ih _).elim (fun hbefore => hwrite.imp hbefore.trans hbefore.trans) .inr

/-- What an abandoned instruction or entry leaves: the reset sequence, on a memory each byte of which is as the other
master left it or as it would have been. -/
theorem State.abandon_eq (s : State) (o : Host.Outcome State Fault Refusal) :
    ∃ m : Memory, s.abandon o = { s.allGrants with mem := m }.resetSequence ∧
      ∀ a, m.read a = s.allGrants.mem.read a ∨ ∃ u, o = .next u ∧ m.read a = u.allGrants.mem.read a := by
  cases o with
  | next u =>
    exact ⟨_, rfl, fun a => (mergeWrites_read _ _ _ a).imp_right fun hafter => ⟨u, rfl, hafter⟩⟩
  | fault _ | refused _ => exact ⟨s.allGrants.mem, rfl, fun _ => .inl rfl⟩

theorem State.readByte_eq_of_read {s t : State} {a : Word} (hmap : t.memMap = s.memMap) (htick : t.tick = s.tick)
    (hmem : t.mem.read a.toNat = s.mem.read a.toNat) : t.readByte a = s.readByte a := by
  simp [State.readByte, State.kindAt, hmap, htick, hmem]

/-! The reset sequence. -/

/-- The reset state: the fields that the reset sequence gives a value (70_reset_and_hazards.md R450). -/
def State.InReset (t : State) : Prop :=
  t.run = .reset ∧ t.DP = 0 ∧ t.flag .I = true ∧ t.flag .F = true ∧ t.nmiArmed = false ∧ t.nmiPending = false

theorem State.inReset_resetSequence (s : State) : s.resetSequence.InReset := by
  simp [State.InReset, State.resetSequence, State.flag]

theorem State.inReset_abandon (s : State) (o : Host.Outcome State Fault Refusal) : (s.abandon o).InReset := by
  obtain ⟨m, heq, -⟩ := s.abandon_eq o
  rw [heq]
  exact State.inReset_resetSequence _

theorem State.readByte_resetSequence (s : State) : NoByteChanged s s.resetSequence := fun _ => rfl

/-- A byte after a boundary that RES abandons (60_exceptions.md R402). -/
theorem State.readByte_abandon_boundary (s : State) (a : Word) :
    (s.abandon s.boundary).readByte a = s.allGrants.readByte a ∨
      ∃ u, s.boundary = .next u ∧ (s.abandon s.boundary).readByte a = u.allGrants.readByte a := by
  obtain ⟨m, heq, hbyte⟩ := s.abandon_eq s.boundary
  rw [heq, State.readByte_resetSequence]
  refine (hbyte a.toNat).imp (fun hbefore => ?_) (fun ⟨u, hu, hafter⟩ => ⟨u, hu, ?_⟩)
  · exact State.readByte_eq_of_read rfl rfl hbefore
  · have hbus := s.sameBus_allGrants
    have hend := (State.sameBus_boundary hu).trans u.sameBus_allGrants
    exact State.readByte_eq_of_read (hbus.memMap.trans hend.memMap.symm) (hbus.tick.trans hend.tick.symm) hafter

/-! The step that finds RES low. -/

theorem step_running_of_res {s : State} (hrun : s.run = .running) (hres : s.nextPins.res = true) :
    step s = .next (s.sample.abandon s.sample.boundary) :=
  (step_of_running hrun).trans (if_pos hres)

/-- Outside an instruction RES acts at once, but in a halt, where it is latched (60_exceptions.md R421; log 20). -/
theorem step_of_res {s : State} (hres : s.nextPins.res = true) (hhalt : s.run ≠ .halted) (hrunning : s.run ≠ .running) :
    step s = .next s.sample.resetSequence := by
  have hpins : s.sample.pins.res = true := hres
  cases hrun : s.run with
  | running => exact absurd hrun hrunning
  | halted => exact absurd hrun hhalt
  | sync => rw [step_of_sync hrun, State.syncStep_of_res hres]
  | wait => rw [step_of_wait hrun, State.waitStep_of_res hres]
  | reset =>
    have hrun : s.sample.run = .reset := hrun
    simp [step, hrun, State.resetStep, hpins]
  | busGrant =>
    have hrun : s.sample.run = .busGrant := hrun
    simp [step, hrun, State.busGrantStep, hpins]

/-! The step that finds RES released. -/

theorem step_of_release {s : State} (hrun : s.run = .reset) (hres : s.nextPins.res = false)
    (hhalt : s.nextPins.halt = false) : step s = .next s.sample.leaveReset := by
  have hrun : s.sample.run = .reset := hrun
  have hpins : s.sample.pins.res = false ∧ s.sample.pins.halt = false := ⟨hres, hhalt⟩
  simp [step, hrun, State.resetStep, hpins]

/-- The codes shown do not change what a grant leaves in memory, or the grants after it. -/
theorem State.grant_showCode (s : State) (c : Bool × Bool) :
    (s.showCode c).grant = { s.grant with shown := (s.showCode c).grant.shown } := by
  have hmem : (s.showCode c).grant.mem = s.grant.mem := State.grant_mem_congr rfl rfl rfl
  have hgrants : (s.showCode c).grant.grants = s.grant.grants := by simp
  rw [State.grant_eq, hmem, hgrants, State.grant_eq s]
  rfl

/-- The two reads of a vector fetch, each after its own grant, with the codes shown left aside. -/
theorem State.vectorFetch_grantN (s : State) (v : Word) :
    s.vectorFetch v =
      { State.grantN 2 s with
        PC := (State.grantN 2 s).pins.iack.getD
          (joinBytes ((State.grantN 1 s).readByte v) ((State.grantN 2 s).readByte (v + 1))),
        shown := (s.vectorFetch v).shown } := by
  rw [State.vectorFetch]
  dsimp only
  rw [State.grant_showCode s.grant]
  rfl

/-- With no grant inside the fetch, the release of RES loads PC, shows the acknowledge code twice, and runs. -/
theorem State.leaveReset_of_nil {s : State} (h : s.grants = []) :
    s.leaveReset =
      { s with
        PC := vectorWord s 0xFFFE, run := .running, shown := s.shown ++ [(false, true), (false, true)] } := by
  rw [State.leaveReset, State.vectorFetch_of_nil h]
  rfl

/-- The release of RES, with any grants: only PC, the run state and the codes shown change, but for what the two grants
before the reads of the vector do. -/
theorem State.leaveReset_eq (s : State) :
    s.leaveReset =
      { s with
        PC := s.pins.iack.getD
          (joinBytes ((State.grantN 1 s).readByte 0xFFFE) ((State.grantN 2 s).readByte 0xFFFF)),
        run := .running, mem := (State.grantN 2 s).mem, grants := (State.grantN 2 s).grants,
        shown := s.leaveReset.shown } := by
  rw [State.leaveReset, State.vectorFetch_grantN, State.grantN_pins, State.grantN_eq 2 s]
  rfl

/-- Settles O10: the reset sequence in a step that finds RES low, with the bytes an abandoned instruction leaves, then
the vector fetch at the release. -/
theorem resetSequence : Obligations.ResetSequence := by
  refine ⟨fun s hres hhalt => ?low, fun s hrun hres hhalt => ?release⟩
  case low =>
    by_cases hrun : s.run = .running
    · obtain ⟨hreset, hDP, hI, hF, harmed, hpending⟩ := s.sample.inReset_abandon s.sample.boundary
      refine ⟨_, step_running_of_res hrun hres, hreset, hDP, hI, hF, harmed, hpending, absurd hrun,
        fun _ => State.readByte_abandon_boundary _, fun _ hbus a => ?_⟩
      refine (State.readByte_abandon_boundary s.sample a).imp (fun hbefore => ?_) (fun ⟨u, hu, hafter⟩ => ⟨u, hu, ?_⟩)
      · rw [hbefore, State.allGrants_of_nil hbus]
      · rw [hafter, State.allGrants_of_nil ((State.sameBus_boundary hu).keepsBus hbus)]
    · obtain ⟨hreset, hDP, hI, hF, harmed, hpending⟩ := s.sample.inReset_resetSequence
      exact ⟨_, step_of_res hres hhalt hrun, hreset, hDP, hI, hF, harmed, hpending,
        fun _ => s.sample.readByte_resetSequence, fun h => absurd h hrun, fun h => absurd h hrun⟩
  case release =>
    refine ⟨_, step_of_release hrun hres hhalt, s.sample.leaveReset_eq, fun hbus => ?_⟩
    have hleave := State.leaveReset_of_nil (s := s.sample) hbus
    refine ⟨hleave, ?_⟩
    rw [hleave]
    rfl

end Sys2Proof.Machine
end

