-- ==== Sys2Proof/Proofs/DecodeEncode.lean ====
section
/-! The decoder on the bytes of the encoder, whatever bytes follow (30_encoding.md R94 to R97, R102, R104, R106,
R110 to R112). -/

namespace Sys2Proof

open Sys2Proof.Machine

/-! Operands. -/

/-- The fields of a 5-bit offset's postbyte (30_encoding.md R102). -/
theorem offsetPostbyte_fields (r : Ptr) : ∀ n : BitVec 5,
    (encodePtr r ||| n.zeroExtend 8).getLsbD 7 = false ∧ decodePtr (encodePtr r ||| n.zeroExtend 8) = r ∧
      (encodePtr r ||| n.zeroExtend 8).extractLsb' 0 5 = n := by
  cases r <;> decide

/-- Every indexed operand is read back from its bytes. With the register field and the indirect bit given, each postbyte
but that of a 5-bit offset is one entry of the decoder's table. -/
theorem decodeIndexed_encodeIndexed (x : Indexed) (rest : List Byte) :
    decodeIndexed ((encodeIndexed x ++ rest).getD 0 0) ((encodeIndexed x ++ rest).getD 1 0)
      ((encodeIndexed x ++ rest).getD 2 0) = some (x, (encodeIndexed x).length) := by
  cases x <;> simp only [encodeIndexed, wordBytes, List.cons_append, List.nil_append, List.getD_cons_zero,
    List.getD_cons_succ]
  case off5 r n =>
    obtain ⟨hbit7, hptr, hoffset⟩ := offsetPostbyte_fields r n
    rw [decodeIndexed_of_bit7_clear hbit7, hptr, hoffset]
    rfl
  case inc1 r | dec1 r => cases r <;> rfl
  case inc2 r ind | dec2 r ind | zero r ind | offB r ind | offA r ind | offD r ind | off8 r n ind =>
    cases r <;> cases ind <;> rfl
  case pcr8 n ind => cases ind <;> rfl
  case off16 r n ind =>
    conv_rhs => rw [← joinBytes_hiByte_loByte n]
    cases r <;> cases ind <;> rfl
  case pcr16 n ind =>
    conv_rhs => rw [← joinBytes_hiByte_loByte n]
    cases ind <;> rfl
  case extInd p =>
    conv_rhs => rw [← joinBytes_hiByte_loByte p]
    rfl

/-- The two registers of TFR and EXG are read back from their postbyte (30_encoding.md R104, R105). -/
theorem decodeRegPair_encodeRegPair (f : Reg → Reg → Instr) {r1 r2 : Reg} (h : r1.sameWidth r2 = true) :
    decodeRegPair f (encodeRegPair r1 r2) = .ok ⟨f r1 r2, 2⟩ := by
  cases r1 with
  | r8 p => cases r2 with
    | r8 q => cases p <;> cases q <;> rfl
    | r16 q => cases h
  | r16 p => cases r2 with
    | r8 q => cases h
    | r16 q => cases p <;> cases q <;> rfl

/-- A register list is read back from its postbyte (30_encoding.md R106). -/
theorem decodeRegList_encodeRegList (l : RegList) : decodeRegList (encodeRegList l) = l := by
  obtain ⟨hpc, hus, hy, hx, hdp, hb, ha, hcc⟩ := encodeRegList_bits l
  rw [decodeRegList, hpc, hus, hy, hx, hdp, hb, ha, hcc]

/-! Opcode and operand. -/

/-- A decoder of an opcode and the three bytes after it reads these bytes as this instruction, `k` bytes of which come
before them, whatever bytes follow. -/
def ReadsAs (dec : Byte → Byte → Byte → Byte → Except Undefined Decoded) (k : Nat) (bs : List Byte) (i : Instr) :
    Prop :=
  ∀ rest : List Byte, dec ((bs ++ rest).getD 0 0) ((bs ++ rest).getD 1 0) ((bs ++ rest).getD 2 0)
    ((bs ++ rest).getD 3 0) = .ok ⟨i, k + bs.length⟩

section
variable {dec : Byte → Byte → Byte → Byte → Except Undefined Decoded} {k : Nat}

/-- A memory operand, in the three formats that the decoder's table has for it (30_encoding.md R94, R95). -/
theorem readsAs_encodeMem {f : Mem → Instr} {dir idx ext : Byte}
    (hdec : ∀ p0 p1 p2, dec dir p0 p1 p2 = decodeMem f .dir (k + 1) p0 p1 p2 ∧
      dec idx p0 p1 p2 = decodeMem f .idx (k + 1) p0 p1 p2 ∧ dec ext p0 p1 p2 = decodeMem f .ext (k + 1) p0 p1 p2)
    (o : Mem) : ReadsAs dec k (encodeMem dir idx ext o) (f o) := by
  intro rest
  cases o with
  | dir d => exact (hdec _ _ _).1
  | idx x =>
    refine ((hdec _ _ _).2.1).trans ?_
    have hx := decodeIndexed_encodeIndexed x rest
    simp only [encodeMem, List.cons_append, List.getD_cons_succ, decodeMem, hx, List.length_cons]
    rw [Nat.add_right_comm, Nat.add_assoc]
  | ext a =>
    refine ((hdec _ _ _).2.2).trans ?_
    simp only [encodeMem, wordBytes, List.cons_append, List.getD_cons_succ, List.getD_cons_zero, decodeMem,
      joinBytes_hiByte_loByte, List.length_cons, List.length_nil]

/-- An 8-bit column, whose opcodes follow one another at 0x10 (30_encoding.md R95, R96). -/
theorem readsAs_encodeSrc8 {f : Src8 → Instr} {op : Byte}
    (hdec : ∀ p0 p1 p2, dec op p0 p1 p2 = .ok ⟨f (.imm p0), k + 2⟩ ∧
      dec (op + 0x10) p0 p1 p2 = decodeMem (fun o => f (.mem o)) .dir (k + 1) p0 p1 p2 ∧
      dec (op + 0x20) p0 p1 p2 = decodeMem (fun o => f (.mem o)) .idx (k + 1) p0 p1 p2 ∧
      dec (op + 0x30) p0 p1 p2 = decodeMem (fun o => f (.mem o)) .ext (k + 1) p0 p1 p2)
    (o : Src8) : ReadsAs dec k (encodeSrc8 op o) (f o) := by
  cases o with
  | imm m => exact fun rest => (hdec _ _ _).1
  | mem o => exact readsAs_encodeMem (f := fun o => f (.mem o)) (fun _ _ _ => (hdec _ _ _).2) o

/-- A 16-bit column (30_encoding.md R95, R97). -/
theorem readsAs_encodeSrc16 {f : Src16 → Instr} {op : Byte}
    (hdec : ∀ p0 p1 p2, dec op p0 p1 p2 = .ok ⟨f (.imm (joinBytes p0 p1)), k + 3⟩ ∧
      dec (op + 0x10) p0 p1 p2 = decodeMem (fun o => f (.mem o)) .dir (k + 1) p0 p1 p2 ∧
      dec (op + 0x20) p0 p1 p2 = decodeMem (fun o => f (.mem o)) .idx (k + 1) p0 p1 p2 ∧
      dec (op + 0x30) p0 p1 p2 = decodeMem (fun o => f (.mem o)) .ext (k + 1) p0 p1 p2)
    (o : Src16) : ReadsAs dec k (encodeSrc16 op o) (f o) := by
  cases o with
  | imm m =>
    refine fun rest => ((hdec _ _ _).1).trans ?_
    rw [encodeSrc16, wordBytes]
    simp only [List.cons_append, List.getD_cons_succ, List.getD_cons_zero, joinBytes_hiByte_loByte]
    rfl
  | mem o => exact readsAs_encodeMem (f := fun o => f (.mem o)) (fun _ _ _ => (hdec _ _ _).2) o

theorem readsAs_opcode {op : Byte} {i : Instr} (hdec : ∀ p0 p1 p2, dec op p0 p1 p2 = .ok ⟨i, k + 1⟩) :
    ReadsAs dec k [op] i := fun _ => hdec _ _ _

/-- A byte after the opcode: an offset, a mask or a postbyte. -/
theorem readsAs_byte {op b : Byte} {i : Instr} (hdec : ∀ p1 p2, dec op b p1 p2 = .ok ⟨i, k + 2⟩) :
    ReadsAs dec k [op, b] i := fun _ => hdec _ _

/-- A word after the opcode, as the offset of a long branch. -/
theorem readsAs_word {f : Word → Instr} {op : Byte}
    (hdec : ∀ p0 p1 p2, dec op p0 p1 p2 = .ok ⟨f (joinBytes p0 p1), k + 3⟩) (w : Word) :
    ReadsAs dec k (op :: wordBytes w) (f w) := by
  refine fun rest => (hdec _ _ _).trans ?_
  simp only [wordBytes, List.cons_append, List.getD_cons_succ, List.getD_cons_zero, joinBytes_hiByte_loByte]
  rfl

end

/-! Instructions. -/

/-- The decoder reads this instruction back from its bytes, whatever bytes follow. -/
def Instr.RoundTrips (i : Instr) : Prop :=
  ∀ rest : List Byte, decodeBytes (encode i ++ rest) = .ok ⟨i, (encode i).length⟩

/-- On page 1 the opcode is the first byte, and the fifth byte is not looked at (30_encoding.md R110). -/
theorem roundTrips_page1 {i : Instr} (h : ∀ p3, ReadsAs (fun b p0 p1 p2 => decode b p0 p1 p2 p3) 0 (encode i) i) :
    i.RoundTrips := fun rest => by
  have hread := h ((encode i ++ rest).getD 4 0) rest
  rwa [Nat.zero_add] at hread

/-- On pages 2 and 3 the opcode is the second byte (30_encoding.md R111, R112). -/
theorem roundTrips_paged {b : Byte} {bs : List Byte} {i : Instr} (henc : encode i = b :: bs)
    (h : ReadsAs (decode b) 1 bs i) : i.RoundTrips := fun rest => by
  rw [henc, List.length_cons, Nat.add_comm]
  exact h rest

theorem roundTrips_lea {f : Indexed → Instr} {op : Byte} (henc : ∀ x, encode (f x) = op :: encodeIndexed x)
    (hdec : ∀ p0 p1 p2 p3, decode op p0 p1 p2 p3 = decodeLea f p0 p1 p2) (x : Indexed) : (f x).RoundTrips :=
  fun rest => by
  have hx := decodeIndexed_encodeIndexed x rest
  rw [henc]
  refine (hdec _ _ _ _).trans ?_
  simp only [List.cons_append, List.getD_cons_succ, decodeLea, hx, List.length_cons, Nat.add_comm]

theorem roundTrips_regList {f : RegList → Instr} {op : Byte} (henc : ∀ l, encode (f l) = [op, encodeRegList l])
    (hdec : ∀ p0 p1 p2 p3, decode op p0 p1 p2 p3 = .ok ⟨f (decodeRegList p0), 2⟩) (l : RegList) :
    (f l).RoundTrips := by
  refine roundTrips_page1 fun p3 => ?_
  rw [henc]
  refine readsAs_byte fun p1 p2 => ?_
  rw [hdec, decodeRegList_encodeRegList]

/-- Every instruction that has an encoding is read back from it. The cases are the formats of the opcode map. -/
theorem roundTrips_of_wellFormed (i : Instr) (h : i.wellFormed = true) : i.RoundTrips := by
  cases i with
  | suba o | cmpa o | sbca o | anda o | bita o | lda o | eora o | adca o | ora o | adda o
  | subb o | cmpb o | sbcb o | andb o | bitb o | ldb o | eorb o | adcb o | orb o | addb o =>
    exact roundTrips_page1 fun _ => readsAs_encodeSrc8 (fun _ _ _ => ⟨rfl, rfl, rfl, rfl⟩) o
  | subd o | cmpx o | ldx o | addd o | ldd o | ldu o =>
    exact roundTrips_page1 fun _ => readsAs_encodeSrc16 (fun _ _ _ => ⟨rfl, rfl, rfl, rfl⟩) o
  | cmpd o | cmpy o | ldy o | lds o | cmpu o | cmps o =>
    exact roundTrips_paged rfl (readsAs_encodeSrc16 (fun _ _ _ => ⟨rfl, rfl, rfl, rfl⟩) o)
  | sta o | jsr o | stx o | stb o | std o | stu o
  | neg o | com o | lsr o | ror o | asr o | asl o | rol o | dec o | inc o | tst o | jmp o | clr o =>
    exact roundTrips_page1 fun _ => readsAs_encodeMem (fun _ _ _ => ⟨rfl, rfl, rfl⟩) o
  | sty o | sts o =>
    exact roundTrips_paged rfl (readsAs_encodeMem (fun _ _ _ => ⟨rfl, rfl, rfl⟩) o)
  | leax x | leay x | leas x | leau x => exact roundTrips_lea (fun _ => rfl) (fun _ _ _ _ => rfl) x
  | lbra d | lbsr d => exact roundTrips_page1 fun _ => readsAs_word (fun _ _ _ => rfl) d
  | lbrn d | lbhi d | lbls d | lbhs d | lblo d | lbne d | lbeq d | lbvc d | lbvs d | lbpl d | lbmi d | lbge d
  | lblt d | lbgt d | lble d => exact roundTrips_paged rfl (readsAs_word (fun _ _ _ => rfl) d)
  | exg r1 r2 | tfr r1 r2 =>
    exact roundTrips_page1 fun _ => readsAs_byte fun _ _ => decodeRegPair_encodeRegPair _ h
  | pshs l | puls l | pshu l | pulu l => exact roundTrips_regList (fun _ => rfl) (fun _ _ _ _ => rfl) l
  | bra d | brn d | bhi d | bls d | bhs d | blo d | bne d | beq d | bvc d | bvs d | bpl d | bmi d | bge d | blt d
  | bgt d | ble d | bsr d | orcc d | andcc d | cwai d => exact roundTrips_page1 fun _ => readsAs_byte fun _ _ => rfl
  | swi2 | swi3 => exact roundTrips_paged rfl (readsAs_opcode fun _ _ _ => rfl)
  | _ => exact roundTrips_page1 fun _ => readsAs_opcode fun _ _ _ => rfl

/-- Settles O1: the round trip of every instruction that has an encoding. -/
theorem decodeEncodeAgree : Obligations.DecodeEncodeAgree := fun i rest h => roundTrips_of_wellFormed i h rest

end Sys2Proof
end

