-- ==== Sys2Proof/Proofs/DecodedForm.lean ====
section
/-! What the decoder answers, part by part of its tables: well-formed instructions, with the lengths of their encodings
(30_encoding.md R90, R94 to R97, R102 to R106, R110 to R112). -/

namespace Sys2Proof

open Sys2Proof.Machine

/-- If this is an instruction, it is well formed and has the length of its encoding. -/
def Faithful (r : Except Undefined Decoded) : Prop :=
  ∀ d, r = .ok d → d.instr.wellFormed = true ∧ d.len = (encode d.instr).length

theorem faithful_error (e : Undefined) : Faithful (.error e) := fun _ h => by cases h

theorem faithful_ok {i : Instr} {n : Nat} (hwf : i.wellFormed = true) (hlen : n = (encode i).length) :
    Faithful (.ok ⟨i, n⟩) := fun _ h => by
  cases h
  exact ⟨hwf, hlen⟩

/-! Operands. -/

theorem length_encode_of_decodeIndexed {p0 p1 p2 : Byte} {x : Indexed} {n : Nat}
    (h : decodeIndexed p0 p1 p2 = some (x, n)) : n = (encodeIndexed x).length := by
  unfold decodeIndexed at h
  dsimp only at h
  repeat' split at h
  all_goals cases h <;> rfl

/-- Instructions with a memory operand and these bytes before their opcode. -/
def EncodesMemAfter (pre : List Byte) (f : Mem → Instr) : Prop :=
  ∃ dir idx ext : Byte, ∀ o, (f o).wellFormed = true ∧ encode (f o) = pre ++ encodeMem dir idx ext o

theorem faithful_decodeMem {pre : List Byte} {f : Mem → Instr} (hf : EncodesMemAfter pre f) (m : OperandFormat)
    (p0 p1 p2 : Byte) : Faithful (decodeMem f m (pre.length + 1) p0 p1 p2) := by
  obtain ⟨dir, idx, ext, hf⟩ := hf
  have hmem {o : Mem} {n : Nat} (hn : n + 1 = (encodeMem dir idx ext o).length) :
      Faithful (.ok ⟨f o, pre.length + 1 + n⟩) :=
    faithful_ok (hf o).1 (by rw [(hf o).2, List.length_append, ← hn, Nat.add_assoc, Nat.add_comm 1])
  cases m with
  | imm => exact faithful_error _
  | dir => exact hmem rfl
  | ext => exact hmem rfl
  | idx =>
    rw [decodeMem]
    cases hx : decodeIndexed p0 p1 p2 with
    | none => exact faithful_error _
    | some xn =>
      obtain ⟨x, n⟩ := xn
      exact hmem (congrArg (· + 1) (length_encode_of_decodeIndexed hx))

theorem faithful_decodeLea {f : Indexed → Instr}
    (hf : ∀ x, (f x).wellFormed = true ∧ ∃ op, encode (f x) = op :: encodeIndexed x) (p0 p1 p2 : Byte) :
    Faithful (decodeLea f p0 p1 p2) := by
  rw [decodeLea]
  cases hx : decodeIndexed p0 p1 p2 with
  | none => exact faithful_error _
  | some xn =>
    obtain ⟨x, n⟩ := xn
    obtain ⟨hwf, op, henc⟩ := hf x
    refine faithful_ok hwf ?_
    rw [henc, List.length_cons, length_encode_of_decodeIndexed hx, Nat.add_comm]

theorem faithful_decodeRegPair {f : Reg → Reg → Instr}
    (hf : ∀ r1 r2, (f r1 r2).wellFormed = r1.sameWidth r2 ∧ (encode (f r1 r2)).length = 2) (pb : Byte) :
    Faithful (decodeRegPair f pb) := by
  unfold decodeRegPair
  split
  · next r1 r2 _ _ =>
    split
    · next hwidth => exact faithful_ok ((hf r1 r2).1.trans hwidth) (hf r1 r2).2.symm
    · exact faithful_error _
  · exact faithful_error _

/-! Columns. -/

/-- A column whose opcodes come after these bytes. -/
def Column.EncodesAfter (pre : List Byte) : Column → Prop
  | .src8 f => ∃ op : Byte, ∀ o, (f o).wellFormed = true ∧ encode (f o) = pre ++ encodeSrc8 op o
  | .src16 f => ∃ op : Byte, ∀ o, (f o).wellFormed = true ∧ encode (f o) = pre ++ encodeSrc16 op o
  | .mem f => ∃ op : Byte, ∀ o, (f o).wellFormed = true ∧ encode (f o) = pre ++ encodeColumnMem op o

theorem faithful_decodeColumn {pre : List Byte} {c : Column} (hc : c.EncodesAfter pre) (m : OperandFormat)
    (p0 p1 p2 : Byte) : Faithful (decodeColumn c m (pre.length + 1) p0 p1 p2) := by
  cases c with
  | mem f =>
    obtain ⟨op, hf⟩ := hc
    simpa only [decodeColumn] using faithful_decodeMem ⟨_, _, _, hf⟩ m p0 p1 p2
  | src8 f =>
    obtain ⟨op, hf⟩ := hc
    have hmem : EncodesMemAfter pre (fun o => f (.mem o)) := ⟨_, _, _, fun o => hf (.mem o)⟩
    cases m with
    | imm => exact faithful_ok (hf _).1 (by rw [(hf _).2, List.length_append]; rfl)
    | dir | idx | ext => simpa only [decodeColumn] using faithful_decodeMem hmem _ p0 p1 p2
  | src16 f =>
    obtain ⟨op, hf⟩ := hc
    have hmem : EncodesMemAfter pre (fun o => f (.mem o)) := ⟨_, _, _, fun o => hf (.mem o)⟩
    cases m with
    | imm => exact faithful_ok (hf _).1 (by rw [(hf _).2, List.length_append]; rfl)
    | dir | idx | ext => simpa only [decodeColumn] using faithful_decodeMem hmem _ p0 p1 p2

theorem faithful_decodeColumn? {pre : List Byte} {c : Option Column} (hc : ∀ d, c = some d → d.EncodesAfter pre)
    (m : OperandFormat) (p0 p1 p2 : Byte) : Faithful (decodeColumn? c m (pre.length + 1) p0 p1 p2) := by
  cases c with
  | none => exact faithful_error _
  | some d => exact faithful_decodeColumn (hc d rfl) m p0 p1 p2

/-! The tables: each entry has an encoding of its format. -/

theorem columnA_encodes {lo : Nat} {c : Column} (h : columnA lo = some c) : c.EncodesAfter [] := by
  unfold columnA at h
  split at h <;> cases h <;> exact ⟨_, fun _ => ⟨rfl, rfl⟩⟩

theorem columnB_encodes {lo : Nat} {c : Column} (h : columnB lo = some c) : c.EncodesAfter [] := by
  unfold columnB at h
  split at h <;> cases h <;> exact ⟨_, fun _ => ⟨rfl, rfl⟩⟩

theorem column2A_encodes {lo : Nat} {c : Column} (h : column2A lo = some c) : c.EncodesAfter [0x10] := by
  unfold column2A at h
  split at h <;> cases h <;> exact ⟨_, fun _ => ⟨rfl, rfl⟩⟩

theorem column2B_encodes {lo : Nat} {c : Column} (h : column2B lo = some c) : c.EncodesAfter [0x10] := by
  unfold column2B at h
  split at h <;> cases h <;> exact ⟨_, fun _ => ⟨rfl, rfl⟩⟩

theorem column3A_encodes {lo : Nat} {c : Column} (h : column3A lo = some c) : c.EncodesAfter [0x11] := by
  unfold column3A at h
  split at h <;> cases h <;> exact ⟨_, fun _ => ⟨rfl, rfl⟩⟩

theorem rmwOp_encodes {lo : Nat} {f : Mem → Instr} (h : rmwOp lo = some f) : EncodesMemAfter [] f := by
  unfold rmwOp at h
  split at h <;> cases h <;> exact ⟨_, _, _, fun _ => ⟨rfl, rfl⟩⟩

theorem accAOp_encodes {lo : Nat} {i : Instr} (h : accAOp lo = some i) :
    i.wellFormed = true ∧ (encode i).length = 1 := by
  unfold accAOp at h
  split at h <;> cases h <;> exact ⟨rfl, rfl⟩

theorem accBOp_encodes {lo : Nat} {i : Instr} (h : accBOp lo = some i) :
    i.wellFormed = true ∧ (encode i).length = 1 := by
  unfold accBOp at h
  split at h <;> cases h <;> exact ⟨rfl, rfl⟩

theorem shortBranch_encodes {lo : Nat} {f : Byte → Instr} (h : shortBranch lo = some f) (d : Byte) :
    (f d).wellFormed = true ∧ (encode (f d)).length = 2 := by
  unfold shortBranch at h
  split at h <;> cases h <;> exact ⟨rfl, rfl⟩

theorem longBranch_encodes {lo : Nat} {f : Word → Instr} (h : longBranch lo = some f) (d : Word) :
    (f d).wellFormed = true ∧ (encode (f d)).length = 4 := by
  unfold longBranch at h
  split at h <;> cases h <;> exact ⟨rfl, rfl⟩

/-! The groups of the opcode map. -/

theorem faithful_decodeInh {i : Option Instr}
    (h : ∀ j, i = some j → j.wellFormed = true ∧ (encode j).length = 1) : Faithful (decodeInh i) := by
  cases i with
  | none => exact faithful_error _
  | some j => exact faithful_ok (h j rfl).1 (h j rfl).2.symm

theorem faithful_decodeRmw (lo : Nat) (m : OperandFormat) (p0 p1 p2 : Byte) : Faithful (decodeRmw lo m p0 p1 p2) := by
  rw [decodeRmw]
  cases h : rmwOp lo with
  | none => exact faithful_error _
  | some f => exact faithful_decodeMem (rmwOp_encodes h) m p0 p1 p2

theorem faithful_decodeGroup1 (lo : Nat) (p0 p1 : Byte) : Faithful (decodeGroup1 lo p0 p1) := by
  unfold decodeGroup1
  split
  case h_9 | h_10 => exact faithful_decodeRegPair (fun _ _ => ⟨rfl, rfl⟩) p0
  case h_11 => exact faithful_error _
  all_goals exact faithful_ok rfl rfl

theorem faithful_decodeGroup3 (lo : Nat) (p0 p1 p2 : Byte) : Faithful (decodeGroup3 lo p0 p1 p2) := by
  unfold decodeGroup3
  split
  case h_1 | h_2 | h_3 | h_4 => exact faithful_decodeLea (fun _ => ⟨rfl, _, rfl⟩) p0 p1 p2
  case h_15 => exact faithful_error _
  all_goals exact faithful_ok rfl rfl

theorem faithful_decodePage1 (b0 p0 p1 p2 : Byte) : Faithful (decodePage1 b0 p0 p1 p2) := by
  unfold decodePage1
  dsimp only
  split
  case h_1 | h_7 | h_8 => exact faithful_decodeRmw _ _ p0 p1 p2
  case h_2 => exact faithful_decodeGroup1 _ p0 p1
  case h_3 =>
    split
    · next f h => exact faithful_ok (shortBranch_encodes h p0).1 (shortBranch_encodes h p0).2.symm
    · exact faithful_error _
  case h_4 => exact faithful_decodeGroup3 _ p0 p1 p2
  case h_5 => exact faithful_decodeInh fun _ => accAOp_encodes
  case h_6 => exact faithful_decodeInh fun _ => accBOp_encodes
  case h_9 =>
    split
    · exact faithful_ok rfl rfl
    · exact faithful_decodeColumn? (fun _ => columnA_encodes) _ p0 p1 p2
  case h_10 | h_11 | h_12 => exact faithful_decodeColumn? (fun _ => columnA_encodes) _ p0 p1 p2
  all_goals exact faithful_decodeColumn? (fun _ => columnB_encodes) _ p0 p1 p2

theorem faithful_decodePage2 (b1 p0 p1 p2 : Byte) : Faithful (decodePage2 b1 p0 p1 p2) := by
  unfold decodePage2
  dsimp only
  split
  case h_1 =>
    split
    · next f h => exact faithful_ok (longBranch_encodes h _).1 (longBranch_encodes h _).2.symm
    · exact faithful_error _
  case h_2 =>
    split
    · exact faithful_ok rfl rfl
    · exact faithful_error _
  case h_3 | h_4 | h_5 | h_6 => exact faithful_decodeColumn? (fun _ => column2A_encodes) _ p0 p1 p2
  case h_7 | h_8 | h_9 | h_10 => exact faithful_decodeColumn? (fun _ => column2B_encodes) _ p0 p1 p2
  case h_11 => exact faithful_error _

theorem faithful_decodePage3 (b1 p0 p1 p2 : Byte) : Faithful (decodePage3 b1 p0 p1 p2) := by
  unfold decodePage3
  dsimp only
  split
  case h_1 =>
    split
    · exact faithful_ok rfl rfl
    · exact faithful_error _
  case h_6 => exact faithful_error _
  all_goals exact faithful_decodeColumn? (fun _ => column3A_encodes) _ p0 p1 p2

theorem faithful_decode (b0 b1 b2 b3 b4 : Byte) : Faithful (decode b0 b1 b2 b3 b4) := by
  unfold decode
  split
  · exact faithful_decodePage2 b1 b2 b3 b4
  · split
    · exact faithful_decodePage3 b1 b2 b3 b4
    · exact faithful_decodePage1 b0 b1 b2 b3

/-- No instruction is longer than five bytes (30_encoding.md R90). -/
theorem encode_length_le (i : Instr) : (encode i).length ≤ 5 := by
  cases i with
  | suba o | cmpa o | sbca o | anda o | bita o | lda o | eora o | adca o | ora o | adda o
  | subb o | cmpb o | sbcb o | andb o | bitb o | ldb o | eorb o | adcb o | orb o | addb o =>
    exact Nat.le_succ_of_le (encodeSrc8_length _ o).2
  | subd o | cmpx o | ldx o | addd o | ldd o | ldu o => exact Nat.le_succ_of_le (encodeSrc16_length _ o).2
  | cmpd o | cmpy o | ldy o | lds o | cmpu o | cmps o => exact Nat.succ_le_succ (encodeSrc16_length _ o).2
  | sta o | jsr o | stx o | stb o | std o | stu o
  | neg o | com o | lsr o | ror o | asr o | asl o | rol o | dec o | inc o | tst o | jmp o | clr o =>
    exact Nat.le_succ_of_le (encodeMem_length _ _ _ o).2
  | sty o | sts o => exact Nat.succ_le_succ (encodeMem_length _ _ _ o).2
  | leax x | leay x | leas x | leau x => exact Nat.le_succ_of_le (Nat.succ_le_succ (encodeIndexed_length x).2)
  | _ => exact Nat.le_of_ble_eq_true rfl

/-- Settles O2: what every part of the decoder answers, and the longest encoding. -/
theorem decodedIsWellFormed : Obligations.DecodedIsWellFormed := fun b0 b1 b2 b3 b4 d h => by
  obtain ⟨hwf, hlen⟩ := faithful_decode b0 b1 b2 b3 b4 d h
  exact ⟨hwf, hlen, hlen ▸ encode_length_le d.instr⟩

end Sys2Proof
end

