-- ==== Sys2Proof/Proofs/Effects.lean ====
section
/-! What an instruction can do at all, said once: each is a run of a few kinds of operations, of which only some
instructions may store, write DP, arm NMI, or stop the MPU (10_state.md R27, R28, R42; 20_memory.md R71, R73). -/

namespace Sys2Proof.Machine

/-- What some instructions may do and others not: store to memory, write DP, arm NMI; and the run state that one may
set. -/
structure Powers where
  stores : Bool
  writesDP : Bool
  arms : Bool
  run : Run

/-- The run state an instruction may set: that of SYNC and CWAI, and running (10_state.md R45). -/
def runAfter : Instr → Run
  | .sync => .sync
  | .cwai _ => .wait
  | _ => .running

/-- The powers of each instruction, by the classes that the statements name. -/
def powersOf (i : Instr) : Powers := ⟨mayStore i, mayWriteDP i, loadsS i, runAfter i⟩

/-- `t` is reached from `s` by operations that `p` allows, one after another. -/
inductive State.Reaches (p : Powers) (s : State) : State → Prop
  | refl : Reaches p s s
  | grant {t : State} (h : Reaches p s t) : Reaches p s t.grant
  | regs {t u : State} (h : Reaches p s t)
      (hu : u = { t with
        A := u.A, B := u.B, X := u.X, Y := u.Y, U := u.U, S := u.S, PC := u.PC, CC := u.CC, temp := u.temp }) :
      Reaches p s u
  | showCode {t : State} (h : Reaches p s t) (c : Bool × Bool) : Reaches p s (t.showCode c)
  | store {t : State} (hp : p.stores = true) (h : Reaches p s t) (a : Word) (v : Byte) : Reaches p s (t.busWrite a v)
  | setDP {t : State} (hp : p.writesDP = true) (h : Reaches p s t) (v : Byte) : Reaches p s (t.setDP v)
  | arm {t : State} (hp : p.arms = true) (h : Reaches p s t) : Reaches p s t.arm
  | setRun {t : State} (h : Reaches p s t) : Reaches p s (t.setRun p.run)

section
variable {p : Powers} {s t : State}

/-! What every run of such operations keeps. -/

/-- The map, the pins, the NMI latch, the return of a halt and the count are out of reach of every operation. -/
theorem State.Reaches.keeps (h : s.Reaches p t) :
    t.memMap = s.memMap ∧ t.lines = s.lines ∧ t.pins = s.pins ∧ t.nmiPending = s.nmiPending ∧
      t.resume = s.resume ∧ t.tick = s.tick := by
  induction h with
  | refl => simp
  | regs h hu ih => rw [hu]; exact ih
  | showCode h c ih | setDP hp h v ih | arm hp h ih | setRun h ih => exact ih
  | grant h ih | store hp h a v ih => simpa using ih

theorem State.Reaches.run_eq (h : s.Reaches p t) : t.run = s.run ∨ t.run = p.run := by
  induction h with
  | refl => exact .inl rfl
  | setRun h ih => exact .inr rfl
  | regs h hu ih => rw [hu]; exact ih
  | showCode h c ih | setDP hp h v ih | arm hp h ih => exact ih
  | grant h ih | store hp h a v ih => simpa using ih

theorem State.Reaches.DP_eq (h : s.Reaches p t) (hdp : p.writesDP = false) : t.DP = s.DP := by
  induction h with
  | refl => rfl
  | setDP hp h v ih => rw [hdp] at hp; cases hp
  | regs h hu ih => rw [hu]; exact ih
  | showCode h c ih | arm hp h ih | setRun h ih => exact ih
  | grant h ih | store hp h a v ih => simpa using ih

theorem State.Reaches.nmiArmed_eq (h : s.Reaches p t) (harms : p.arms = false) : t.nmiArmed = s.nmiArmed := by
  induction h with
  | refl => rfl
  | arm hp h ih => rw [harms] at hp; cases hp
  | regs h hu ih => rw [hu]; exact ih
  | showCode h c ih | setDP hp h v ih | setRun h ih => exact ih
  | grant h ih | store hp h a v ih => simpa using ih

/-- Nothing disarms NMI. -/
theorem State.Reaches.nmiArmed_mono (h : s.Reaches p t) (hs : s.nmiArmed = true) : t.nmiArmed = true := by
  induction h with
  | refl => exact hs
  | arm hp h ih => rfl
  | regs h hu ih => rw [hu]; exact ih
  | showCode h c ih | setDP hp h v ih | setRun h ih => exact ih
  | grant h ih | store hp h a v ih => simpa using ih

/-- Without a store, memory is as the bus grants taken so far have left it. -/
theorem State.Reaches.mem_eq (h : s.Reaches p t) (hstores : p.stores = false) :
    ∃ n, t.mem = (State.grantN n s).mem ∧ t.grants = (State.grantN n s).grants := by
  induction h with
  | refl => exact ⟨0, rfl, rfl⟩
  | store hp h a v ih => rw [hstores] at hp; cases hp
  | regs h hu ih => rw [hu]; exact ih
  | showCode h c ih | setDP hp h v ih | arm hp h ih | setRun h ih => exact ih
  | grant h ih =>
    obtain ⟨n, hmem, hgrants⟩ := ih
    obtain ⟨hmap, -⟩ := h.keeps
    refine ⟨n + 1, ?_⟩
    rw [State.grantN_add]
    refine ⟨State.grant_mem_congr hmem ?_ hgrants, ?_⟩
    · rw [hmap, State.grantN_memMap]
    · simp [State.grantN, hgrants]

/-- Every operation keeps the canonical form of memory. -/
theorem State.Reaches.wf (h : s.Reaches p t) (hs : s.mem.wf = true) : t.mem.wf = true := by
  induction h with
  | refl => exact hs
  | regs h hu ih => rw [hu]; exact ih
  | showCode h c ih | setDP hp h v ih | arm hp h ih | setRun h ih => exact ih
  | grant h ih => exact State.grant_wf ih
  | store hp h a v ih => exact State.busWrite_wf ih a v

/-! Registers. -/

theorem State.Reaches.setAcc (h : s.Reaches p t) (r : Acc) (v : Byte) : s.Reaches p (t.setAcc r v) := by
  cases r <;> exact h.regs rfl

theorem State.Reaches.setCC (h : s.Reaches p t) (v : Byte) : s.Reaches p (t.setCC v) := h.regs rfl

theorem State.Reaches.setFlag (h : s.Reaches p t) (f : Flag) (b : Bool) : s.Reaches p (t.setFlag f b) := h.regs rfl

theorem State.Reaches.setPC (h : s.Reaches p t) (v : Word) : s.Reaches p (t.setPC v) := h.regs rfl

theorem State.Reaches.setSp (h : s.Reaches p t) (k : Stack) (v : Word) : s.Reaches p (t.setSp k v) := by
  cases k <;> exact h.regs rfl

theorem State.Reaches.setPtr (h : s.Reaches p t) (r : Ptr) (v : Word) : s.Reaches p (t.setPtr r v) := by
  cases r <;> exact h.regs rfl

theorem State.Reaches.setReg8 (hdp : p.writesDP = true) (h : s.Reaches p t) (r : Reg8) (v : Byte) :
    s.Reaches p (t.setReg8 r v) := by
  cases r with
  | dp => exact h.setDP hdp v
  | a | b | cc => exact h.regs rfl

/-- A load of S, and of no other register, needs the power to arm NMI (10_state.md R42). -/
theorem State.Reaches.loadReg16 (h : s.Reaches p t) (r : Reg16) (v : Word) (harms : r = .s → p.arms = true) :
    s.Reaches p (t.loadReg16 r v) := by
  cases r with
  | s => exact .arm (harms rfl) (h.regs (u := t.setS v) rfl)
  | d | x | y | u | pc => exact h.regs rfl

/-! Stacks. -/

theorem State.Reaches.push8 (hp : p.stores = true) (h : s.Reaches p t) (k : Stack) (v : Byte) :
    s.Reaches p (t.push8 k v) := (h.setSp k _).store hp _ _

theorem State.Reaches.push16 (hp : p.stores = true) (h : s.Reaches p t) (k : Stack) (v : Word) :
    s.Reaches p (t.push16 k v) := (h.push8 hp k _).push8 hp k _

theorem State.Reaches.push8If (hp : p.stores = true) (h : s.Reaches p t) (k : Stack) (listed : Bool) (v : Byte) :
    s.Reaches p (t.push8If k listed v) := by
  cases listed with
  | false => exact h
  | true => exact h.push8 hp k v

theorem State.Reaches.push16If (hp : p.stores = true) (h : s.Reaches p t) (k : Stack) (listed : Bool) (v : Word) :
    s.Reaches p (t.push16If k listed v) := by
  cases listed with
  | false => exact h
  | true => exact h.push16 hp k v

theorem State.Reaches.pushList (hp : p.stores = true) (h : s.Reaches p t) (k : Stack) (l : RegList) :
    s.Reaches p (t.pushList k l) :=
  ((((((((h.push16If hp k _ _).push16If hp k _ _).push16If hp k _ _).push16If hp k _ _).push8If hp k _ _).push8If hp k
    _ _).push8If hp k _ _).push8If hp k _ _)

theorem State.Reaches.pull8 (hdp : p.writesDP = true) (h : s.Reaches p t) (k : Stack) (r : Reg8) :
    s.Reaches p (t.pull8 k r) := (h.grant.setReg8 hdp r _).setSp k _

theorem State.Reaches.pull16 (h : s.Reaches p t) (k : Stack) (r : Reg16) (harms : r = .s → p.arms = true) :
    s.Reaches p (t.pull16 k r) := (((h.grant.setSp k _).grant).loadReg16 r _ harms).setSp k _

theorem State.Reaches.pull8If (hdp : p.writesDP = true) (h : s.Reaches p t) (k : Stack) (listed : Bool) (r : Reg8) :
    s.Reaches p (t.pull8If k listed r) := by
  cases listed with
  | false => exact h
  | true => exact h.pull8 hdp k r

theorem State.Reaches.pull16If (h : s.Reaches p t) (k : Stack) (listed : Bool) (r : Reg16)
    (harms : listed = true → r = .s → p.arms = true) : s.Reaches p (t.pull16If k listed r) := by
  cases listed with
  | false => exact h
  | true => exact h.pull16 k r (harms rfl)

/-- Of the registers a list can name only the other stack pointer can be S. -/
theorem State.Reaches.pullList (hdp : p.writesDP = true) (h : s.Reaches p t) (k : Stack) (l : RegList)
    (harms : l.us = true → k.other = .s → p.arms = true) : s.Reaches p (t.pullList k l) :=
  have hbytes := (((h.pull8If hdp k l.cc .cc).pull8If hdp k l.a .a).pull8If hdp k l.b .b).pull8If hdp k l.dp .dp
  have hxy := (hbytes.pull16If k l.x .x (fun _ => nofun)).pull16If k l.y .y (fun _ => nofun)
  (hxy.pull16If k l.us k.other harms).pull16If k l.pc .pc (fun _ => nofun)

/-! Interrupts. -/

theorem State.Reaches.stackEntire (hp : p.stores = true) (h : s.Reaches p t) : s.Reaches p t.stackEntire :=
  (((((((h.push16 hp .s _).push16 hp .s _).push16 hp .s _).push16 hp .s _).push8 hp .s _).push8 hp .s _).push8 hp .s
    _).push8 hp .s _

theorem State.Reaches.stackSubset (hp : p.stores = true) (h : s.Reaches p t) : s.Reaches p t.stackSubset :=
  (h.push16 hp .s _).push8 hp .s _

theorem State.Reaches.stackFor (hp : p.stores = true) (h : s.Reaches p t) (k : IntKind) :
    s.Reaches p (t.stackFor k) := by
  cases k with
  | firq => exact (h.setFlag .E false).stackSubset hp
  | nmi | swi | irq | swi2 | swi3 => exact (h.setFlag .E true).stackEntire hp

/-- The end of an entry that does not clear the NMI latch. -/
theorem State.Reaches.takeVector (hrun : p.run = .running) (h : s.Reaches p t) {k : IntKind} (hk : k ≠ .nmi) :
    s.Reaches p (t.takeVector k) := by
  have hmask : s.Reaches p (t.maskFor k) := by
    rw [State.maskFor_frame, if_neg hk]
    exact h.regs rfl
  have hset := hmask.setRun
  rw [hrun] at hset
  exact ((hset.grant.showCode _).grant.showCode _).setPC _

theorem State.Reaches.interrupt (hp : p.stores = true) (hrun : p.run = .running) (h : s.Reaches p t) {k : IntKind}
    (hk : k ≠ .nmi) : s.Reaches p (t.interrupt k) := by
  by_cases hwait : t.run = .wait
  · rw [State.interrupt_of_wait hwait]
    exact h.takeVector hrun hk
  · rw [State.interrupt_of_not_wait hwait]
    exact (h.stackFor hp k).takeVector hrun hk

theorem State.Reaches.returnFromInterrupt (hdp : p.writesDP = true) (h : s.Reaches p t) :
    s.Reaches p t.returnFromInterrupt := by
  have hcc : s.Reaches p (t.pull8 .s .cc) := h.pull8 hdp .s .cc
  rw [State.returnFromInterrupt]
  split
  · have hbytes := ((hcc.pull8 hdp .s .a).pull8 hdp .s .b).pull8 hdp .s .dp
    have hwords := ((hbytes.pull16 .s .x nofun).pull16 .s .y nofun).pull16 .s .u nofun
    exact hwords.pull16 .s .pc nofun
  · exact hcc.pull16 .s .pc nofun

/-! Operands. -/

theorem State.Reaches.finishEA (h : s.Reaches p t) (ea : Word) (ind : Bool) : s.Reaches p (t.finishEA ea ind).2 := by
  have htemp : s.Reaches p (t.setTemp ea) := h.regs rfl
  cases ind with
  | false => exact htemp
  | true => exact htemp.grant.grant

theorem State.Reaches.indexedEA (h : s.Reaches p t) (x : Indexed) : s.Reaches p (t.indexedEA x).2 := by
  cases x with
  | inc1 r | inc2 r _ | dec1 r | dec2 r _ => exact (h.setPtr r _).finishEA _ _
  | _ => exact h.finishEA _ _

theorem State.Reaches.resolve (h : s.Reaches p t) (o : Mem) : s.Reaches p (t.resolve o).2 := by
  cases o with
  | dir d => exact h.finishEA _ _
  | idx x => exact h.indexedEA x
  | ext a => exact h.finishEA _ _

theorem State.Reaches.operand8 (h : s.Reaches p t) (o : Src8) : s.Reaches p (t.operand8 o).2 := by
  cases o with
  | imm m => exact h
  | mem o => exact (h.resolve o).grant

theorem State.Reaches.operand16 (h : s.Reaches p t) (o : Src16) : s.Reaches p (t.operand16 o).2 := by
  cases o with
  | imm m => exact h
  | mem o => exact (h.resolve o).grant.grant

end

/-! Instructions. -/

section
variable {p : Powers} {s t u : State}

theorem State.Reaches.of_next (h : (.next u : Host.Outcome State Fault Refusal) = .next t) (hu : s.Reaches p u) :
    s.Reaches p t := Host.Outcome.next.inj h ▸ hu

theorem State.reaches_branch (p : Powers) (s : State) (c : Cond) (d : Word) : s.Reaches p (s.branch c d) := by
  rw [State.branch]
  split
  · exact State.Reaches.refl.setPC _
  · exact State.Reaches.refl

theorem State.reaches_lea (s : State) (r : Reg16) (x : Indexed) (harms : r = .s → p.arms = true) :
    s.Reaches p (s.lea r x) := (State.Reaches.refl.indexedEA x).loadReg16 r _ harms

theorem State.reaches_transfer {r1 r2 : Reg} (h : s.transfer r1 r2 = .next t) :
    s.Reaches (powersOf (.tfr r1 r2)) t := by
  cases r1 <;> cases r2
  case r8.r8 => cases h; exact State.Reaches.refl.setReg8 rfl _ _
  case r16.r16 q r => cases h; exact State.Reaches.refl.loadReg16 r _ (by rintro rfl; rfl)
  all_goals cases h

theorem State.reaches_exchange {r1 r2 : Reg} (h : s.exchange r1 r2 = .next t) :
    s.Reaches (powersOf (.exg r1 r2)) t := by
  cases r1 <;> cases r2
  case r8.r8 => cases h; exact (State.Reaches.refl.setReg8 rfl _ _).setReg8 rfl _ _
  case r16.r16 q r =>
    cases h
    exact (State.Reaches.refl.loadReg16 q _ (by rintro rfl; rfl)).loadReg16 r _ (by rintro rfl; exact Bool.or_true _)
  all_goals cases h

end

/-- Every instruction is a run of the operations that its powers allow. The cases are the shared operations. -/
theorem exec_reaches {i : Instr} {s t : State} (h : exec i s = .next t) : s.Reaches (powersOf i) t := by
  have hrefl {p : Powers} : s.Reaches p s := .refl
  cases i with
  | exg r1 r2 => exact State.reaches_exchange h
  | tfr r1 r2 => exact State.reaches_transfer h
  | adca o | adcb o | adda o | addb o | suba o | subb o | sbca o | sbcb o | anda o | andb o | eora o | eorb o | ora o
  | orb o | lda o | ldb o =>
    exact .of_next h (((hrefl.operand8 o).setAcc _ _).setCC _)
  | cmpa o | cmpb o | bita o | bitb o => exact .of_next h ((hrefl.operand8 o).setCC _)
  | sta o | stb o => exact .of_next h (((hrefl.resolve o).store rfl _ _).setCC _)
  | asl o | asr o | clr o | com o | dec o | inc o | lsr o | neg o | rol o | ror o =>
    exact .of_next h (((hrefl.resolve o).grant.store rfl _ _).setCC _)
  | asla | aslb | asra | asrb | clra | clrb | coma | comb | deca | decb | inca | incb | lsra | lsrb | nega | negb | rola
  | rolb | rora | rorb | daa =>
    exact .of_next h ((hrefl.setAcc _ _).setCC _)
  | tst o => exact .of_next h ((hrefl.resolve o).grant.setCC _)
  | tsta | tstb | andcc m | orcc m => exact .of_next h (hrefl.setCC _)
  | mul | sex | abx => exact .of_next h (hrefl.regs rfl)
  | addd o | subd o => exact .of_next h ((hrefl.operand16 o).regs rfl)
  | cmpd o | cmps o | cmpu o | cmpx o | cmpy o => exact .of_next h ((hrefl.operand16 o).setCC _)
  | ldd o | ldu o | ldx o | ldy o => exact .of_next h (((hrefl.operand16 o).loadReg16 _ _ (by nofun)).setCC _)
  | lds o => exact .of_next h (((hrefl.operand16 o).loadReg16 .s _ fun _ => rfl).setCC _)
  | std o | sts o | stu o | stx o | sty o =>
    exact .of_next h ((((hrefl.resolve o).store rfl _ _).store rfl _ _).setCC _)
  | leas x => exact .of_next h (s.reaches_lea .s x fun _ => rfl)
  | leau x => exact .of_next h (s.reaches_lea .u x nofun)
  | leax x | leay x => exact .of_next h ((s.reaches_lea _ x (by nofun)).setFlag _ _)
  | pshs l | pshu l => exact .of_next h (hrefl.pushList rfl _ l)
  | puls l => exact .of_next h (hrefl.pullList rfl .s l fun _ => nofun)
  | pulu l => exact .of_next h (hrefl.pullList rfl .u l fun hus _ => hus)
  | bra d | brn d | bhi d | bls d | bhs d | blo d | bne d | beq d | bvc d | bvs d | bpl d | bmi d
  | bge d | blt d | bgt d | ble d | lbra d | lbrn d | lbhi d | lbls d | lbhs d | lblo d | lbne d | lbeq d
  | lbvc d | lbvs d | lbpl d | lbmi d | lbge d | lblt d | lbgt d | lble d =>
    exact .of_next h (s.reaches_branch _ _ _)
  | bsr d | lbsr d => exact .of_next h ((hrefl.push16 rfl .s _).setPC _)
  | jsr o => exact .of_next h (((hrefl.resolve o).push16 rfl .s _).setPC _)
  | jmp o => exact .of_next h ((hrefl.resolve o).setPC _)
  | rts => exact .of_next h (hrefl.pull16 .s .pc nofun)
  | rti => exact .of_next h (hrefl.returnFromInterrupt rfl)
  | swi | swi2 | swi3 => exact .of_next h (hrefl.interrupt rfl rfl nofun)
  | cwai m => exact .of_next h ((((hrefl.setCC _).setFlag _ _).stackEntire rfl).setRun)
  | sync => exact .of_next h hrefl.setRun
  | nop => exact .of_next h hrefl

/-! The rules that follow for all instructions. -/

/-- Settles O19: without the power to write DP, no operation does. -/
theorem directPageWriters : Obligations.DirectPageWriters := fun _ _ _ h hdp => (exec_reaches h).DP_eq hdp

/-- Settles O20: with no power to store, memory is what the bus grants have left. -/
theorem onlyStoringInstructionsChangeMemory : Obligations.OnlyStoringInstructionsChangeMemory := by
  intro i s t h hstore
  obtain ⟨n, hmem, -⟩ := (exec_reaches h).mem_eq hstore
  obtain ⟨hmap, -, -, -, -, htick⟩ := (exec_reaches h).keeps
  refine ⟨⟨n, hmem⟩, fun hbus => ?_⟩
  rw [State.grantN_of_nil hbus] at hmem
  exact ⟨hmem, State.readByte_congr hmem hmap htick⟩

/-- Settles O21: the run state an instruction may set is running but for SYNC and CWAI. -/
theorem onlySyncAndCwaiStopTheMpu : Obligations.OnlySyncAndCwaiStopTheMpu := by
  intro i s t h
  refine ⟨fun hrun => ?_, (exec_reaches h).keeps⟩
  rcases (exec_reaches h).run_eq with hkept | hset
  · exact .inl (hkept.trans hrun)
  · cases i with
    | sync => exact .inr (.inl ⟨rfl, hset⟩)
    | cwai m => exact .inr (.inr ⟨m, rfl, hset⟩)
    | _ => exact .inl hset

/-! NMI armed. -/

/-- Of the 16-bit registers S alone arms NMI when it is loaded. -/
theorem State.loadReg16_nmiArmed (s : State) (r : Reg16) (v : Word) :
    (s.loadReg16 r v).nmiArmed = (s.nmiArmed || r == .s) := by
  cases r with
  | s => exact (Bool.or_true _).symm
  | d | x | y | u | pc => exact (Bool.or_false _).symm

/-- PULU of S: the pull of PC that may follow keeps NMI armed. -/
theorem State.pullList_u_nmiArmed (s : State) {l : RegList} (h : l.us = true) : (s.pullList .u l).nmiArmed = true := by
  have harmed (t : State) : (t.pull16If .u l.us .s).nmiArmed = true := by rw [h]; rfl
  have hpc (t : State) : t.Reaches ⟨false, false, false, .running⟩ (t.pull16If .u l.pc .pc) :=
    State.Reaches.refl.pull16If .u l.pc .pc (fun _ => nofun)
  exact (hpc _).nmiArmed_mono (harmed _)

/-- Each load of S by the program arms NMI (10_state.md R42, decision D6). -/
theorem nmiArmed_of_loadsS {i : Instr} {s t : State} (h : exec i s = .next t) (hS : loadsS i = true) :
    t.nmiArmed = true := by
  cases i with
  | lds o | leas x => cases h; rfl
  | pulu l => cases h; exact s.pullList_u_nmiArmed hS
  | tfr r1 r2 =>
    cases beq_iff_eq.mp hS
    cases r1 <;> cases h
    rfl
  | exg r1 r2 =>
    rcases (Bool.or_eq_true _ _).mp hS with hS | hS <;> cases beq_iff_eq.mp hS
    · cases r2 <;> cases h
      simp [State.loadReg16_nmiArmed]
    · cases r1 <;> cases h
      rfl
  | _ => cases hS

/-- Settles O18: the loads of S arm NMI, and without the power to arm it no operation does. -/
theorem nmiArmedByLoadsOfS : Obligations.NmiArmedByLoadsOfS := by
  intro i s t h
  cases hS : loadsS i with
  | true => rw [nmiArmed_of_loadsS h hS, Bool.or_true]
  | false => rw [(exec_reaches h).nmiArmed_eq hS, Bool.or_false]

end Sys2Proof.Machine
end

