-- ==== Sys2Proof/Proofs/Invariant.lean ====
section
/-! The invariant of the machine at reset and after every step (10_state.md R43, R48; 20_memory.md R60;
45_miscellaneous.md R362; 60_exceptions.md R414, R420 to R422). -/

namespace Sys2Proof.Machine

section
variable {s t : State}

/-! The invariant by the run state. -/

/-- Where the MPU runs, is in reset or in the sync state, only memory and the latch count. -/
theorem State.inv_of_run (hwf : t.MemoryCanonical) (hlatch : t.NmiLatchOnlyArmed)
    (hrun : t.run ∈ [.running, .reset, .sync]) : t.Inv := by
  have hnot {r : Run} (hr : r ∉ [.running, .reset, .sync]) : t.run ≠ r := fun h => hr (h ▸ hrun)
  refine ⟨hwf, hlatch, fun h => ?_, fun h => ?_, ?_⟩
  · exact absurd h (hnot (by decide))
  · exact absurd h (hnot (by decide))
  · rintro (h | ⟨h, -⟩)
    · exact absurd h (hnot (by decide))
    · exact absurd h (hnot (by decide))

/-- Settles O9: the MPU runs, with nothing listed in memory and no NMI latched. -/
theorem resetMeetsInvariant : Obligations.ResetMeetsInvariant :=
  State.inv_of_run (t := State.reset) rfl nofun (by simp [State.reset])

theorem State.inv_sample (h : s.Inv) : s.sample.Inv := by
  obtain ⟨hwf, hlatch, hhalt, hgrant, hwait⟩ := h
  refine ⟨hwf, fun hpending => ?_, hhalt, hgrant, hwait⟩
  rcases (Bool.or_eq_true _ _).mp hpending with hbefore | hedge
  · exact hlatch hbefore
  · exact ((Bool.and_eq_true _ _).mp hedge).2

/-- Another master's writes change memory alone. -/
theorem State.inv_masterWrites (h : s.Inv) : s.masterWrites.Inv := by
  have hwf := State.masterWrites_wf h.1
  rw [State.masterWrites_eq]
  exact ⟨hwf, h.2⟩

theorem State.inv_resetSequence (h : s.MemoryCanonical) : s.resetSequence.Inv :=
  State.inv_of_run h nofun (by simp [State.resetSequence])

/-! Entries and instructions. -/

/-- An entry leaves NMI armed or unarmed as it was, and latches no NMI. -/
theorem State.interrupt_latch (s : State) (k : IntKind) :
    (s.interrupt k).nmiArmed = s.nmiArmed ∧ ((s.interrupt k).nmiPending = true → s.nmiPending = true) := by
  have hend (u : State) : (u.takeVector k).nmiArmed = u.nmiArmed ∧
      ((u.takeVector k).nmiPending = true → u.nmiPending = true) := by
    rw [State.takeVector, State.vectorFetch_eq, State.maskFor_frame]
    refine ⟨rfl, fun h => ?_⟩
    cases k with
    | nmi => cases h
    | _ => exact h
  by_cases hwait : s.run = .wait
  · rw [State.interrupt_of_wait hwait]
    exact hend s
  · have hstack : (s.stackFor k).nmiArmed = s.nmiArmed ∧ (s.stackFor k).nmiPending = s.nmiPending := by
      by_cases hk : k = .firq
      · rw [hk, State.stackFor_firq]
        simp
      · rw [State.stackFor_of_ne_firq s hk]
        simp
    rw [State.interrupt_of_not_wait hwait, ← hstack.1, ← hstack.2]
    exact hend _

theorem State.inv_interrupt (h : s.Inv) (k : IntKind) : (s.interrupt k).Inv := by
  obtain ⟨harmed, hpending⟩ := s.interrupt_latch k
  refine State.inv_of_run (State.interrupt_wf h.1 k) (fun hp => ?_) (by simp)
  rw [harmed]
  exact h.2.1 (hpending hp)

/-- CWAI leaves the wait state with E set (45_miscellaneous.md R362). -/
theorem exec_cwai_flag {m : Byte} (h : exec (.cwai m) s = .next t) : t.flag .E = true := by
  rw [exec_cwai] at h
  rw [← Host.Outcome.next.inj h, State.flag, State.setRun_CC, State.stackEntire_CC, State.setCC_CC, flagOf_or]
  exact Bool.or_true _

theorem exec_inv {i : Instr} (h : exec i s = .next t) (hwf : s.MemoryCanonical) (hlatch : s.NmiLatchOnlyArmed)
    (hrun : s.run = .running) : t.Inv := by
  obtain ⟨hruns, -, -, -, hpending, -, -⟩ := onlySyncAndCwaiStopTheMpu i s t h
  have hwf' := (exec_reaches h).wf hwf
  have hlatch' : t.NmiLatchOnlyArmed := fun hp => (exec_reaches h).nmiArmed_mono (hlatch (hpending ▸ hp))
  rcases hruns hrun with hrun' | ⟨-, hrun'⟩ | ⟨m, rfl, hrun'⟩
  · exact State.inv_of_run hwf' hlatch' (by simp [hrun'])
  · exact State.inv_of_run hwf' hlatch' (by simp [hrun'])
  · exact ⟨hwf', hlatch', by simp [State.HaltResumes, hrun'], by simp [State.GrantResumes, hrun'],
      fun _ => exec_cwai_flag h⟩

/-- What runs at a boundary: an entry, or an instruction with its fetches. -/
theorem State.inv_boundary (h : s.Inv) (hrun : s.run = .running) (ht : s.boundary = .next t) : t.Inv := by
  rw [State.boundary] at ht
  split at ht
  · cases ht
    exact State.inv_interrupt h _
  · rw [State.runInstruction] at ht
    split at ht
    · next d _ =>
      have hlatch : (s.fetched d.len).NmiLatchOnlyArmed := by simpa [State.NmiLatchOnlyArmed, State.fetched] using h.2.1
      exact exec_inv ht (State.fetched_wf h.1 _) hlatch (by simpa [State.fetched] using hrun)
    · cases ht

/-! The steps of each run state, from the pins sampled. -/

theorem State.inv_abandon (h : s.Inv) (hrun : s.run = .running) : (s.abandon s.boundary).Inv := by
  have hwf := State.allGrants_wf h.1
  unfold State.abandon
  split
  · next t ht =>
    have hwf' := State.allGrants_wf (State.inv_boundary h hrun ht).1
    exact State.inv_resetSequence (mergeWrites_wf _ hwf hwf')
  · exact State.inv_resetSequence hwf
  · exact State.inv_resetSequence hwf

theorem State.inv_enterHalt (h : s.Inv) {r : Run} (hr : r = .running ∨ r = .reset) : (s.enterHalt r).Inv := by
  obtain ⟨hwf, hlatch, -, -, -⟩ := h
  exact State.inv_masterWrites ⟨hwf, hlatch, fun _ => hr, nofun, by rintro (h | ⟨h, -⟩) <;> cases h⟩

theorem State.inv_enterBusGrant (h : s.Inv) (hrun : s.run = .running ∨ s.run = .sync ∨ s.run = .wait) :
    s.enterBusGrant.Inv := by
  obtain ⟨hwf, hlatch, -, -, hwait⟩ := h
  refine State.inv_masterWrites ⟨hwf, hlatch, nofun, fun _ => hrun, ?_⟩
  rintro (h | ⟨-, h⟩)
  · cases h
  · exact hwait (.inl h)

theorem State.inv_runningStep (h : s.Inv) (hrun : s.run = .running) (ht : s.runningStep = .next t) : t.Inv := by
  rw [State.runningStep] at ht
  split at ht
  · cases ht; exact State.inv_abandon h hrun
  · split at ht
    · cases ht; exact State.inv_enterBusGrant h (.inl hrun)
    · split at ht
      · cases ht; exact State.inv_enterHalt h (.inl rfl)
      · exact State.inv_boundary h hrun ht

theorem State.inv_setRunning (h : s.Inv) : (s.setRun .running).Inv := State.inv_of_run h.1 h.2.1 (by simp)

theorem State.inv_resetStep (h : s.Inv) : s.resetStep.Inv := by
  rw [State.resetStep]
  split
  · exact State.inv_resetSequence h.1
  · split
    · exact State.inv_enterHalt h (.inr rfl)
    · have hlatch : s.leaveReset.NmiLatchOnlyArmed := by rw [s.leaveReset_eq]; exact h.2.1
      exact State.inv_of_run (State.vectorFetch_wf h.1 resVector) hlatch (by simp [State.leaveReset])

theorem State.inv_syncStep (h : s.Inv) (hrun : s.run = .sync) : s.syncStep.Inv := by
  have hrunning := State.inv_setRunning h
  rw [State.syncStep]
  split
  · exact State.inv_resetSequence h.1
  · split
    · exact State.inv_enterBusGrant h (.inr (.inl hrun))
    · split
      · exact State.inv_interrupt hrunning _
      · split
        · exact hrunning
        · exact State.inv_interrupt hrunning _
      · split
        · exact hrunning
        · exact h

theorem State.inv_waitStep (h : s.Inv) (hrun : s.run = .wait) : s.waitStep.Inv := by
  rw [State.waitStep]
  split
  · exact State.inv_resetSequence h.1
  · split
    · exact State.inv_enterBusGrant h (.inr (.inr hrun))
    · split
      · exact State.inv_interrupt h _
      · exact h

theorem State.inv_haltedStep (h : s.Inv) (hrun : s.run = .halted) : s.haltedStep.Inv := by
  have hlatched : (if s.pins.res then { s with resume := .reset } else s).Inv ∧
      (if s.pins.res then { s with resume := .reset } else s).run = .halted := by
    split
    · obtain ⟨hwf, hlatch, -, -, -⟩ := h
      exact ⟨⟨hwf, hlatch, fun _ => .inr rfl, by simp [State.GrantResumes, hrun],
        by simp [State.WaitStacked, hrun]⟩, hrun⟩
    · exact ⟨h, hrun⟩
  unfold State.haltedStep
  generalize (if s.pins.res then { s with resume := .reset } else s) = u at hlatched ⊢
  obtain ⟨hinv, hhalted⟩ := hlatched
  dsimp only
  split
  · exact State.inv_masterWrites hinv
  · split
    · exact State.inv_resetSequence hinv.1
    · next hreset =>
      obtain ⟨-, -, hhalt, -, -⟩ := id hinv
      have hresume : u.resume = .running := (hhalt hhalted).resolve_right hreset
      rw [hresume]
      exact State.inv_setRunning hinv

theorem State.inv_busGrantStep (h : s.Inv) (hrun : s.run = .busGrant) : s.busGrantStep.Inv := by
  have hinv := h
  obtain ⟨hwf, hlatch, -, hgrant, hwait⟩ := h
  rw [State.busGrantStep]
  split
  · exact State.inv_resetSequence hwf
  · split
    · exact State.inv_masterWrites hinv
    · rcases hgrant hrun with hresume | hresume | hresume <;> rw [hresume]
      · exact State.inv_setRunning hinv
      · exact State.inv_of_run hwf hlatch (by simp)
      · exact ⟨hwf, hlatch, nofun, nofun, fun _ => hwait (.inr ⟨hrun, hresume⟩)⟩

end

/-- Settles O8: the invariant is kept by the sampling, then by the step of each run state. -/
theorem stepKeepsInvariant : Obligations.StepKeepsInvariant := by
  intro s t hinv hstep
  have h := State.inv_sample hinv
  unfold step at hstep
  dsimp only at hstep
  split at hstep
  case h_2 hrun => exact State.inv_runningStep h hrun hstep
  all_goals cases hstep
  case h_1 => exact State.inv_resetStep h
  case h_3 hrun => exact State.inv_syncStep h hrun
  case h_4 hrun => exact State.inv_waitStep h hrun
  case h_5 hrun => exact State.inv_haltedStep h hrun
  case h_6 hrun => exact State.inv_busGrantStep h hrun

end Sys2Proof.Machine
end

