-- ==== Sys2Proof/Proofs/HaltAndGrant.lean ====
section
/-! HALT and DMA/BREQ at a boundary: what the MPU keeps while it is stopped or off the bus, what another master writes
then, and where the MPU goes on (60_exceptions.md R420 to R422, R425, R428; 20_memory.md R76). -/

namespace Sys2Proof.Machine

/-! What another master writes. -/

@[simp] theorem State.kindAt_otherWrites (s : State) (ws : List (Word × Byte)) (a : Word) :
    (s.otherWrites ws).kindAt a = s.kindAt a := by rw [State.otherWrites_eq]; rfl

/-- The last write of another master is read back where there is RAM, and leaves the other bytes. -/
theorem State.readByte_otherWrites_append (s : State) (ws : List (Word × Byte)) (a : Word) (v : Byte) (b : Word) :
    (s.otherWrites (ws ++ [(a, v)])).readByte b =
      if a = b ∧ s.kindAt a = .ram then v else (s.otherWrites ws).readByte b := by
  have happend : s.otherWrites (ws ++ [(a, v)]) = (s.otherWrites ws).writeByte a v := List.foldl_append
  rw [happend, State.readByte_writeByte, State.kindAt_otherWrites]

/-- Stopping the MPU does not change what the other master writes. -/
theorem State.masterWrites_stopped (s : State) (r resume : Run) :
    { s with run := r, resume := resume }.masterWrites =
      { s with run := r, resume := resume, mem := s.masterWrites.mem } := by
  have hmem : { s with run := r, resume := resume }.masterWrites.mem = s.masterWrites.mem :=
    State.otherWrites_mem_congr (s := s) (t := { s with run := r, resume := resume }) rfl rfl s.pins.busWrites
  rw [State.masterWrites_eq, hmem]

theorem State.enterHalt_eq (s : State) (resume : Run) :
    s.enterHalt resume = { s with run := .halted, resume := resume, mem := s.masterWrites.mem } :=
  s.masterWrites_stopped .halted resume

theorem State.enterBusGrant_eq (s : State) :
    s.enterBusGrant = { s with run := .busGrant, resume := s.run, mem := s.masterWrites.mem } :=
  s.masterWrites_stopped .busGrant s.run

section
variable {s : State}

/-! Steps that stop the MPU. -/

/-- DMA/BREQ comes before HALT and before any interrupt, in the three states that it can break into. -/
theorem step_of_dma (hrun : s.run ∈ [.running, .sync, .wait]) (hres : s.nextPins.res = false)
    (hdma : s.nextPins.dma = true) :
    step s = .next { s.sample with run := .busGrant, resume := s.run, mem := s.sample.masterWrites.mem } := by
  have hpins : s.sample.pins.res = false ∧ s.sample.pins.dma = true := ⟨hres, hdma⟩
  have henter : step s = .next s.sample.enterBusGrant := by
    simp only [List.mem_cons, List.not_mem_nil, or_false] at hrun
    rcases hrun with hrun | hrun | hrun
    · rw [step_of_running hrun]
      simp [State.runningStep, hpins]
    · rw [step_of_sync hrun]
      simp [State.syncStep, hpins]
    · rw [step_of_wait hrun]
      simp [State.waitStep, hpins]
  rw [henter, State.enterBusGrant_eq]
  rfl

theorem step_running_of_halt (hrun : s.run = .running) (hres : s.nextPins.res = false) (hdma : s.nextPins.dma = false)
    (hhalt : s.nextPins.halt = true) :
    step s = .next { s.sample with run := .halted, resume := .running, mem := s.sample.masterWrites.mem } := by
  have hpins : s.sample.pins.res = false ∧ s.sample.pins.dma = false ∧ s.sample.pins.halt = true :=
    ⟨hres, hdma, hhalt⟩
  rw [step_of_running hrun, ← State.enterHalt_eq]
  simp [State.runningStep, hpins]

/-- RES released with HALT low: the MPU halts before the vector is fetched (60_exceptions.md R425). -/
theorem step_reset_of_halt (hrun : s.run = .reset) (hres : s.nextPins.res = false) (hhalt : s.nextPins.halt = true) :
    step s = .next { s.sample with run := .halted, resume := .reset, mem := s.sample.masterWrites.mem } := by
  have hrun : s.sample.run = .reset := hrun
  have hpins : s.sample.pins.res = false ∧ s.sample.pins.halt = true := ⟨hres, hhalt⟩
  rw [← State.enterHalt_eq]
  simp [step, hrun, State.resetStep, hpins]

/-! Steps of the halt. -/

theorem step_of_halted (hrun : s.run = .halted) : step s = .next s.sample.haltedStep := by
  have hrun : s.sample.run = .halted := hrun
  rw [step, hrun]

/-- While HALT is low RES is latched, and nothing else is done (60_exceptions.md R421). -/
theorem State.haltedStep_of_halt (hhalt : s.pins.halt = true) :
    s.haltedStep = { s with resume := if s.pins.res then .reset else s.resume, mem := s.masterWrites.mem } := by
  have hmaster := s.masterWrites_stopped s.run (if s.pins.res then .reset else s.resume)
  rw [← hmaster]
  cases hres : s.pins.res <;> simp [State.haltedStep, hres, hhalt]

theorem State.haltedStep_of_reset (hhalt : s.pins.halt = false) (hreset : s.pins.res = true ∨ s.resume = .reset) :
    s.haltedStep.run = .reset ∧ s.haltedStep.mem = s.mem := by
  rcases hreset with hres | hresume
  · simp [State.haltedStep, hres, hhalt, State.resetSequence]
  · cases hres : s.pins.res <;> simp [State.haltedStep, hres, hresume, hhalt, State.resetSequence]

theorem State.haltedStep_of_released (hhalt : s.pins.halt = false) (hres : s.pins.res = false)
    (hresume : s.resume = .running) : s.haltedStep = { s with run := .running } := by
  simp [State.haltedStep, hhalt, hres, hresume, State.setRun]

/-! Steps of the bus grant. -/

theorem step_of_busGrant (hrun : s.run = .busGrant) : step s = .next s.sample.busGrantStep := by
  have hrun : s.sample.run = .busGrant := hrun
  rw [step, hrun]

theorem State.busGrantStep_of_dma (hres : s.pins.res = false) (hdma : s.pins.dma = true) :
    s.busGrantStep = { s with mem := s.masterWrites.mem } := by
  rw [← State.masterWrites_eq]
  simp [State.busGrantStep, hres, hdma]

theorem State.busGrantStep_of_released (hres : s.pins.res = false) (hdma : s.pins.dma = false) :
    s.busGrantStep = { s with run := s.resume } := by
  simp [State.busGrantStep, hres, hdma, State.setRun]

end

/-- Settles O17: the steps that stop the MPU, those of the two states it stops in, and what the other master writes. -/
theorem haltAndBusGrant : Obligations.HaltAndBusGrant := by
  refine ⟨?running, fun s hrun => step_of_dma (by simpa using .inr hrun), ?halted, ?granted,
    fun s => step_reset_of_halt, fun s => ⟨rfl, rfl, s.readByte_otherWrites_append⟩⟩
  case running =>
    refine fun s hrun => ⟨by rw [State.busStatus, hrun], fun hres => ⟨fun hdma => ?_, step_running_of_halt hrun hres⟩⟩
    rw [step_of_dma (by simp [hrun]) hres hdma, hrun]
  case halted =>
    intro s hrun
    rw [step_of_halted hrun, State.busStatus, hrun]
    exact ⟨rfl, fun hhalt => congrArg _ (State.haltedStep_of_halt (s := s.sample) hhalt),
      fun hhalt hreset => ⟨_, step_of_halted hrun, State.haltedStep_of_reset (s := s.sample) hhalt hreset⟩,
      fun hhalt hres hresume => congrArg _ (State.haltedStep_of_released (s := s.sample) hhalt hres hresume)⟩
  case granted =>
    intro s hrun hres
    rw [step_of_busGrant hrun, State.busStatus, hrun]
    exact ⟨rfl, fun hdma => congrArg _ (State.busGrantStep_of_dma (s := s.sample) hres hdma),
      fun hdma => congrArg _ (State.busGrantStep_of_released (s := s.sample) hres hdma)⟩

end Sys2Proof.Machine
end

