-- ==== Sys2Proof/Proofs/Fetch.lean ====
section
/-! The step that runs an instruction, and the words of the spec that it reads as such (30_encoding.md R91, Fetch;
95_test_vectors.md; 43_index_stack.md, 2; 40_addressing_modes.md, worked example). -/

namespace Sys2Proof.Machine

/-- A step that fetches an instruction runs it with PC past its bytes. -/
theorem step_of_fetch_ok {s : State} {d : Decoded} (h : s.RunsNext) (hd : s.sample.fetch = .ok d) :
    step s = exec d.instr (s.sample.fetched d.len) := by
  rw [step_of_runsNext h, State.runInstruction, hd]

/-- The first byte of an instruction is read at PC itself. -/
theorem State.fetchByte_zero (s : State) : s.fetchByte 0 = (State.grantN 1 s).readByte s.PC := by
  rw [State.fetchByte, BitVec.add_zero]

/-- Settles O7: the step as the instruction fetched, and the fetch as the decoder on the bytes read. -/
theorem stepRunsDecodedInstruction : Obligations.StepRunsDecodedInstruction := by
  refine fun s d hs hd => ⟨step_of_fetch_ok hs hd, ?_, fun hbus n => State.grantN_of_nil hbus n⟩
  rw [State.fetch, State.fetchByte_zero] at hd
  exact hd

/-- Settles O3: each word by the decoder's tables. -/
theorem sampleWordsDecode : Obligations.SampleWordsDecode :=
  ⟨rfl, rfl, rfl, rfl, rfl, rfl, rfl, rfl, rfl⟩

end Sys2Proof.Machine
end

