-- ==== Sys2Proof/Proofs/DecimalAddition.lean ====
section
/-! ADDA or ADCA of decimal bytes, corrected by DAA (41_8bit_accumulator_memory.md R173, R175, R195). -/

namespace Sys2Proof.Machine

theorem toNat_bcd {n : Nat} (h : n < 100) : (bcd n).toNat = n / 10 * 16 + n % 10 := by
  rw [bcd, BitVec.toNat_ofNat, Nat.mod_eq_of_lt (by omega)]

/-- Where a sum of two decimal bytes and a carry in, 16 * hi + lo, asks for a correction of its high digit: the numbers
reach 100. -/
theorem highCorrection_iff {hi lo : Nat} (hlo : lo ≤ 19) :
    (256 ≤ 16 * hi + lo ∨ 9 < (16 * hi + lo) % 256 / 16 ∨
      (8 < (16 * hi + lo) % 256 / 16 ∧ 9 < (16 * hi + lo) % 256 % 16)) ↔ 100 ≤ 10 * hi + lo := by
  rcases Nat.lt_or_ge (16 * hi + lo) 256 with hsmall | hlarge
  · rw [Nat.mod_eq_of_lt hsmall]
    omega
  · omega

/-- The correction of a sum of two decimal bytes and a carry in: 6 where the low digits reach 10, 0x60 where the numbers
reach 100. -/
theorem daaCorrection_bcd {x y : Nat} (hx : x < 100) (hy : y < 100) (c : Bool) :
    daaCorrection (add8 (bcd x) (bcd y) c).r (add8 (bcd x) (bcd y) c).h (add8 (bcd x) (bcd y) c).c =
      (if 10 ≤ x % 10 + y % 10 + c.toNat then 6 else 0) + (if 100 ≤ x + y + c.toNat then 96 else 0) := by
  have hc : c.toNat ≤ 1 := c.toNat_le
  have hhigh := highCorrection_iff (hi := x / 10 + y / 10) (lo := x % 10 + y % 10 + c.toNat) (by omega)
  have hsum : x / 10 * 16 + x % 10 + (y / 10 * 16 + y % 10) + c.toNat =
      16 * (x / 10 + y / 10) + (x % 10 + y % 10 + c.toNat) := by omega
  have hdecimal : 10 * (x / 10 + y / 10) + (x % 10 + y % 10 + c.toNat) = x + y + c.toNat := by omega
  rw [daaCorrection]
  simp only [add8, toNat_bcd hx, toNat_bcd hy, BitVec.toNat_ofNat, Nat.reducePow, decide_eq_true_eq]
  congr 1 <;> refine if_congr ?_ rfl rfl
  · omega
  · rw [hsum, hhigh, hdecimal]

/-- The corrected sum is the decimal digits of the sum of the numbers, with the carry where that reaches 100. -/
theorem daa_add8_bcd {x y : Nat} (hx : x < 100) (hy : y < 100) (c : Bool) {sum : Sum8}
    (hsum : sum = add8 (bcd x) (bcd y) c) :
    BitVec.ofNat 8 (sum.r.toNat + daaCorrection sum.r sum.h sum.c) = bcd ((x + y + c.toNat) % 100) ∧
      (sum.c || decide (256 ≤ sum.r.toNat + daaCorrection sum.r sum.h sum.c)) = decide (100 ≤ x + y + c.toNat) := by
  have hc : c.toNat ≤ 1 := c.toNat_le
  have hr : sum.r.toNat = (x / 10 * 16 + x % 10 + (y / 10 * 16 + y % 10) + c.toNat) % 256 := by
    simp only [hsum, add8, toNat_bcd hx, toNat_bcd hy, BitVec.toNat_ofNat, Nat.reducePow]
  have hcarry : sum.c = decide (256 ≤ x / 10 * 16 + x % 10 + (y / 10 * 16 + y % 10) + c.toNat) := by
    simp only [hsum, add8, toNat_bcd hx, toNat_bcd hy]
  have hcorrection := daaCorrection_bcd hx hy c
  rw [← hsum] at hcorrection
  rw [hcorrection, hr, hcarry]
  constructor
  · apply BitVec.eq_of_toNat_eq
    rw [toNat_bcd (Nat.mod_lt _ (by decide)), BitVec.toNat_ofNat]
    split <;> split <;> omega
  · rw [← Bool.decide_or, decide_eq_decide]
    split <;> split <;> omega

/-- An addition of decimal bytes, then DAA. -/
theorem completes_decimalAddition {i : Instr} {s : State} {x y : Nat} {withCarry : Bool} (hx : x < 100) (hy : y < 100)
    (hA : s.A = bcd x) (hexec : exec i s = .next (s.addAcc .a (.imm (bcd y)) withCarry)) :
    Completes i s fun t => Completes .daa t fun u =>
      u.A = bcd ((x + y + (withCarry && s.flag .C).toNat) % 100) ∧
        u.flag .C = decide (100 ≤ x + y + (withCarry && s.flag .C).toNat) := by
  let sum := add8 s.A (bcd y) (withCarry && s.flag .C)
  obtain ⟨hdigits, hcarry⟩ := daa_add8_bcd hx hy (withCarry && s.flag .C) (sum := sum) (by rw [← hA])
  have hflag (f : Flag) : flagOf (s.addAcc .a (.imm (bcd y)) withCarry).CC f = _ := flagOf_arithFlags8 s.CC sum f
  refine ⟨_, hexec, _, rfl, ?_, ?_⟩
  · refine (daaByte_result sum.r _ s.undefFlag).trans ?_
    rw [hflag, hflag]
    exact hdigits
  · refine (flagOf_daaByte sum.r _ s.undefFlag .C).trans ?_
    rw [hflag, hflag]
    exact hcarry

/-- Settles O36: ADDA is the addition with no carry in. -/
theorem decimalAddition : Obligations.DecimalAddition := fun _ _ _ hx hy hA =>
  ⟨completes_decimalAddition (withCarry := false) hx hy hA rfl,
    completes_decimalAddition (withCarry := true) hx hy hA rfl⟩

end Sys2Proof.Machine
end

