-- ==== Sys2Proof/Proofs/BranchLaws.lean ====
section
/-! The laws of complementary branches, of branches by 0, and of BSR as JSR (44_branches.md, 3). -/

namespace Sys2Proof.Machine

/-! Complementary branches. -/

/-- A branch by an offset other than 0 changes the state exactly if it is taken. -/
theorem State.branch_eq_self_iff (s : State) (c : Cond) {d : Word} (hd : d ≠ 0) :
    s.branch c d = s ↔ c.holds s.CC = false := by
  rw [State.branch]
  cases hc : c.holds s.CC with
  | false => simp
  | true =>
    have hmoved : s.PC + d ≠ s.PC := by simpa using hd
    simpa using fun h => hmoved (congrArg State.PC h)

/-- A branch by 0 changes nothing, taken or not. -/
theorem State.branch_zero (s : State) (c : Cond) : s.branch c 0 = s := by
  have hadd : s.PC + 0 = s.PC := by simp
  rw [State.branch, hadd]
  exact ite_self s

/-- Two short branches on complementary conditions. -/
theorem complementaryBranches {i j : Byte → Instr} {s : State} (c c' : Cond) (hcond : c'.holds s.CC = !c.holds s.CC)
    (hexec : ∀ d, exec (i d) s = .next (s.branch c (sext8 d)) ∧ exec (j d) s = .next (s.branch c' (sext8 d))) :
    (exec (i 0) s = .next s ∧ exec (j 0) s = .next s) ∧
      ∀ d : Byte, d ≠ 0 → (exec (i d) s = .next s ↔ exec (j d) s ≠ .next s) := by
  have hzero (c : Cond) : s.branch c (sext8 0) = s := s.branch_zero c
  refine ⟨⟨by rw [(hexec 0).1, hzero], by rw [(hexec 0).2, hzero]⟩, fun d hd => ?_⟩
  have hsext : sext8 d ≠ 0 := fun h => hd ?_
  · rw [(hexec d).1, (hexec d).2, ne_eq, Host.Outcome.next.injEq, Host.Outcome.next.injEq,
      State.branch_eq_self_iff _ _ hsext, State.branch_eq_self_iff _ _ hsext, hcond]
    cases c.holds s.CC <;> decide
  · apply BitVec.eq_of_toInt_eq
    rw [← toInt_sext8, h]
    rfl

/-! BSR and JSR. -/

theorem State.writeByte_setTemp (s : State) (v a : Word) (b : Byte) :
    (s.setTemp v).writeByte a b = (s.writeByte a b).setTemp v := by
  rw [State.writeByte_eq, State.writeByte_eq]
  rfl

/-- The holding register takes no part in what a grant does. -/
theorem State.grant_setTemp (s : State) (v : Word) : (s.setTemp v).grant = s.grant.setTemp v := by
  have hsame : (s.setTemp v).grants = s.grants := rfl
  rcases hgrants : s.grants with _ | ⟨_ | ws, gs⟩
  · rw [State.grant_of_nil hgrants, State.grant_of_nil (hsame.trans hgrants)]
  · rw [State.grant_of_none hgrants, State.grant_of_none (hsame.trans hgrants)]
    rfl
  · rw [State.grant_of_some hgrants, State.grant_of_some (hsame.trans hgrants)]
    have hmem : ((s.setTemp v).otherWrites ws).mem = (s.otherWrites ws).mem :=
      State.otherWrites_mem_congr (s := s) (t := s.setTemp v) rfl rfl ws
    rw [hmem]
    rfl

theorem State.busWrite_setTemp (s : State) (v a : Word) (b : Byte) :
    (s.setTemp v).busWrite a b = (s.busWrite a b).setTemp v := by
  rw [State.busWrite, State.grant_setTemp, State.writeByte_setTemp]
  rfl

theorem State.push8_setTemp (s : State) (v : Word) (k : Stack) (b : Byte) :
    (s.setTemp v).push8 k b = (s.push8 k b).setTemp v := by
  have hset : (s.setTemp v).setSp k (s.sp k - 1) = (s.setSp k (s.sp k - 1)).setTemp v := by cases k <;> rfl
  have hsp : (s.setTemp v).sp k = s.sp k := by cases k <;> rfl
  rw [State.push8, hsp, hset, State.busWrite_setTemp]
  rfl

/-- The holding register takes no part in a call. -/
theorem State.call_setTemp (s : State) (v target : Word) : (s.setTemp v).call target = (s.call target).setTemp v := by
  have hpush : (s.setTemp v).push16 .s s.PC = (s.push16 .s s.PC).setTemp v :=
    (congrArg (·.push8 .s (hiByte s.PC)) (s.push8_setTemp v .s (loByte s.PC))).trans (State.push8_setTemp _ v .s _)
  exact congrArg (·.setPC target) hpush

/-- Settles O60: the eight pairs by their conditions, and BSR and JSR as one call. -/
theorem branchLaws : Obligations.BranchLaws := by
  refine ⟨fun s p hp => ?_, fun s d => ?_⟩
  · simp only [List.mem_cons, List.not_mem_nil, or_false] at hp
    rcases hp with rfl | rfl | rfl | rfl | rfl | rfl | rfl | rfl
    · exact complementaryBranches .ra .rn rfl fun _ => ⟨rfl, rfl⟩
    · exact complementaryBranches .hi .ls (Bool.not_not _).symm fun _ => ⟨rfl, rfl⟩
    · exact complementaryBranches .hs .lo (Bool.not_not _).symm fun _ => ⟨rfl, rfl⟩
    · exact complementaryBranches .ne .eq (Bool.not_not _).symm fun _ => ⟨rfl, rfl⟩
    · exact complementaryBranches .vc .vs (Bool.not_not _).symm fun _ => ⟨rfl, rfl⟩
    · exact complementaryBranches .pl .mi (Bool.not_not _).symm fun _ => ⟨rfl, rfl⟩
    · exact complementaryBranches .ge .lt (Bool.not_not _).symm fun _ => ⟨rfl, rfl⟩
    · exact complementaryBranches .gt .le (Bool.not_not _).symm fun _ => ⟨rfl, rfl⟩
  · refine ⟨_, exec_bsr d s, _, exec_jsr _ _, ?_⟩
    have htemp (target : Word) : (s.call target).temp = s.temp := State.push16_temp s .s s.PC
    refine Eq.trans ?_ (congrArg (fun u => { u with temp := s.temp }) (s.call_setTemp _ _)).symm
    rw [← htemp]
    rfl

end Sys2Proof.Machine
end

