-- ==== Sys2Proof/Proofs/EntryThenReturn.lean ====
section
/-! RTI after the entry of an interrupt: the bytes that the entry has stacked, read back by the pulls of the return
(45_miscellaneous.md R367; 60_exceptions.md R400, R410). -/

namespace Sys2Proof.Machine

/-! Bytes stacked in one state and read in a later one. -/

/-- The bytes `bs` are read from address `p` up. -/
def State.HoldsBytes (h : State) (p : Word) (bs : List Byte) : Prop :=
  ∀ i < bs.length, h.readByte (p + BitVec.ofNat 16 i) = bs.getD i 0

/-- A byte of RAM is read the same at any time (20_memory.md R62). -/
theorem State.readByte_of_ram {s : State} {a : Word} (ha : s.kindAt a = .ram) : s.readByte a = s.mem.read a.toNat := by
  rw [State.readByte, ha]

/-- Bytes stored in RAM are read in every later state with the same memory and map. -/
theorem State.holdsBytes_of_stored {s t h : State} {p : Word} {bs : List Byte} (hstored : StoresBytes s t p bs)
    (htmap : t.memMap = s.memMap) (hmem : h.mem = t.mem) (hmap : h.memMap = s.memMap) (hlen : bs.length ≤ 65536)
    (hram : ∀ i < bs.length, s.kindAt (p + BitVec.ofNat 16 i) = .ram) : h.HoldsBytes p bs := by
  intro i hi
  have hkind {u : State} (hu : u.memMap = s.memMap) : u.kindAt (p + BitVec.ofNat 16 i) = .ram := by
    rw [State.kindAt, hu]
    exact hram i hi
  have hoffset : (p + BitVec.ofNat 16 i - p).toNat = i := by
    rw [add_sub_cancel_left, BitVec.toNat_ofNat]
    exact Nat.mod_eq_of_lt (hi.trans_le hlen)
  have hbyte := hstored (p + BitVec.ofNat 16 i)
  rw [hoffset, if_pos ⟨hi, hram i hi⟩] at hbyte
  rw [State.readByte_of_ram (hkind hmap), hmem, ← State.readByte_of_ram (hkind htmap), hbyte]

section
variable {h : State} {p : Word} {bs : List Byte}

theorem State.HoldsBytes.first (hbs : h.HoldsBytes p bs) (hlen : 0 < bs.length) : h.readByte p = bs.getD 0 0 := by
  have hbyte := hbs 0 hlen
  rwa [BitVec.add_zero] at hbyte

theorem State.HoldsBytes.word (hbs : h.HoldsBytes p bs) {i : Nat} (hi : i + 1 < bs.length) :
    h.readWord (p + BitVec.ofNat 16 i) = joinBytes (bs.getD i 0) (bs.getD (i + 1) 0) := by
  have hnext : p + BitVec.ofNat 16 i + 1 = p + BitVec.ofNat 16 (i + 1) := by
    rw [BitVec.ofNat_add, ← BitVec.add_assoc]
    rfl
  rw [State.readWord, hnext, hbs i (by omega), hbs (i + 1) hi]

end

/-! The return from what is stacked. -/

section
variable {s h : State}

/-- The return from a subset state stacked with E clear. -/
theorem completes_rti_subset (hbus : h.KeepsBus) {p : Word} {cc : Byte} (hS : h.S = p)
    (hstack : h.HoldsBytes p [cc, hiByte s.PC, loByte s.PC]) (hE : cc.getLsbD 7 = false) :
    Completes .rti h fun u => u = { h with CC := cc, PC := s.PC, S := p + 3 } := by
  subst hS
  have hcc : h.readByte h.S = cc := hstack.first (Nat.succ_pos _)
  have hpc : h.readWord (h.S + 1) = s.PC := (hstack.word (i := 1) (by simp)).trans (joinBytes_hiByte_loByte _)
  obtain ⟨u, hu, -, hframe⟩ :=
    completes_of_pulled (i := .rti) rfl (State.pulled_returnFromInterrupt_subset hbus (by rw [hcc]; exact hE))
  refine ⟨u, hu, hframe.trans ?_⟩
  rw [hcc, hpc]
  rfl

/-- The return from an entire state stacked with E set. -/
theorem completes_rti_entire (hbus : h.KeepsBus) {p : Word} {cc : Byte} (hS : h.S = p)
    (hstack : h.HoldsBytes p (entireImage s cc)) (hE : cc.getLsbD 7 = true) :
    Completes .rti h fun u => u = { h with
      CC := cc, A := s.A, B := s.B, DP := s.DP, X := s.X, Y := s.Y, U := s.U, PC := s.PC, S := p + 12 } := by
  subst hS
  have hbyte (i : Nat) (hi : i < 12) : h.readByte (h.S + BitVec.ofNat 16 i) = (entireImage s cc).getD i 0 := hstack i hi
  have hword (i : Nat) (hi : i + 1 < 12) :
      h.readWord (h.S + BitVec.ofNat 16 i) =
        joinBytes ((entireImage s cc).getD i 0) ((entireImage s cc).getD (i + 1) 0) :=
    hstack.word hi
  have hcc : h.readByte h.S = cc := hstack.first (Nat.succ_pos _)
  have ha : h.readByte (h.S + 1) = s.A := hbyte 1 (by decide)
  have hb : h.readByte (h.S + 2) = s.B := hbyte 2 (by decide)
  have hdp : h.readByte (h.S + 3) = s.DP := hbyte 3 (by decide)
  have hx : h.readWord (h.S + 4) = s.X := (hword 4 (by decide)).trans (joinBytes_hiByte_loByte _)
  have hy : h.readWord (h.S + 6) = s.Y := (hword 6 (by decide)).trans (joinBytes_hiByte_loByte _)
  have hu : h.readWord (h.S + 8) = s.U := (hword 8 (by decide)).trans (joinBytes_hiByte_loByte _)
  have hpc : h.readWord (h.S + 10) = s.PC := (hword 10 (by decide)).trans (joinBytes_hiByte_loByte _)
  obtain ⟨u, hexec, -, hframe⟩ :=
    completes_of_pulled (i := .rti) rfl (State.pulled_returnFromInterrupt_entire hbus (by rw [hcc]; exact hE))
  refine ⟨u, hexec, hframe.trans ?_⟩
  rw [State.loadEntire, hcc, ha, hb, hdp, hx, hy, hu, hpc]
  rfl

end

/-- Settles O13: what the entry stacks is what the return pulls, by the two kinds of frame. -/
theorem interruptThenReturnRestores : Obligations.InterruptThenReturnRestores := by
  intro s h k hrun hbus hbus' hram hS hmem hmap
  have hwait : s.run ≠ .wait := by rw [hrun]; decide
  have htmap : (s.interrupt k).memMap = s.memMap := ((State.SameBus.refl s).interrupt k).memMap
  by_cases hk : k = .firq
  · subst hk
    obtain ⟨hframe, hstored⟩ := State.entersSubset_interrupt hbus hwait
    have hstack : h.HoldsBytes (s.S - 3) [s.CC &&& 0x7F, hiByte s.PC, loByte s.PC] := by
      refine State.holdsBytes_of_stored hstored htmap hmem hmap (by simp) fun i hi => ?_
      have haddr : s.S - 3 + BitVec.ofNat 16 i = s.S - 12 + BitVec.ofNat 16 (9 + i) := by
        rw [BitVec.ofNat_add]
        bv_omega
      rw [haddr]
      exact hram (9 + i) (Nat.add_lt_add_left hi 9)
    have hreturn := completes_rti_subset hbus' (hS.trans (congrArg State.S hframe)) hstack (by simp)
    rw [sub_add_cancel] at hreturn
    simpa only [if_true] using hreturn
  · obtain ⟨⟨hframe, hstored⟩, -⟩ := State.entersEntire_interrupt hbus hwait hk
    have hstack : h.HoldsBytes (s.S - 12) (entireImage s (s.CC ||| 0x80)) :=
      State.holdsBytes_of_stored hstored htmap hmem hmap (Nat.le_of_ble_eq_true rfl) hram
    have hreturn := completes_rti_entire hbus' (hS.trans (congrArg State.S hframe)) hstack (by simp)
    rw [sub_add_cancel] at hreturn
    simpa only [hk, if_false] using hreturn

end Sys2Proof.Machine
end
